-- ==== Sys2Proof/Word.lean ====
section
/-! DEFINITION. The bus word and byte (00_scope.md R7, 20_memory.md R54-R56), and the named pair that holds one value per
recording. -/

namespace Sys2Proof

/-- A bus word and the content of a register: 64 bits, bit 0 the least significant (R7, R20). -/
abbrev Word := BitVec 64

/-- One byte of a memory, as 20_memory.md R58 describes a word by bytes. -/
abbrev Byte := BitVec 8

/-- The table or recording select `T` of a command word (30_encoding.md R76): A is recording 1, B is recording 2. -/
inductive Tab where
  | a
  | b
  deriving DecidableEq, Repr

/-- `T` as the number the spec gives it: 0 for A, 1 for B (R76). -/
def Tab.toNat : Tab → Nat
  | .a => 0
  | .b => 1

/-- The name `X_T` of 00_scope.md R17: one value for recording A and one for recording B. -/
structure AB (α : Type) where
  /-- The value of recording A. -/
  a : α
  /-- The value of recording B. -/
  b : α
  deriving DecidableEq, Repr

/-- The value that `X_T` names. -/
def AB.get {α : Type} (p : AB α) : Tab → α
  | .a => p.a
  | .b => p.b

/-- `X_T <- v`. -/
def AB.set {α : Type} (p : AB α) : Tab → α → AB α
  | .a, v => { p with a := v }
  | .b, v => { p with b := v }

end Sys2Proof
end

