-- ==== Sys2Proof/Syntax.lean ====
section
/-! DEFINITION. The commands of 30_encoding.md R78: one constructor for each row of spec/opcode_table.json, carrying the
fields R78 says the command uses. -/

namespace Sys2Proof

/-- A command of the block (R78). A frame index is an unsigned integer (R8, R77); that it fits its 23-bit field is
`Instr.wellFormed`. -/
inductive Instr where
  /-- 0x00 NOP (R88). -/
  | nop
  /-- 0x01 BUILD_WINDOW (R98). -/
  | buildWindow
  /-- 0x02 BUILD_SINE (R137). -/
  | buildSine
  /-- 0x10 LOAD_FRAME T, f (R124). -/
  | loadFrame (t : Tab) (f : Nat)
  /-- 0x11 WINDOW (R99). -/
  | window
  /-- 0x12 FFT (R93). -/
  | fft
  /-- 0x13 PEAKS T, f (R116). -/
  | peaks (t : Tab) (f : Nat)
  /-- 0x14 ANALYZE T (R126). -/
  | analyze (t : Tab)
  /-- 0x15 NORMALIZE T (R128). -/
  | normalize (t : Tab)
  /-- 0x20 SYNTH_RESET (R130). -/
  | synthReset
  /-- 0x21 INTERP (R132). -/
  | interp
  /-- 0x22 OSC (R142). -/
  | osc
  /-- 0x23 SYNTH (R133). -/
  | synth
  deriving DecidableEq, Repr

end Sys2Proof
end

