-- ==== Sys2Proof/WellFormed.lean ====
section
/-! DEFINITION. Which terms of `Instr` are commands of the block: the operands fit the fields of 30_encoding.md R76. -/

namespace Sys2Proof

/-- FRAME is 23 bits wide, so a frame index is at most 2^23 - 1 (R76, R77). -/
abbrev frameFits (f : Nat) : Bool := decide (f < 2 ^ 23)

/-- The one operand that can be out of range is a frame index, which only LOAD_FRAME and PEAKS take (R78). -/
def Instr.wellFormed : Instr → Bool
  | .nop => true
  | .buildWindow => true
  | .buildSine => true
  | .loadFrame _ f => frameFits f
  | .window => true
  | .fft => true
  | .peaks _ f => frameFits f
  | .analyze _ => true
  | .normalize _ => true
  | .synthReset => true
  | .interp => true
  | .osc => true
  | .synth => true

end Sys2Proof
end

