-- ==== Sys2Proof/Decode.lean ====
section
/-! DEFINITION. Decoding and encoding of the 64-bit command word (30_encoding.md R76-R82). A command word is transferred
whole over the bus (20_memory.md R58), so the decoder takes the word, and every word has an answer. -/

namespace Sys2Proof

/-- Why a word is no command, by the spec's own names (R79, R80). -/
inductive DecodeError where
  /-- OP is none of the 13 defined values. -/
  | illegalOpcode
  /-- OP is defined and a reserved or unused field is not zero. -/
  | reservedField
  deriving DecidableEq, Repr

/-- OP = w[7:0] (R76). -/
def opField (w : Word) : Nat := (w.extractLsb' 0 8).toNat

/-- T = w[8]: 0 selects A, 1 selects B (R76). -/
def tabField (w : Word) : Tab := if w.getLsbD 8 then .b else .a

/-- FRAME = w[31:9], unsigned, not scaled (R76, R77). -/
def frameField (w : Word) : Nat := (w.extractLsb' 9 23).toNat

/-- RSV = w[63:32] (R76). -/
def reservedBits (w : Word) : Nat := (w.extractLsb' 32 32).toNat

/-- R79's checks for a defined OP that uses neither T nor FRAME, in R79's order. -/
def decodePlain (w : Word) (i : Instr) : Except DecodeError Instr :=
  if reservedBits w ≠ 0 then .error .reservedField
  else if frameField w ≠ 0 then .error .reservedField
  else if w.getLsbD 8 then .error .reservedField
  else .ok i

/-- R79's checks for a defined OP that uses T alone. -/
def decodeTab (w : Word) (mk : Tab → Instr) : Except DecodeError Instr :=
  if reservedBits w ≠ 0 then .error .reservedField
  else if frameField w ≠ 0 then .error .reservedField
  else .ok (mk (tabField w))

/-- R79's checks for a defined OP that uses T and FRAME. -/
def decodeTabFrame (w : Word) (mk : Tab → Nat → Instr) : Except DecodeError Instr :=
  if reservedBits w ≠ 0 then .error .reservedField
  else .ok (mk (tabField w) (frameField w))

/-- Decoding of a command word (R79), total: the OP byte is checked first, then the fields that must be zero. -/
def decode (w : Word) : Except DecodeError Instr :=
  match opField w with
  | 0x00 => decodePlain w .nop
  | 0x01 => decodePlain w .buildWindow
  | 0x02 => decodePlain w .buildSine
  | 0x10 => decodeTabFrame w .loadFrame
  | 0x11 => decodePlain w .window
  | 0x12 => decodePlain w .fft
  | 0x13 => decodeTabFrame w .peaks
  | 0x14 => decodeTab w .analyze
  | 0x15 => decodeTab w .normalize
  | 0x20 => decodePlain w .synthReset
  | 0x21 => decodePlain w .interp
  | 0x22 => decodePlain w .osc
  | 0x23 => decodePlain w .synth
  | _ => .error .illegalOpcode

/-- The word of a command's fields, `zext_64({FRAME[22:0], T, OP[7:0]})` (R83). -/
def packWord (op : Nat) (t : Tab) (f : Nat) : Word := BitVec.ofNat 64 (op + 2 ^ 8 * t.toNat + 2 ^ 9 * f)

/-- The command word of an instruction (R78, R83). -/
def encode : Instr → Word
  | .nop => packWord 0x00 .a 0
  | .buildWindow => packWord 0x01 .a 0
  | .buildSine => packWord 0x02 .a 0
  | .loadFrame t f => packWord 0x10 t f
  | .window => packWord 0x11 .a 0
  | .fft => packWord 0x12 .a 0
  | .peaks t f => packWord 0x13 t f
  | .analyze t => packWord 0x14 t 0
  | .normalize t => packWord 0x15 t 0
  | .synthReset => packWord 0x20 .a 0
  | .interp => packWord 0x21 .a 0
  | .osc => packWord 0x22 .a 0
  | .synth => packWord 0x23 .a 0

/-- What the decoder reads from a command whose bits are `w`, numbered as spec/opcode_table.json numbers them: one 64-bit
word, bits above `nbits` zero. A number that is no 64-bit word is no command (R82). -/
def decodeTableWord (nbits w : Nat) : Option Instr :=
  if nbits ≤ 64 ∧ w < 2 ^ nbits then (decode (BitVec.ofNat 64 w)).toOption else none

end Sys2Proof
end

