-- ==== Sys2Proof/Config.lean ====
section
/-! DEFINITION. What an instance of the block fixes (00_scope.md R4, R5) and the values the spec leaves open. -/

namespace Sys2Proof

/-- The parameter TRIG (R4, R16): which pair FCOS, FSIN the instance is built with. -/
inductive Trig where
  /-- The default: the correctly rounded cosine and sine (R16, decision D5). -/
  | correctlyRounded
  /-- Some other pair, the `k`-th: `Config.platformCos k` and `Config.platformSin k`, kept within R16's limits. -/
  | platform (k : Nat)
  deriving DecidableEq, Repr

/-- The elaboration parameters of R4. P_FMAX is derived from them (R6). -/
structure Params where
  /-- P_NFFT, the FFT size. -/
  nfft : Nat
  /-- P_WIN, the window length. -/
  win : Nat
  /-- P_HOP, the hop size. -/
  hop : Nat
  /-- P_SINE, the sine table size. -/
  sine : Nat
  /-- P_ENGINE_SR, the engine sample rate, a binary64 pattern. -/
  engineSr : Word
  /-- P_NMAX, the number of voice slots. -/
  nmax : Nat
  /-- P_INMAX, the input memory size of each recording, in samples. -/
  inmax : Nat
  /-- TRIG, the pair FCOS, FSIN. -/
  trig : Trig
  deriving DecidableEq, Repr

/-- The defaults of R4. 0x40E7_7000_0000_0000 is 48000.0 (R25). -/
def Params.default : Params where
  nfft := 8192
  win := 2048
  hop := 1024
  sine := 16384
  engineSr := 0x40E7700000000000#64
  nmax := 64
  inmax := 4194304
  trig := .correctlyRounded

/-- FREE VALUE: the bits a host read of an unwritten element returns, one for each draw (10_state.md R51). Log 8. -/
opaque Config.freeWord : Nat → BitVec 64

/-- FREE VALUE: the bits of a NaN that an operation produced, one for each draw; the model makes a NaN pattern of them
(00_scope.md R12). Log 9. -/
opaque Config.freeNan : Nat → BitVec 64

/-- IMPLEMENTATION VALUE: the cosine of the `k`-th platform at the magnitude pattern of a binary64 argument (R16). Log 11. -/
opaque Config.platformCos : Nat → Nat → BitVec 64

/-- IMPLEMENTATION VALUE: the sine of the `k`-th platform at the magnitude pattern of a binary64 argument (R16). Log 11. -/
opaque Config.platformSin : Nat → Nat → BitVec 64

end Sys2Proof
end

