-- ==== Sys2Proof/Machine/State.lean ====
section
/-! DEFINITION. The state of the block (10_state.md R18: registers, voices, memories, PENDING, written marks), the host's
queued inputs and the responses given, and the reasons a step can stop. -/

namespace Sys2Proof.Machine

/-- The seven memories (00_scope.md R17). -/
inductive Space where
  | inbufA
  | inbufB
  | fftbuf
  | wintab
  | sinetab
  | atabA
  | atabB
  deriving DecidableEq, Repr

/-- The codes of STATUS.ERRCODE (60_exceptions.md R149). -/
inductive ErrCode where
  /-- 0x00: no error. -/
  | none
  /-- 0x01. -/
  | illegalOpcode
  /-- 0x02. -/
  | reservedField
  /-- 0x03. -/
  | winNotReady
  /-- 0x04. -/
  | sineNotReady
  /-- 0x05. -/
  | frameRange
  /-- 0x06. -/
  | empty
  /-- 0x07. -/
  | zeroMax
  /-- 0x08. -/
  | nonfinite
  deriving DecidableEq, Repr

/-- The causes of a bus error (20_memory.md R68), and the rejection of a transaction issued while reset is asserted
(70_reset_and_hazards.md R162; the name `inReset` is the model's, log 13). -/
inductive BusCause where
  | misaligned
  | busy
  | unmapped
  | writeRo
  | illegalValue
  | inReset
  deriving DecidableEq, Repr

/-- STATUS (10_state.md R27), field by field; its word is `Status.toWord`. Bits 63:16 are reserved and have no storage. -/
structure Status where
  /-- Bit 0: a command is pending or executing. -/
  busy : Bool
  /-- Bit 1: WINTAB holds the Hann window. -/
  winReady : Bool
  /-- Bit 2: SINETAB holds the sine table. -/
  sineReady : Bool
  /-- Bits 3 and 4: NORM_A and NORM_B. -/
  norm : AB Bool
  /-- Bit 5: a command ended with a command error. -/
  err : Bool
  /-- Bit 6: a command error occurred while ERR was already 1. -/
  errMulti : Bool
  /-- Bit 7: a host transaction was rejected with a bus error. -/
  berr : Bool
  /-- Bits 15:8: the code of the first command error since ERR was last 0. -/
  errcode : ErrCode
  deriving DecidableEq, Repr

/-- A voice register V[n] (10_state.md R41): four binary64 patterns. -/
structure Voice where
  freq : Word
  amp : Word
  phase : Word
  inc : Word
  deriving DecidableEq, Repr

/-- What the host or the platform does to the block from outside. -/
inductive HostEvent where
  /-- `Read(addr)` (20_memory.md R54). -/
  | read (addr : BitVec 32)
  /-- `Write(addr, data)` (R54). -/
  | write (addr : BitVec 32) (data : Word)
  /-- A transaction of another width than 64 bits, which a model refuses (R56). -/
  | narrow (bits : Nat) (addr : BitVec 32)
  /-- The platform asserts the reset input (70_reset_and_hazards.md R162). -/
  | assertReset
  /-- The platform releases the reset input (R162). -/
  | releaseReset
  deriving DecidableEq, Repr

/-- An input and when it arrives. -/
structure Input where
  /-- What arrives. -/
  event : HostEvent
  /-- If a command is running: whether the input arrives before that command completes. The time a command takes is not
  specified (40_control.md R86), so either may be. Log 4. -/
  overlap : Bool
  deriving DecidableEq, Repr

/-- The response to a transaction (20_memory.md R54). The cause is for a model, the host sees only BUSERR (R68, R147). -/
inductive Reply where
  /-- `(OK, data)`, of a read. -/
  | readOk (data : Word)
  /-- `(BUSERR, data)`, of a rejected read. -/
  | readErr (cause : BusCause) (data : Word)
  /-- `OK`, of a write. -/
  | writeOk
  /-- `BUSERR`, of a rejected write. -/
  | writeErr (cause : BusCause)
  deriving DecidableEq, Repr

/-- The contents of the seven memories: (bus offset, byte) cells, an unlisted offset being unwritten (10_state.md R51).
Canonical form: `Mem.wf`. -/
abbrev Mem := List Host.Cell

/-- The state (10_state.md R18), with the instance's constants and the host's side. -/
structure State where
  /-- The parameters of the instance (00_scope.md R4): constant, read as PARAM0-PARAM3 and ENGINE_SR (R24, R25). Log 1. -/
  params : Params
  /-- CMD (R26). -/
  cmd : Word
  /-- PENDING, the hidden register (R50). -/
  pending : Word
  /-- STATUS (R27). -/
  status : Status
  /-- NVOICES (R29). -/
  nvoices : Word
  /-- IN_LEN_A, IN_LEN_B (R30). -/
  inLen : AB Word
  /-- SR_A, SR_B (R31), binary64. -/
  sr : AB Word
  /-- S (R35). -/
  s : Word
  /-- OUT_L (R36), binary64. -/
  outL : Word
  /-- OUT_R (R36), binary64. -/
  outR : Word
  /-- NORM_MAX_A, NORM_MAX_B (R37), binary64. -/
  normMax : AB Word
  /-- PEAK_COUNT (R38). -/
  peakCount : Word
  /-- INT_T (R39), binary64. -/
  intT : Word
  /-- INT_LOW (R39). -/
  intLow : Word
  /-- INT_HIGH (R39). -/
  intHigh : Word
  /-- INT_UW (R39), binary64. -/
  intUw : Word
  /-- INT_LW (R39), binary64. -/
  intLw : Word
  /-- V[0] .. V[P_NMAX-1] (R41). -/
  voices : List Voice
  /-- INBUF_A, INBUF_B, FFTBUF, WINTAB, SINETAB, ATAB_A, ATAB_B (R45-R49) and their written marks (R51). -/
  mem : Mem
  /-- Whether the reset input is asserted (R162). Log 13. -/
  inReset : Bool
  /-- The inputs still to come, oldest first. Log 3. -/
  inputs : List Input
  /-- The responses given, newest first. Log 3. -/
  replies : List Reply
  /-- How many free values have been drawn: the index of the next one. Log 16. -/
  draws : Nat
  deriving DecidableEq, Repr

/-- Why the machine stops with a fault. -/
inductive Fault where
  /-- A command read an element of `space` that nothing has written since reset: the run has no end state (10_state.md
  R51, 60_exceptions.md R144). Raised by LOAD_FRAME, WINDOW, FFT, PEAKS, ANALYZE, NORMALIZE, INTERP, OSC, SYNTH. SAFE:
  the hardware goes on with an unspecified value. -/
  | unwritten (space : Space)
  deriving DecidableEq, Repr

/-- What the model gives no meaning. -/
inductive Refusal where
  /-- An instruction without a meaning. No arm of `exec` answers with it. SAFE. -/
  | notModelled (mnemonic : String)
  /-- The parameters break 00_scope.md R5: "an instance with an illegal set does not exist". Raised by `step`. SAFE. -/
  | illegalParams
  /-- A transaction that is not 64 bits wide: "outside the block, and a model refuses it" (20_memory.md R56). Raised by
  `step`. SAFE. -/
  | narrowTransaction (bits : Nat)
  deriving DecidableEq, Repr

/-- STATUS at reset: 0 (70_reset_and_hazards.md R163). -/
def Status.zero : Status where
  busy := false
  winReady := false
  sineReady := false
  norm := ⟨false, false⟩
  err := false
  errMulti := false
  berr := false
  errcode := .none

/-- A voice register at reset: every field +0.0 (R163). -/
def Voice.zero : Voice := ⟨0, 0, 0, 0⟩

/-- The state of an instance with parameters `p` right after reset (R163), with no input queued. -/
def State.resetOf (p : Params) : State where
  params := p
  cmd := 0
  pending := 0
  status := Status.zero
  nvoices := 1
  inLen := ⟨0, 0⟩
  sr := ⟨0x40E7700000000000#64, 0x40E7700000000000#64⟩
  s := 0
  outL := 0
  outR := 0
  normMax := ⟨0, 0⟩
  peakCount := 0
  intT := 0
  intLow := 0
  intHigh := 0
  intUw := 0
  intLw := 0
  voices := List.replicate p.nmax Voice.zero
  mem := []
  inReset := false
  inputs := []
  replies := []
  draws := 0

/-- The default instance right after reset. -/
def State.reset : State := State.resetOf Params.default

end Sys2Proof.Machine
end

