-- ==== Sys2Proof/Machine/Cells.lean ====
section
/-! DEFINITION. The memory cells: reading and writing bytes and elements (10_state.md R51, 20_memory.md R58, R59). -/

namespace Sys2Proof.Machine

/-! ## Memory cells (10_state.md R51, 20_memory.md R58) -/

/-- The canonical form: addresses strictly rising. An unlisted address has no value, so no entry can equal it. -/
abbrev Mem.wf (m : Mem) : Prop := m.Pairwise (fun c d => c.1 < d.1)

/-- The byte at an address, `none` if nothing has written it. -/
def Mem.get (m : Mem) (a : Nat) : Option Byte := (m.find? (fun c => c.1 == a)).map (fun c => c.2)

/-- The cells of the bytes `bs` at the addresses from `a` on. -/
def cellsFrom : Nat → List Byte → List Host.Cell
  | _, [] => []
  | a, b :: bs => (a, b) :: cellsFrom (a + 1) bs

/-- Writes the bytes `bs` at the addresses from `a` on. -/
def Mem.put (m : Mem) (a : Nat) (bs : List Byte) : Mem :=
  let top := a + bs.length
  m.filter (fun c => decide (c.1 < a)) ++ cellsFrom a bs ++ m.filter (fun c => decide (top ≤ c.1))

/-- All the values of a list of optional values, `none` if one is missing. -/
def allSome {α : Type} : List (Option α) → Option (List α)
  | [] => some []
  | none :: _ => none
  | some x :: xs => (allSome xs).map (x :: ·)

/-- The `n` bytes from `a` on, `none` if one is unwritten. -/
def Mem.bytes (m : Mem) (a n : Nat) : Option (List Byte) := allSome ((List.range n).map (fun k => m.get (a + k)))

/-- The bytes of `n` elements of `width` bytes each, the first at `a` and each `stride` after the one before, `none` if a byte
is unwritten. -/
def Mem.elems (m : Mem) (a stride width n : Nat) : Option (List (List Byte)) :=
  allSome ((List.range n).map (fun i => m.bytes (a + stride * i) width))

/-- The low `n` bytes of a number, least significant first (R58). -/
def bytesOf : Nat → Nat → List Byte
  | 0, _ => []
  | n + 1, v => BitVec.ofNat 8 v :: bytesOf n (v / 256)

/-- The number of a list of bytes, least significant first (R58). -/
def numberOf : List Byte → Nat
  | [] => 0
  | b :: bs => b.toNat + 256 * numberOf bs

/-- The 64-bit element at an address, `none` if it is unwritten. -/
def Mem.word (m : Mem) (a : Nat) : Option Word := (m.bytes a 8).map (fun bs => BitVec.ofNat 64 (numberOf bs))

/-- The 32-bit element at an address, `none` if it is unwritten (an INBUF sample, R59). -/
def Mem.half (m : Mem) (a : Nat) : Option (BitVec 32) := (m.bytes a 4).map (fun bs => BitVec.ofNat 32 (numberOf bs))

/-- Writes consecutive 64-bit elements from `a` on. -/
def Mem.putWords (m : Mem) (a : Nat) (ws : List Word) : Mem := m.put a (ws.flatMap (fun w => bytesOf 8 w.toNat))

/-- Writes a 32-bit element. -/
def Mem.putHalf (m : Mem) (a : Nat) (v : BitVec 32) : Mem := m.put a (bytesOf 4 v.toNat)

/-! ## Reading many elements in one pass

`Mem.elems` walks the cells once for each byte. What Lean runs in its place is one pass over cells in canonical order; the
two are proved equal for every list of cells, so nothing else knows of it. -/

/-- The first `n` pieces of `width` bytes. -/
def pieces (width : Nat) : Nat → List Byte → List (List Byte)
  | 0, _ => []
  | n + 1, bs => bs.take width :: pieces width n (bs.drop width)

/-- Whether an address belongs to one of the elements that `Mem.elems` reads. -/
def inElems (a stride width n x : Nat) : Bool :=
  decide (a ≤ x) && decide (x < a + stride * n) && decide ((x - a) % stride < width)

/-- Whether the addresses of the cells rise, looking at neighbours only. -/
def risingCells : Mem → Bool
  | [] => true
  | [_] => true
  | c :: d :: m => decide (c.1 < d.1) && risingCells (d :: m)

/-- `Mem.elems` in one pass where the cells are in canonical order. -/
def Mem.elemsOnePass (m : Mem) (a stride width n : Nat) : Option (List (List Byte)) :=
  if risingCells m && decide (width ≤ stride) then
    let cs := m.filter (fun c => inElems a stride width n c.1)
    if cs.length = width * n then some (pieces width n (cs.map (fun c => c.2))) else none
  else allSome ((List.range n).map (fun i => m.bytes (a + stride * i) width))

/-- The addresses that `Mem.elems` reads, in order. -/
def elemAddrs (a stride width : Nat) (is : List Nat) : List Nat :=
  is.flatMap (fun i => (List.range width).map (fun k => a + stride * i + k))

theorem wf_of_risingCells : ∀ (m : Mem), risingCells m = true → Mem.wf m
  | [], _ => List.Pairwise.nil
  | [_], _ => List.pairwise_singleton _ _
  | c :: d :: m, h => by
    rw [risingCells, Bool.and_eq_true, decide_eq_true_eq] at h
    have hd := wf_of_risingCells (d :: m) h.2
    refine List.pairwise_cons.2 ⟨fun e he => ?_, hd⟩
    rcases List.mem_cons.1 he with rfl | he
    · exact h.1
    · exact Nat.lt_trans h.1 ((List.pairwise_cons.1 hd).1 e he)

theorem allSome_eq_some {α : Type} {os : List (Option α)} {xs : List α} :
    allSome os = some xs ↔ os = xs.map some := by
  induction os generalizing xs with
  | nil => cases xs <;> simp [allSome]
  | cons o os ih =>
    cases o with
    | none => cases xs <;> simp [allSome]
    | some x =>
      cases xs with
      | nil => simp [allSome]
      | cons y ys =>
        simp only [allSome, Option.map_eq_some_iff, List.map_cons, List.cons.injEq, Option.some.injEq, ih]
        constructor
        · rintro ⟨zs, h, rfl, rfl⟩
          exact ⟨rfl, h⟩
        · rintro ⟨rfl, h⟩
          exact ⟨ys, h, rfl, rfl⟩

theorem Mem.get_of_mem {m : Mem} (h : Mem.wf m) {x : Nat} {v : Byte} (hx : (x, v) ∈ m) : m.get x = some v := by
  induction m with
  | nil => cases hx
  | cons c m ih =>
    obtain ⟨hc, hm⟩ := List.pairwise_cons.1 h
    rcases List.mem_cons.1 hx with rfl | hx'
    · simp [Mem.get]
    · have hlt : c.1 < x := hc _ hx'
      have := ih hm hx'
      simp only [Mem.get] at this ⊢
      rw [List.find?_cons_of_neg (by simp; omega)]
      exact this

theorem Mem.mem_of_get {m : Mem} {x : Nat} {v : Byte} (h : m.get x = some v) : (x, v) ∈ m := by
  simp only [Mem.get, Option.map_eq_some_iff] at h
  obtain ⟨c, hc, rfl⟩ := h
  have h1 := List.find?_some hc
  have h2 := List.mem_of_find?_eq_some hc
  simp only [beq_iff_eq] at h1
  subst h1
  exact h2

theorem elems_of_bytes {m : Mem} {a stride width : Nat} :
    ∀ (is : List Nat) (bs : List Byte), (elemAddrs a stride width is).map m.get = bs.map some →
      allSome (is.map (fun i => m.bytes (a + stride * i) width)) = some (pieces width is.length bs) := by
  intro is
  induction is with
  | nil => intro bs _; rfl
  | cons i is ih =>
    intro bs h
    have hl : (elemAddrs a stride width (i :: is)).map m.get
        = ((List.range width).map (fun k => m.get (a + stride * i + k))) ++ (elemAddrs a stride width is).map m.get := by
      simp [elemAddrs]
    rw [hl] at h
    have h1 : (List.range width).map (fun k => m.get (a + stride * i + k)) = (bs.take width).map some := by
      have := congrArg (List.take width) h
      rwa [List.take_left' (by simp), ← List.map_take] at this
    have h2 : (elemAddrs a stride width is).map m.get = (bs.drop width).map some := by
      have := congrArg (List.drop width) h
      rwa [List.drop_left' (by simp), ← List.map_drop] at this
    have hb : m.bytes (a + stride * i) width = some (bs.take width) := allSome_eq_some.2 h1
    simp only [List.map_cons, hb, allSome, ih _ h2, List.length_cons, pieces, Option.map_some]

theorem mem_elemAddrs {a stride width n x : Nat} (hw : width ≤ stride) :
    x ∈ elemAddrs a stride width (List.range n) ↔ inElems a stride width n x = true := by
  simp only [elemAddrs, List.mem_flatMap, List.mem_range, List.mem_map, inElems, Bool.and_eq_true, decide_eq_true_eq]
  constructor
  · rintro ⟨i, hi, k, hk, rfl⟩
    have h1 : stride * i + stride ≤ stride * n := by
      have := Nat.mul_le_mul_left stride (Nat.succ_le_of_lt hi)
      rwa [Nat.succ_eq_add_one, Nat.mul_add, Nat.mul_one] at this
    have h2 : a + stride * i + k - a = k + stride * i := by omega
    refine ⟨⟨by omega, by omega⟩, ?_⟩
    rw [h2, Nat.add_mul_mod_self_left, Nat.mod_eq_of_lt (by omega)]
    exact hk
  · rintro ⟨⟨h1, h2⟩, h3⟩
    refine ⟨(x - a) / stride, ?_, (x - a) % stride, h3, ?_⟩
    · exact Nat.div_lt_of_lt_mul (by omega)
    · have := Nat.div_add_mod (x - a) stride
      omega

theorem elemAddrs_sorted {a stride width : Nat} (hw : width ≤ stride) (start n : Nat) :
    (elemAddrs a stride width (List.range' start n)).Pairwise (· < ·) := by
  induction n generalizing start with
  | zero => simp [elemAddrs]
  | succ n ih =>
    simp only [elemAddrs, List.range'_succ, List.flatMap_cons]
    rw [List.pairwise_append]
    refine ⟨?_, ih (start + 1), ?_⟩
    · rw [List.pairwise_map]
      exact (List.pairwise_lt_range).imp (fun h => by omega)
    · intro x hx y hy
      simp only [List.mem_map, List.mem_range, List.mem_flatMap, List.mem_range'_1] at hx hy
      obtain ⟨k, hk, rfl⟩ := hx
      obtain ⟨i, ⟨hi, _⟩, l, _, rfl⟩ := hy
      have := Nat.mul_le_mul_left stride hi
      rw [Nat.mul_add, Nat.mul_one] at this
      omega

theorem elemAddrs_length {a stride width n : Nat} :
    (elemAddrs a stride width (List.range n)).length = width * n := by
  simp [elemAddrs, List.length_flatMap, Nat.mul_comm]

/-- The one pass reads what `Mem.elems` reads. -/
@[csimp]
theorem Mem.elems_eq_elemsOnePass : @Mem.elems = @Mem.elemsOnePass := by
  funext m a stride width n
  unfold Mem.elemsOnePass
  split
  · rename_i hcond
    rw [Bool.and_eq_true, decide_eq_true_eq] at hcond
    obtain ⟨hrise, hw⟩ := hcond
    have hwf := wf_of_risingCells m hrise
    set cs := m.filter (fun c => inElems a stride width n c.1) with hcs
    set as := elemAddrs a stride width (List.range n) with has
    have hsorted : (cs.map (fun c => c.1)).Pairwise (· < ·) := by
      rw [List.pairwise_map]
      exact hwf.filter _
    have hasorted : as.Pairwise (· < ·) := by
      rw [has, List.range_eq_range']
      exact elemAddrs_sorted hw 0 n
    have hsub : cs.map (fun c => c.1) ⊆ as := by
      intro x hx
      obtain ⟨c, hc, rfl⟩ := List.mem_map.1 hx
      exact (mem_elemAddrs hw).2 (List.mem_filter.1 hc).2
    have hlen : as.length = width * n := elemAddrs_length
    have hsp : (cs.map (fun c => c.1)).Subperm as := List.Nodup.subperm (hsorted.imp (fun h => Nat.ne_of_lt h)) hsub
    show _ = if cs.length = width * n then _ else _
    split
    · rename_i hl
      have hperm : (cs.map (fun c => c.1)).Perm as := hsp.perm_of_length_le (by simp [hlen, hl])
      have heq : cs.map (fun c => c.1) = as := hperm.eq_of_pairwise
        (le := (· < ·)) (fun x y _ _ h1 h2 => absurd h1 (Nat.lt_asymm h2)) hsorted hasorted
      have hget : as.map m.get = (cs.map (fun c => c.2)).map some := by
        rw [← heq, List.map_map, List.map_map]
        apply List.map_congr_left
        intro c hc
        exact Mem.get_of_mem hwf (List.mem_filter.1 hc).1
      have := elems_of_bytes (m := m) (a := a) (stride := stride) (width := width) (List.range n) _ hget
      rw [List.length_range] at this
      exact this
    · rename_i hl
      by_contra hne
      obtain ⟨xs, hxs⟩ := Option.ne_none_iff_exists'.1 hne
      apply hl
      have hall := allSome_eq_some.1 hxs
      have hcover : as ⊆ cs.map (fun c => c.1) := by
        intro x hx
        have hin := (mem_elemAddrs hw).1 hx
        simp only [has, elemAddrs, List.mem_flatMap, List.mem_map, List.mem_range] at hx
        obtain ⟨i, hi, k, hk, rfl⟩ := hx
        have hb : m.bytes (a + stride * i) width ∈ xs.map some := by
          rw [← hall]
          exact List.mem_map.2 ⟨i, List.mem_range.2 hi, rfl⟩
        obtain ⟨bs, _, hbs⟩ := List.mem_map.1 hb
        have hg := allSome_eq_some.1 hbs.symm
        have hk' : m.get (a + stride * i + k) ∈ bs.map some := by
          rw [← hg]
          exact List.mem_map.2 ⟨k, List.mem_range.2 hk, rfl⟩
        obtain ⟨v, _, hv⟩ := List.mem_map.1 hk'
        exact List.mem_map.2 ⟨_, List.mem_filter.2 ⟨Mem.mem_of_get hv.symm, hin⟩, rfl⟩
      have h1 := (List.Nodup.subperm (hasorted.imp (fun h => Nat.ne_of_lt h)) hcover).length_le
      have h2 := hsp.length_le
      simp only [List.length_map] at h1 h2
      omega
  · rfl

end Sys2Proof.Machine
end

