-- ==== Sys2Proof/Machine/Flags.lean ====
section
/-! DEFINITION. STATUS (10_state.md R27): its word, and every change a rule makes to it. -/

namespace Sys2Proof.Machine

/-- The 8-bit code of ERRCODE (60_exceptions.md R149). -/
def ErrCode.code : ErrCode → Nat
  | .none => 0x00
  | .illegalOpcode => 0x01
  | .reservedField => 0x02
  | .winNotReady => 0x03
  | .sineNotReady => 0x04
  | .frameRange => 0x05
  | .empty => 0x06
  | .zeroMax => 0x07
  | .nonfinite => 0x08

/-- A flag as the value of bit `i` of a word. -/
def bitValue (b : Bool) (i : Nat) : Nat := if b then 2 ^ i else 0

/-- The word a read of STATUS returns (R27); bits 63:16 read as 0. -/
def Status.toWord (st : Status) : Word :=
  BitVec.ofNat 64 (bitValue st.busy 0 + bitValue st.winReady 1 + bitValue st.sineReady 2 + bitValue st.norm.a 3
    + bitValue st.norm.b 4 + bitValue st.err 5 + bitValue st.errMulti 6 + bitValue st.berr 7 + st.errcode.code * 2 ^ 8)

/-- BUSY <- 1 (R26). -/
def Status.setBusy (st : Status) : Status := { st with busy := true }

/-- BUSY <- 0 (40_control.md R86). -/
def Status.clearBusy (st : Status) : Status := { st with busy := false }

/-- WIN_READY <- 1 (42_window.md R98). -/
def Status.setWinReady (st : Status) : Status := { st with winReady := true }

/-- SINE_READY <- 1 (46_oscillator.md R137). -/
def Status.setSineReady (st : Status) : Status := { st with sineReady := true }

/-- NORM_T <- v (R27). -/
def Status.setNorm (st : Status) (t : Tab) (v : Bool) : Status := { st with norm := st.norm.set t v }

/-- NORM_A <- 0 and NORM_B <- 0 (R29). -/
def Status.clearNorms (st : Status) : Status := { st with norm := ⟨false, false⟩ }

/-- BERR <- 1 (20_memory.md R68). -/
def Status.setBerr (st : Status) : Status := { st with berr := true }

/-- The recording of a command error with code `c` (60_exceptions.md R153): the first code is kept, a later error only sets
ERR_MULTI, and BUSY <- 0. -/
def Status.recordError (st : Status) (c : ErrCode) : Status :=
  if st.err then { st with errMulti := true, busy := false } else { st with err := true, errcode := c, busy := false }

/-- CLEAR bit 0 (R28): ERR, ERR_MULTI and ERRCODE <- 0. -/
def Status.clearErr (st : Status) : Status := { st with err := false, errMulti := false, errcode := .none }

/-- CLEAR bit 1 (R28): BERR <- 0. -/
def Status.clearBerr (st : Status) : Status := { st with berr := false }

/-- What a write of `w` to CLEAR does to STATUS (R28); bits 63:2 are ignored. -/
def Status.clear (st : Status) (w : Word) : Status :=
  let st1 := if w.getLsbD 0 then st.clearErr else st
  if w.getLsbD 1 then st1.clearBerr else st1

end Sys2Proof.Machine
end

