-- ==== Sys2Proof/Machine/Float.lean ====
section
/-! DEFINITION. IEEE 754 binary64 arithmetic with roundTiesToEven (00_scope.md R9-R14): operands are taken to exact integers,
the result is computed exactly, and one rounding narrows it. -/

namespace Sys2Proof.Machine

/-- The magnitude pattern (bits 62:0) of an infinity. -/
def infMag : Nat := 0x7FF0000000000000

/-- A binary64 value inside a command. Every NaN is one value here: which NaN pattern a result has is unspecified (R12) and
is drawn where a result is written to the state (`F64.toWord`). `num neg mag` is the value with sign `neg` whose pattern
has bits 62:0 equal to `mag`, at most `infMag`, which is the infinity. -/
inductive F64 where
  | nan
  | num (neg : Bool) (mag : Nat)
  deriving DecidableEq, Repr

/-- The value of a binary64 pattern (R9). -/
def F64.ofWord (w : Word) : F64 :=
  let m := w.toNat % 2 ^ 63
  if infMag < m then .nan else .num w.msb m

/-- The NaN pattern made of the bits `w`: exponent all ones, fraction nonzero, sign and payload those of `w`. Every NaN
pattern is `nanPattern` of itself. -/
def nanPattern (w : Word) : Word :=
  let v := w ||| 0x7FF0000000000000#64
  if v &&& 0x000FFFFFFFFFFFFF#64 = 0#64 then v ||| 1#64 else v

/-- The pattern written for a value, `nanBits` supplying the bits of a NaN. -/
def F64.toWord (nanBits : Word) : F64 → Word
  | .nan => nanPattern nanBits
  | .num neg mag => BitVec.ofNat 64 ((if neg then 2 ^ 63 else 0) + mag)

/-- +0.0. -/
def F64.zero : F64 := .num false 0

/-- 1.0. -/
def F64.one : F64 := .num false 0x3FF0000000000000

/-- 2.0. -/
def F64.two : F64 := .num false 0x4000000000000000

/-- 0.5. -/
def F64.half : F64 := .num false 0x3FE0000000000000

/-- Whether a value is neither NaN nor an infinity. -/
def F64.isFinite : F64 → Bool
  | .nan => false
  | .num _ m => decide (m < infMag)

/-- The magnitude of a finite value in units of 2^-1074, the spacing of the subnormals: every finite binary64 magnitude is a
whole number of them. -/
def magUnits (m : Nat) : Nat :=
  let e := m / 2 ^ 52
  let f := m % 2 ^ 52
  if e = 0 then f else (2 ^ 52 + f) * 2 ^ (e - 1)

/-- The exact value of a finite value, in units of 2^-1074 (0 for a NaN, which no caller asks for). -/
def F64.units : F64 → Int
  | .nan => 0
  | .num neg m => if neg then -(magUnits m : Int) else (magUnits m : Int)

/-- `n / d` rounded to the nearest integer, ties to even. -/
def divTiesEven (n d : Nat) : Nat :=
  let q := n / d
  let r := n % d
  if 2 * r < d then q else if d < 2 * r then q + 1 else q + q % 2

/-- The magnitude pattern of the positive rational `num / den`, in units of 2^-1074, under roundTiesToEven: the quotient is
rounded to 53 significant bits (fewer for a subnormal), and what exceeds the largest finite value is the infinity. A
significand of 2^53 carries into the exponent by the addition. -/
def roundMag (num den : Nat) : Nat :=
  let e := (num / den).log2 - 52
  let m := divTiesEven num (den * 2 ^ e)
  min (e * 2 ^ 52 + m) infMag

/-- An exact signed number of units rounded to binary64; an exact zero takes the sign `zeroNeg`. -/
def F64.ofUnits (z : Int) (zeroNeg : Bool) : F64 :=
  if z = 0 then .num zeroNeg 0 else .num (decide (z < 0)) (roundMag z.natAbs 1)

/-- `f64(k)` (R13): exact for every integer the block converts. -/
def F64.ofNat (k : Nat) : F64 := .num false (roundMag (k * 2 ^ 1074) 1)

/-- `neg64`: the sign flipped (R10). -/
def F64.neg : F64 → F64
  | .nan => .nan
  | .num neg m => .num (!neg) m

/-- `add64` (R10). An exact zero sum is +0.0 unless both operands are -0.0; opposite infinities give a NaN. -/
def F64.add : F64 → F64 → F64
  | .nan, _ => .nan
  | .num _ _, .nan => .nan
  | .num na ma, .num nb mb =>
    if ma = infMag then (if mb = infMag ∧ na ≠ nb then .nan else .num na infMag)
    else if mb = infMag then .num nb infMag
    else F64.ofUnits ((F64.num na ma).units + (F64.num nb mb).units) (na && nb)

/-- `sub64` (R10). -/
def F64.sub (a b : F64) : F64 := F64.add a (F64.neg b)

/-- `mul64` (R10). The sign is the exclusive or; an infinity times a zero gives a NaN. -/
def F64.mul : F64 → F64 → F64
  | .nan, _ => .nan
  | .num _ _, .nan => .nan
  | .num na ma, .num nb mb =>
    if ma = infMag then (if mb = 0 then .nan else .num (na ^^ nb) infMag)
    else if mb = infMag then (if ma = 0 then .nan else .num (na ^^ nb) infMag)
    else .num (na ^^ nb) (roundMag (magUnits ma * magUnits mb) (2 ^ 1074))

/-- `div64` (R10). 0/0 and infinity/infinity give a NaN; a nonzero value over zero gives an infinity. -/
def F64.div : F64 → F64 → F64
  | .nan, _ => .nan
  | .num _ _, .nan => .nan
  | .num na ma, .num nb mb =>
    if ma = infMag then (if mb = infMag then .nan else .num (na ^^ nb) infMag)
    else if mb = infMag then .num (na ^^ nb) 0
    else if mb = 0 then (if ma = 0 then .nan else .num (na ^^ nb) infMag)
    else .num (na ^^ nb) (roundMag (magUnits ma * 2 ^ 1074) (magUnits mb))

/-- The largest `r + (a number below 2^bits)` whose square is at most `n`, found bit by bit from the top. -/
def isqrtFrom (n : Nat) : Nat → Nat → Nat
  | 0, r => r
  | bits + 1, r =>
    if (r + 2 ^ bits) * (r + 2 ^ bits) ≤ n then isqrtFrom n bits (r + 2 ^ bits) else isqrtFrom n bits r

/-- The integer square root of a number below 2^112. -/
def isqrt112 (n : Nat) : Nat := isqrtFrom n 56 0

/-- The magnitude pattern of the square root of a magnitude of `u > 0` units, under roundTiesToEven. The root of
`u * 2^1074` units squared is found to at least 55 significant bits `r`; a half bit below them stands for an inexact rest, so
that one rounding gives the nearest value. -/
def sqrtMag (u : Nat) : Nat :=
  let n := u * 2 ^ 1074
  let j := (n.log2 - 110) / 2
  let r := isqrt112 (n / 2 ^ (2 * j))
  let rest := if (r * 2 ^ j) * (r * 2 ^ j) = n then 0 else 1
  roundMag ((2 * r + rest) * 2 ^ j) 2

/-- `sqrt64` (R10): a zero keeps its sign, a negative operand gives a NaN. -/
def F64.sqrt : F64 → F64
  | .nan => .nan
  | .num neg m =>
    if m = 0 then .num neg 0
    else if neg then .nan
    else if m = infMag then .num false infMag
    else .num false (sqrtMag (magUnits m))

/-- The order key of a non-NaN value: patterns of one sign are ordered as their magnitudes, and -0.0 equals +0.0. -/
def F64.key (neg : Bool) (m : Nat) : Int := if neg then -(m : Int) else (m : Int)

/-- `a < b`, the quiet comparison (R11). -/
def F64.lt : F64 → F64 → Bool
  | .num na ma, .num nb mb => decide (F64.key na ma < F64.key nb mb)
  | _, _ => false

/-- `a <= b`, the quiet comparison (R11). -/
def F64.le : F64 → F64 → Bool
  | .num na ma, .num nb mb => decide (F64.key na ma ≤ F64.key nb mb)
  | _, _ => false

/-- `a == b`, the quiet comparison (R11). -/
def F64.eq : F64 → F64 → Bool
  | .num na ma, .num nb mb => decide (F64.key na ma = F64.key nb mb)
  | _, _ => false

/-- `floor(x)` for a finite `x`, an exact integer (R13). -/
def F64.floor (x : F64) : Int := x.units / (2 ^ 1074 : Nat)

/-- `f64(k)` for an integer of either sign. -/
def F64.ofInt (k : Int) : F64 := F64.ofUnits (k * (2 ^ 1074 : Nat)) false

/-- `f32to64(b)` (R13): exact for every non-NaN; a binary32 unit of 2^-149 is 2^925 units of 2^-1074. -/
def F64.ofBinary32 (b : BitVec 32) : F64 :=
  let neg := b.msb
  let e := (b.extractLsb' 23 8).toNat
  let f := (b.extractLsb' 0 23).toNat
  if e = 255 then (if f = 0 then .num neg infMag else .nan)
  else if e = 0 then .num neg (roundMag (f * 2 ^ 925) 1)
  else .num neg (roundMag ((2 ^ 23 + f) * 2 ^ (e - 1) * 2 ^ 925) 1)

/-- PI64 (R14). -/
def pi64 : F64 := .num false 0x400921FB54442D18

/-- TWO_PI64 = 2.0 * PI64, exact (R14). -/
def twoPi64 : F64 := .num false 0x401921FB54442D18

/-- NEG_TWO_PI64 (R14). -/
def negTwoPi64 : F64 := F64.neg twoPi64

/-- A complex value (R15). -/
structure Cx where
  re : F64
  im : F64
  deriving DecidableEq, Repr

/-- `cadd` (R15). -/
def Cx.add (x y : Cx) : Cx := ⟨x.re.add y.re, x.im.add y.im⟩

/-- `csub` (R15). -/
def Cx.sub (x y : Cx) : Cx := ⟨x.re.sub y.re, x.im.sub y.im⟩

/-- `cmul` (R15): four products, each rounded before the sums. -/
def Cx.mul (x y : Cx) : Cx :=
  ⟨(x.re.mul y.re).sub (x.im.mul y.im), (x.re.mul y.im).add (x.im.mul y.re)⟩

/-- `cscale` by a real (R15). -/
def Cx.scale (x : Cx) (w : F64) : Cx := ⟨x.re.mul w, x.im.mul w⟩

end Sys2Proof.Machine
end

