-- ==== Sys2Proof/Machine/Ops.lean ====
section
/-! DEFINITION. The shared operations: the derived registers, the legality of an instance, drawing free
values, and the two kinds of error with their clearing (60_exceptions.md R144, R153, R154). -/

namespace Sys2Proof

/-! ## The instance (00_scope.md R5, R6) -/

/-- `ceil(n / d)` for d > 0 (00_scope.md R8). -/
def ceilDiv (n d : Nat) : Nat := (n + d - 1) / d

/-- P_FMAX (R6). -/
def Params.fmax (p : Params) : Nat := ceilDiv p.inmax p.hop

/-- Whether a number is a power of two. -/
def isPowerOfTwo (n : Nat) : Bool := decide (2 ^ n.log2 = n)

/-- The legal parameter sets (R5). -/
def Params.legal (p : Params) : Bool :=
  isPowerOfTwo p.nfft && decide (2 ≤ p.nfft ∧ p.nfft ≤ 65536)
    && decide (1 ≤ p.win ∧ p.win < p.nfft)
    && decide (1 ≤ p.hop ∧ p.hop ≤ p.nfft)
    && isPowerOfTwo p.sine && decide (2 ≤ p.sine ∧ p.sine ≤ 65536)
    && (Machine.F64.ofWord p.engineSr).isFinite && Machine.F64.le Machine.F64.one (Machine.F64.ofWord p.engineSr)
    && decide (1 ≤ p.nmax ∧ p.nmax ≤ 128)
    && decide (1 ≤ p.inmax ∧ p.inmax ≤ 2 ^ 23)
    && decide (p.fmax * p.nmax ≤ 2 ^ 20)

end Sys2Proof

namespace Sys2Proof.Machine

/-- What a command or a step answers. -/
abbrev Out := Host.Outcome State Fault Refusal

/-! ## Derived registers (10_state.md R32-R34) -/

/-- FRAMES_T = ceil(IN_LEN_T / P_HOP) (R32). -/
def State.frames (s : State) (t : Tab) : Nat := ceilDiv (s.inLen.get t).toNat s.params.hop

/-- FRAME_LIMIT = min(FRAMES_A, FRAMES_B) (R33). -/
def State.frameLimit (s : State) : Nat := min (s.frames .a) (s.frames .b)

/-- S_LIMIT = FRAME_LIMIT * P_HOP (R34). -/
def State.sLimit (s : State) : Nat := s.frameLimit * s.params.hop

/-! ## Free values -/

/-- The bits of the `k`-th drawn NaN (00_scope.md R12) or unwritten word (10_state.md R51) are taken at index `k`; every
write of computed values advances the counter past the indices it used. -/
def State.drawn (s : State) (n : Nat) : State := { s with draws := s.draws + n }

/-- The patterns written for the values `vs`, a NaN among them taking its own draw from index `k` on (R12). -/
def sealAll : Nat → List F64 → List Word
  | _, [] => []
  | k, v :: vs => v.toWord (Config.freeNan k) :: sealAll (k + 1) vs

/-- The pattern written for one value. -/
def State.seal1 (s : State) (v : F64) : Word := v.toWord (Config.freeNan s.draws)

/-- Writes consecutive binary64 elements from `a` on. -/
def State.putF64s (s : State) (a : Nat) (vs : List F64) : State :=
  { s with mem := s.mem.putWords a (sealAll s.draws vs), draws := s.draws + vs.length }

/-! ## Completion, errors and their clearing -/

/-- Completion of a successful command: BUSY <- 0 (40_control.md R86). -/
def State.complete (s : State) : State := { s with status := s.status.clearBusy }

/-- `raise CmdError(c)`: the command ends with no effect but the recording of R153 (00_scope.md R17, R146). There is no
trap entry (R148). -/
def State.cmdError (s : State) (c : ErrCode) : State := { s with status := s.status.recordError c }

/-- The code of a decoding error (30_encoding.md R79). -/
def decodeErrCode : DecodeError → ErrCode
  | .illegalOpcode => .illegalOpcode
  | .reservedField => .reservedField

/-- Records the response to a transaction (20_memory.md R54). -/
def State.reply (s : State) (r : Reply) : State := { s with replies := r :: s.replies }

/-- `raise BusError(cause)`: the transaction is rejected with the response `r`, and BERR <- 1 is its only effect
(20_memory.md R68). -/
def State.reject (s : State) (r : Reply) : State := { s with status := s.status.setBerr }.reply r

/-- The response to a rejected read: BUSERR and data 0 (R54, R68). -/
def readRejected (c : BusCause) : Reply := .readErr c 0

/-- A read is rejected (R68). -/
def State.readError (s : State) (c : BusCause) : State := s.reject (readRejected c)

/-- A write is rejected (R68). -/
def State.writeError (s : State) (c : BusCause) : State := s.reject (.writeErr c)

/-- A write of `w` to CLEAR, the block's return from an error (10_state.md R28, 60_exceptions.md R154). -/
def State.clearErrors (s : State) (w : Word) : State := { s with status := s.status.clear w }

/-- Reset asserted (70_reset_and_hazards.md R162): the command in progress is abandoned and every state of R163 takes its
reset value; the host's side of the model stays. -/
def State.assertReset (s : State) : State :=
  { State.resetOf s.params with inReset := true, inputs := s.inputs, replies := s.replies, draws := s.draws }

/-- Reset released (R162). -/
def State.releaseReset (s : State) : State := { s with inReset := false }

end Sys2Proof.Machine
end

