-- ==== Sys2Proof/Machine/Operands.lean ====
section
/-! DEFINITION. The operand forms: what `T` and `f` name (00_scope.md R17, 30_encoding.md R77), where each memory element
lies (20_memory.md R62, R64), and a command's reads and writes of elements (00_scope.md R17 MemRead, MemWrite). -/

namespace Sys2Proof.Machine

/-- `ATAB_T` (R17). -/
def atabSpace : Tab → Space
  | .a => .atabA
  | .b => .atabB

/-- `INBUF_T` (R17). -/
def inbufSpace : Tab → Space
  | .a => .inbufA
  | .b => .inbufB

/-! ## Element addresses (20_memory.md R64) -/

/-- FFTBUF element `i`. -/
def fftAddr (i : Nat) : Nat := 0x00100000 + 16 * i

/-- WINTAB element `i`. -/
def wintabAddr (i : Nat) : Nat := 0x00200000 + 8 * i

/-- SINETAB element `i`. -/
def sinetabAddr (i : Nat) : Nat := 0x00280000 + 8 * i

/-- ATAB_T entry `(f, n)`: FREQ there, AMP 8 above. -/
def atabAddr (p : Params) (t : Tab) (f n : Nat) : Nat := 0x01000000 * (1 + t.toNat) + 16 * (f * p.nmax + n)

/-- INBUF_T element `i`. -/
def inbufAddr (t : Tab) (i : Nat) : Nat := 0x04000000 * (1 + t.toNat) + 8 * i

/-! ## Reads of a command: an unwritten element is the model's fault (10_state.md R51) -/

/-- An element that must be written, else the fault naming its memory. -/
def require {α : Type} (sp : Space) : Option α → Except Fault α
  | some x => .ok x
  | none => .error (.unwritten sp)

/-- All the results of a list of reads, or the first fault. -/
def allOk {α : Type} : List (Except Fault α) → Except Fault (List α)
  | [] => .ok []
  | .error e :: _ => .error e
  | .ok x :: xs =>
    match allOk xs with
    | .error e => .error e
    | .ok ys => .ok (x :: ys)

/-- A binary64 element. -/
def State.readF64 (s : State) (sp : Space) (a : Nat) : Except Fault F64 :=
  require sp ((s.mem.word a).map F64.ofWord)

/-- The binary64 value of eight bytes. -/
def f64OfBytes (bs : List Byte) : F64 := F64.ofWord (BitVec.ofNat 64 (numberOf bs))

/-- A complex element of sixteen bytes: re, then im (10_state.md R46, 20_memory.md R62). -/
def cxOfBytes (bs : List Byte) : Cx := ⟨f64OfBytes (bs.take 8), f64OfBytes (bs.drop 8)⟩

/-- `MemRead(FFTBUF, 0)` .. `MemRead(FFTBUF, n-1)`. -/
def State.readFfts (s : State) (n : Nat) : Except Fault (List Cx) :=
  require .fftbuf ((s.mem.elems (fftAddr 0) 16 16 n).map (List.map cxOfBytes))

/-- `MemRead(WINTAB, 0)` .. `MemRead(WINTAB, P_WIN-1)`. -/
def State.readWintab (s : State) : Except Fault (List F64) :=
  require .wintab ((s.mem.elems (wintabAddr 0) 8 8 s.params.win).map (List.map f64OfBytes))

/-- `MemRead(SINETAB, i)`. -/
def State.readSine (s : State) (i : Nat) : Except Fault F64 := s.readF64 .sinetab (sinetabAddr i)

/-- FREQ of ATAB_T entry `(f, n)`. -/
def State.readFreq (s : State) (t : Tab) (f n : Nat) : Except Fault F64 :=
  s.readF64 (atabSpace t) (atabAddr s.params t f n)

/-- AMP of ATAB_T entry `(f, n)`. -/
def State.readAmp (s : State) (t : Tab) (f n : Nat) : Except Fault F64 :=
  s.readF64 (atabSpace t) (atabAddr s.params t f n + 8)

/-- `f32to64` of the samples `MemRead(INBUF_T, i)` .. `MemRead(INBUF_T, i + n - 1)`: each is the low four bytes of its word
(20_memory.md R59). -/
def State.readSamples (s : State) (t : Tab) (i n : Nat) : Except Fault (List F64) :=
  require (inbufSpace t)
    ((s.mem.elems (inbufAddr t i) 8 4 n).map (List.map (fun bs => F64.ofBinary32 (BitVec.ofNat 32 (numberOf bs)))))

/-! ## Writes of a command -/

/-- The parts of complex elements in the order of their addresses. -/
def flattenCx (xs : List Cx) : List F64 := xs.flatMap (fun x => [x.re, x.im])

/-- FFTBUF elements 0, 1, … <- `xs`. -/
def State.writeFfts (s : State) (xs : List Cx) : State := s.putF64s (fftAddr 0) (flattenCx xs)

/-- The N of a command: NVOICES (10_state.md R29). -/
def State.voiceCount (s : State) : Nat := s.nvoices.toNat

/-- Changes the first voices, one function for each, and leaves the rest (10_state.md R41: voices n >= NVOICES are never
written by a command). -/
def updateVoices : List (Voice → Voice) → List Voice → List Voice
  | f :: fs, v :: vs => f v :: updateVoices fs vs
  | _, vs => vs

end Sys2Proof.Machine
end

