-- ==== Sys2Proof/Machine/Bus.lean ====
section
/-! DEFINITION. The host's bus transactions (20_memory.md) on the registers (10_state.md section 2), the voices (section 3)
and the memories (section 4). -/

namespace Sys2Proof.Machine

/-- The registers of 10_state.md R20, in the order of their offsets. -/
inductive Reg where
  | id
  | param0
  | param1
  | param2
  | param3
  | engineSr
  | cmd
  | status
  | clear
  | nvoices
  | inLen (t : Tab)
  | sr (t : Tab)
  | frames (t : Tab)
  | frameLimit
  | sLimit
  | s
  | outL
  | outR
  | normMax (t : Tab)
  | peakCount
  | intT
  | intLow
  | intHigh
  | intUw
  | intLw
  deriving DecidableEq, Repr

/-- The register at a byte offset of the register window (R20); the other offsets are reserved (R40). -/
def regAt : Nat → Option Reg
  | 0x000 => some .id
  | 0x008 => some .param0
  | 0x010 => some .param1
  | 0x018 => some .param2
  | 0x020 => some .param3
  | 0x028 => some .engineSr
  | 0x030 => some .cmd
  | 0x038 => some .status
  | 0x040 => some .clear
  | 0x048 => some .nvoices
  | 0x050 => some (.inLen .a)
  | 0x058 => some (.inLen .b)
  | 0x060 => some (.sr .a)
  | 0x068 => some (.sr .b)
  | 0x070 => some (.frames .a)
  | 0x078 => some (.frames .b)
  | 0x080 => some .frameLimit
  | 0x088 => some .sLimit
  | 0x090 => some .s
  | 0x098 => some .outL
  | 0x0A0 => some .outR
  | 0x0A8 => some (.normMax .a)
  | 0x0B0 => some (.normMax .b)
  | 0x0B8 => some .peakCount
  | 0x0C0 => some .intT
  | 0x0C8 => some .intLow
  | 0x0D0 => some .intHigh
  | 0x0D8 => some .intUw
  | 0x0E0 => some .intLw
  | _ => none

/-- The fields of a voice register (R41). -/
inductive VoiceField where
  | freq
  | amp
  | phase
  | inc
  deriving DecidableEq, Repr

/-- The field at a position 0 .. 3 of a voice register (20_memory.md R64). -/
def voiceFieldAt : Nat → VoiceField
  | 0 => .freq
  | 1 => .amp
  | 2 => .phase
  | _ => .inc

/-- What an aligned offset names (R64). A memory element keeps its own offset, the address of its cells. -/
inductive Target where
  | reg (r : Reg)
  | voice (n : Nat) (field : VoiceField)
  | fft (addr : Nat)
  | wintab (addr : Nat)
  | sinetab (addr : Nat)
  | atab (t : Tab) (addr : Nat)
  | inbuf (t : Tab) (addr : Nat)
  deriving DecidableEq, Repr

/-- Address decoding (R62, R64), `none` where the offset is unmapped. -/
def decodeAddr (p : Params) (a : Nat) : Option Target :=
  if a ≤ 0x00000FFF then (regAt a).map .reg
  else if a ≤ 0x00001FFF then
    let n := (a - 0x1000) / 32
    if p.nmax ≤ n then none else some (.voice n (voiceFieldAt ((a - 0x1000) % 32 / 8)))
  else if 0x00100000 ≤ a ∧ a ≤ 0x001FFFFF then
    if p.nfft ≤ (a - 0x00100000) / 16 then none else some (.fft a)
  else if 0x00200000 ≤ a ∧ a ≤ 0x0027FFFF then
    if p.win ≤ (a - 0x00200000) / 8 then none else some (.wintab a)
  else if 0x00280000 ≤ a ∧ a ≤ 0x002FFFFF then
    if p.sine ≤ (a - 0x00280000) / 8 then none else some (.sinetab a)
  else if 0x01000000 ≤ a ∧ a ≤ 0x02FFFFFF then
    let t : Tab := if a < 0x02000000 then .a else .b
    let e := (a - 0x01000000 * (1 + t.toNat)) / 16
    if p.fmax ≤ e / p.nmax then none else some (.atab t a)
  else if 0x04000000 ≤ a ∧ a ≤ 0x0BFFFFFF then
    let t : Tab := if a < 0x08000000 then .a else .b
    if p.inmax ≤ (a - 0x04000000 * (1 + t.toNat)) / 8 then none else some (.inbuf t a)
  else none

/-- Two 32-bit counts in one word, `lo` in bits 31:0 (10_state.md R24). -/
def pairWord (hi lo : Nat) : Word := BitVec.ofNat 64 (hi * 2 ^ 32 + lo)

/-- What a read of a register returns (R20-R39). -/
def State.readReg (s : State) : Reg → Word
  | .id => 0x4953545000070001#64
  | .param0 => pairWord s.params.win s.params.nfft
  | .param1 => pairWord s.params.sine s.params.hop
  | .param2 => pairWord s.params.inmax s.params.nmax
  | .param3 => pairWord 0 s.params.fmax
  | .engineSr => s.params.engineSr
  | .cmd => s.cmd
  | .status => s.status.toWord
  | .clear => 0
  | .nvoices => s.nvoices
  | .inLen t => s.inLen.get t
  | .sr t => s.sr.get t
  | .frames t => BitVec.ofNat 64 (s.frames t)
  | .frameLimit => BitVec.ofNat 64 s.frameLimit
  | .sLimit => BitVec.ofNat 64 s.sLimit
  | .s => s.s
  | .outL => s.outL
  | .outR => s.outR
  | .normMax t => s.normMax.get t
  | .peakCount => s.peakCount
  | .intT => s.intT
  | .intLow => s.intLow
  | .intHigh => s.intHigh
  | .intUw => s.intUw
  | .intLw => s.intLw

/-- A field of a voice register. -/
def Voice.get (v : Voice) : VoiceField → Word
  | .freq => v.freq
  | .amp => v.amp
  | .phase => v.phase
  | .inc => v.inc

/-- A field of a voice register <- `w`. -/
def Voice.set (v : Voice) (w : Word) : VoiceField → Voice
  | .freq => { v with freq := w }
  | .amp => { v with amp := w }
  | .phase => { v with phase := w }
  | .inc => { v with inc := w }

/-- V[n].FIELD (00_scope.md R17). -/
def State.voiceField (s : State) (n : Nat) (f : VoiceField) : Word := (s.voices.getD n Voice.zero).get f

/-- The word a read of a memory element returns: a written element's value, else the next free word (10_state.md R51, U2,
U3). `draw` says what a free word becomes. -/
def State.readElement (s : State) (v : Option Word) (draw : Word → Word) : State :=
  match v with
  | some w => s.reply (.readOk w)
  | none => (s.drawn 1).reply (.readOk (draw (Config.freeWord s.draws)))

/-- The low 32 bits of a word, zero-extended (20_memory.md R59). -/
def low32 (w : Word) : Word := (w.setWidth 32).setWidth 64

/-- An accepted read (R67). -/
def State.readTarget (s : State) : Target → State
  | .reg r => s.reply (.readOk (s.readReg r))
  | .voice n f => s.reply (.readOk (s.voiceField n f))
  | .fft a => s.readElement (s.mem.word a) id
  | .wintab a => s.readElement (s.mem.word a) id
  | .sinetab a => s.readElement (s.mem.word a) id
  | .atab _ a => s.readElement (s.mem.word a) id
  | .inbuf _ a => s.readElement ((s.mem.half a).map (fun v => v.setWidth 64)) low32

/-- A legal sample rate (10_state.md R31): 1.0 <= v <= 2147483648.0. -/
def legalRate (w : Word) : Bool :=
  F64.le F64.one (F64.ofWord w) && F64.le (F64.ofWord w) (.num false 0x41E0000000000000)

/-- A legal phase (R43): sign 0 and value below 1.0. -/
def legalPhase (w : Word) : Bool := !w.msb && F64.lt (F64.ofWord w) F64.one

/-- Accepts a write: the new state, with the response OK. -/
def State.accept (s : State) : State := s.reply .writeOk

/-- A write to a register (R20, R21, R26-R31). -/
def State.writeReg (s : State) (w : Word) : Reg → State
  | .cmd => { s with cmd := w, pending := w, status := s.status.setBusy }.accept
  | .clear => (s.clearErrors w).accept
  | .nvoices =>
    if 1 ≤ w.toNat ∧ w.toNat ≤ s.params.nmax then { s with nvoices := w, status := s.status.clearNorms }.accept
    else s.writeError .illegalValue
  | .inLen t =>
    if w.toNat ≤ s.params.inmax then
      { s with inLen := s.inLen.set t w, status := s.status.setNorm t false, s := 0 }.accept
    else s.writeError .illegalValue
  | .sr t =>
    if legalRate w then { s with sr := s.sr.set t w, status := s.status.setNorm t false }.accept
    else s.writeError .illegalValue
  | .id => s.writeError .writeRo
  | .param0 => s.writeError .writeRo
  | .param1 => s.writeError .writeRo
  | .param2 => s.writeError .writeRo
  | .param3 => s.writeError .writeRo
  | .engineSr => s.writeError .writeRo
  | .status => s.writeError .writeRo
  | .frames _ => s.writeError .writeRo
  | .frameLimit => s.writeError .writeRo
  | .sLimit => s.writeError .writeRo
  | .s => s.writeError .writeRo
  | .outL => s.writeError .writeRo
  | .outR => s.writeError .writeRo
  | .normMax _ => s.writeError .writeRo
  | .peakCount => s.writeError .writeRo
  | .intT => s.writeError .writeRo
  | .intLow => s.writeError .writeRo
  | .intHigh => s.writeError .writeRo
  | .intUw => s.writeError .writeRo
  | .intLw => s.writeError .writeRo

/-- V[n].FIELD <- w (00_scope.md R17). -/
def State.setVoiceField (s : State) (n : Nat) (f : VoiceField) (w : Word) : State :=
  { s with voices := s.voices.modify n (fun v => v.set w f) }

/-- A write to an element (R65, R67). -/
def State.writeTarget (s : State) (w : Word) : Target → State
  | .reg r => s.writeReg w r
  | .voice n .freq => (s.setVoiceField n .freq w).accept
  | .voice n .amp => (s.setVoiceField n .amp w).accept
  | .voice n .phase => if legalPhase w then (s.setVoiceField n .phase w).accept else s.writeError .illegalValue
  | .voice _ .inc => s.writeError .writeRo
  | .fft a => { s with mem := s.mem.putWords a [w] }.accept
  | .wintab _ => s.writeError .writeRo
  | .sinetab _ => s.writeError .writeRo
  | .atab t a => { s with mem := s.mem.putWords a [w], status := s.status.setNorm t false }.accept
  | .inbuf _ a => { s with mem := s.mem.putHalf a (w.setWidth 32) }.accept

/-- The offset of STATUS, the one a read is accepted at while BUSY = 1 (R63). -/
def statusAddr : Nat := 0x038

/-- `Read(addr)` (R54), the bus error causes in the order of R68. -/
def State.busRead (s : State) (addr : BitVec 32) : State :=
  if s.inReset then s.reply (readRejected .inReset)
  else if addr.toNat % 8 ≠ 0 then s.readError .misaligned
  else if s.status.busy ∧ addr.toNat ≠ statusAddr then s.readError .busy
  else
    match decodeAddr s.params addr.toNat with
    | none => s.readError .unmapped
    | some g => s.readTarget g

/-- `Write(addr, data)` (R54), the bus error causes in the order of R68. -/
def State.busWrite (s : State) (addr : BitVec 32) (w : Word) : State :=
  if s.inReset then s.reply (.writeErr .inReset)
  else if addr.toNat % 8 ≠ 0 then s.writeError .misaligned
  else if s.status.busy then s.writeError .busy
  else
    match decodeAddr s.params addr.toNat with
    | none => s.writeError .unmapped
    | some g => s.writeTarget w g

/-- What an input does to the block. -/
def State.takeEvent (s : State) : HostEvent → Out
  | .read addr => .next (s.busRead addr)
  | .write addr data => .next (s.busWrite addr data)
  | .narrow bits _ => .refused (.narrowTransaction bits)
  | .assertReset => .next s.assertReset
  | .releaseReset => .next s.releaseReset

/-- Whether the oldest input arrives before the running command completes (log 4). -/
def State.inputOverlaps (s : State) : Bool :=
  match s.inputs with
  | [] => false
  | i :: _ => i.overlap

/-- Whether the sequencer moves: BUSY = 1 (40_control.md R85), reset not asserted (70_reset_and_hazards.md R162), and no
input arrives first. -/
def State.sequencerTurn (s : State) : Bool := s.status.busy && !s.inReset && !s.inputOverlaps

/-- The sequencer's step (R85): the command in PENDING, to its end. -/
def State.runPending (s : State) (run : Instr → State → Out) : Out :=
  match decode s.pending with
  | .ok i => run i s
  | .error e => .next (s.cmdError (decodeErrCode e))

/-- The host's or platform's step: the oldest input, or nothing where there is none (60_exceptions.md R161). -/
def State.takeInput (s : State) : Out :=
  match s.inputs with
  | [] => .next s
  | i :: rest => State.takeEvent { s with inputs := rest } i.event

/-- PENDING and CMD hold `w` and BUSY = 1, as after an accepted CMD write (R26); reset is not asserted and the next input,
if any, comes after completion, so that the sequencer moves. -/
def State.issued (s : State) (w : Word) : State :=
  { s with
    cmd := w
    pending := w
    status := s.status.setBusy
    inReset := false
    inputs := match s.inputs with
      | [] => []
      | i :: rest => { i with overlap := false } :: rest }

end Sys2Proof.Machine
end

