-- ==== Sys2Proof/Machine/Trig.lean ====
section
/-! DEFINITION. FCOS and FSIN, the parameter TRIG (00_scope.md R16): the correctly rounded default, computed in fixed point,
and a platform's functions kept within R16's limits. -/

namespace Sys2Proof.Machine

/-- A cosine and a sine as fixed-point integers. -/
structure CosSin where
  c : Int
  s : Int
  deriving DecidableEq, Repr

/-- Adds the Taylor terms `y^j / j!`, `y^(j+1) / (j+1)!`, … of `exp(i y)` to `acc` until one is 0: `one` is 1.0, `y` the
argument and `t` the term `y^j / j!`, all in units of `1 / one`. -/
def taylor (one y : Nat) : Nat → Nat → Nat → CosSin → CosSin
  | 0, _, _, acc => acc
  | fuel + 1, j, t, acc =>
    if t = 0 then acc
    else
      let acc' := match j % 4 with
        | 0 => { acc with c := acc.c + t }
        | 1 => { acc with s := acc.s + t }
        | 2 => { acc with c := acc.c - t }
        | _ => { acc with s := acc.s - t }
      taylor one y fuel (j + 1) (t * y / (one * (j + 1))) acc'

/-- From the cosine and sine of `y` to those of `2^k * y`: `k` squarings of `c + i s`. -/
def doubleAngle (one : Nat) : Nat → CosSin → CosSin
  | 0, v => v
  | k + 1, v => doubleAngle one k ⟨(v.c * v.c - v.s * v.s) / one, 2 * v.c * v.s / one⟩

/-- How many times an argument of `u` units is halved to come below 1. -/
def halvings (u : Nat) : Nat := (u.log2 + 1) - 1074

/-- Fraction bits of the fixed-point numbers for `k` halvings: 320 bits stay after the doublings. -/
def trigBits (k : Nat) : Nat := 320 + 2 * k

/-- The cosine and sine of `u * 2^-1074`, in units of `2^-(trigBits (halvings u))`, to about 300 bits. -/
def cosSinUnits (u : Nat) : CosSin :=
  let k := halvings u
  let one := 2 ^ trigBits k
  let y := u * one / 2 ^ (1074 + k)
  doubleAngle one k (taylor one y (trigBits k) 0 one ⟨0, 0⟩)

/-- A fixed-point number with `bits` fraction bits, rounded to binary64. -/
def F64.ofFixed (z : Int) (bits : Nat) : F64 :=
  if z = 0 then .num false 0 else .num (decide (z < 0)) (roundMag (z.natAbs * 2 ^ 1074) (2 ^ bits))

/-- The magnitude pattern of 2^-30: below it the correctly rounded cosine is 1.0 and the sine is the argument. -/
def tinyMag : Nat := 0x3E10000000000000

/-- The correctly rounded cosine of a finite magnitude (R16). Log 10. -/
def cosMag (m : Nat) : F64 :=
  if m < tinyMag then F64.one
  else F64.ofFixed (cosSinUnits (magUnits m)).c (trigBits (halvings (magUnits m)))

/-- The correctly rounded sine of a finite magnitude (R16). Log 10. -/
def sinMag (m : Nat) : F64 :=
  if m < tinyMag then .num false m
  else F64.ofFixed (cosSinUnits (magUnits m)).s (trigBits (halvings (magUnits m)))

/-- Whether `y` lies in [-1, 1] and within one unit in the last place of the mathematical value (R16), given as `z` in units
of `2^-bits`. The unit is that of the value's own binade, `2^-52` of its leading power of two. Log 11. -/
def withinUlp (y : F64) (z : Int) (bits : Nat) : Bool :=
  match y with
  | .nan => false
  | .num _ m =>
    decide (m ≤ 0x3FF0000000000000
      ∧ (y.units * (2 ^ bits : Nat) - z * (2 ^ 1074 : Nat)).natAbs ≤ 2 ^ (z.natAbs.log2 + 1022))

/-- Whether `y` lies in [-1, 1] and within one unit in the last place of a mathematical value that is below the magnitude
pattern `d` by less than half a unit: it is that number or the one before it (R16). -/
def justBelow (y : F64) (d : Nat) : Bool :=
  y.isFinite && decide (y.units = magUnits d ∨ y.units = magUnits (d - 1))

/-- Whether R16 allows `y` for the cosine of a nonzero finite magnitude. The cosine of a tiny one is just below 1.0. -/
def cosAllowed (m : Nat) (y : F64) : Bool :=
  if m < tinyMag then justBelow y 0x3FF0000000000000
  else withinUlp y (cosSinUnits (magUnits m)).c (trigBits (halvings (magUnits m)))

/-- Whether R16 allows `y` for the sine of a nonzero finite magnitude. The sine of a tiny one is just below it. -/
def sinAllowed (m : Nat) (y : F64) : Bool :=
  if m < tinyMag then justBelow y m
  else withinUlp y (cosSinUnits (magUnits m)).s (trigBits (halvings (magUnits m)))

/-- A platform's result where R16 allows it, else the correctly rounded one. -/
def trigChoose (allowed : Bool) (y d : F64) : F64 := if allowed then y else d

/-- FCOS of a magnitude. FCOS of a zero is 1.0 for every TRIG (R16). -/
def fcosMag (tr : Trig) (m : Nat) : F64 :=
  match tr with
  | .correctlyRounded => cosMag m
  | .platform k =>
    let y := F64.ofWord (Config.platformCos k m)
    if m = 0 then F64.one else trigChoose (cosAllowed m y) y (cosMag m)

/-- FSIN of a magnitude. FSIN of a zero is that zero for every TRIG (R16). -/
def fsinMag (tr : Trig) (m : Nat) : F64 :=
  match tr with
  | .correctlyRounded => sinMag m
  | .platform k =>
    let y := F64.ofWord (Config.platformSin k m)
    if m = 0 then F64.zero else trigChoose (sinAllowed m y) y (sinMag m)

/-- FCOS (R16), even. The block takes it of finite arguments only; of any other it is a NaN. Log 17. -/
def fcos (tr : Trig) : F64 → F64
  | .nan => .nan
  | .num _ m => if m < infMag then fcosMag tr m else .nan

/-- FSIN (R16), odd. The block takes it of finite arguments only; of any other it is a NaN. Log 17. -/
def fsin (tr : Trig) : F64 → F64
  | .nan => .nan
  | .num neg m => if m < infMag then (if neg then (fsinMag tr m).neg else fsinMag tr m) else .nan

end Sys2Proof.Machine
end

