-- ==== Sys2Proof/Machine/Fft.lean ====
section
/-! DEFINITION. fft_engine (41_fft.md). -/

namespace Sys2Proof.Machine

/-- The even-indexed elements, in order (R91). -/
def evens {α : Type} : List α → List α
  | [] => []
  | [x] => [x]
  | x :: _ :: xs => x :: evens xs

/-- The odd-indexed elements, in order (R91). -/
def odds {α : Type} : List α → List α
  | [] => []
  | [_] => []
  | _ :: y :: xs => y :: odds xs

/-- The twiddle factor of index `k` for length `m` (R92): theta is one multiplication, then one division. -/
def twiddle (tr : Trig) (m k : Nat) : Cx :=
  let theta := (negTwoPi64.mul (F64.ofNat k)).div (F64.ofNat m)
  ⟨fcos tr theta, fsin tr theta⟩

/-- The products `t` of R92: the twiddle factors of indices k, k + 1, … times the elements of the odd half. -/
def twiddled (tr : Trig) (m : Nat) : Nat → List Cx → List Cx
  | _, [] => []
  | k, o :: os => (twiddle tr m k).mul o :: twiddled tr m (k + 1) os

/-- The butterfly combine (R92): y[k] = E[k] + t, y[k + M/2] = E[k] - t. -/
def butterfly (tr : Trig) (m : Nat) (e o : List Cx) : List Cx :=
  let t := twiddled tr m 0 o
  List.zipWith Cx.add e t ++ List.zipWith Cx.sub e t

/-- The recursion of R90 and R91 on a list of 2^levels elements: a list of one element is unchanged. -/
def fftLevels (tr : Trig) : Nat → List Cx → List Cx
  | 0, x => x
  | levels + 1, x => butterfly tr x.length (fftLevels tr levels (evens x)) (fftLevels tr levels (odds x))

/-- `fft(x)` (R90), for a list whose length is a power of two. -/
def fft (tr : Trig) (x : List Cx) : List Cx := fftLevels tr x.length.log2 x

/-- FFT (R93). -/
def execFft (s : State) : Out :=
  match s.readFfts s.params.nfft with
  | .error e => .fault e
  | .ok x => .next (s.writeFfts (fft s.params.trig x)).complete

end Sys2Proof.Machine
end

