-- ==== Sys2Proof/Machine/Peaks.lean ====
section
/-! DEFINITION. peak_extractor_magnitude (43_peaks.md). -/

namespace Sys2Proof.Machine

/-- An entry of an analysis table: frequency and amplitude (00_scope.md glossary, 10_state.md R49). -/
structure Entry where
  freq : F64
  amp : F64
  deriving DecidableEq, Repr

/-- The magnitude of a bin (R102): each product rounded, then the sum, then the root. -/
def binMag (x : Cx) : F64 := ((x.re.mul x.re).add (x.im.mul x.im)).sqrt

/-- `mag[j]`. -/
def magAt (mag : List F64) (j : Nat) : F64 := mag.getD j .nan

/-- The peak predicate (R104): strict on the left, inclusive on the right. -/
def isPeak (mag : List F64) (j : Nat) : Bool :=
  F64.lt (magAt mag (j - 1)) (magAt mag j) && F64.le (magAt mag (j + 1)) (magAt mag j)

/-- The peaks of the scan range 1 .. K-1, in increasing bin order (R103, R104). -/
def peakBins (k : Nat) (mag : List F64) : List Nat :=
  (List.range k).filter (fun j => decide (1 ≤ j) && isPeak mag j)

/-- Whether peak `i` ranks before or with peak `j` (R107): by magnitude descending, then by bin ascending. -/
def ranksBefore (mag : List F64) (i j : Nat) : Bool :=
  F64.lt (magAt mag j) (magAt mag i) || (F64.eq (magAt mag i) (magAt mag j) && decide (i ≤ j))

/-- RANK (R107). -/
def rankPeaks (mag : List F64) (bins : List Nat) : List Nat :=
  bins.insertionSort (fun i j => ranksBefore mag i j = true)

/-- The frequency of bin `j` (R106): multiply first, then divide. -/
def binFreq (sr : F64) (nfft j : Nat) : F64 := ((F64.ofNat j).mul sr).div (F64.ofNat nfft)

/-- The sentinel entry (R109). -/
def sentinel (sr : F64) : Entry := ⟨sr.div F64.two, F64.zero⟩

/-- The chosen entries in ranking order, padded to `n` (R108, R109). -/
def chooseEntries (sr : F64) (nfft n : Nat) (mag : List F64) (rank : List Nat) : List Entry :=
  (rank.take n).map (fun j => ⟨binFreq sr nfft j, magAt mag j⟩) ++ List.replicate (n - rank.length) (sentinel sr)

/-- The stable sort by ascending frequency (R110). -/
def sortByFreq (es : List Entry) : List Entry :=
  es.insertionSort (fun a b => F64.le a.freq b.freq = true)

/-- `extract(SR, N)` on a spectrum `x` whose first elements are bins 0 .. K (R112), and the peak count c (R115). -/
def extract (nfft : Nat) (sr : F64) (n : Nat) (x : List Cx) : List Entry × Nat :=
  let k := nfft / 2
  let mag := (x.take (k + 1)).map binMag
  let bins := peakBins k mag
  (sortByFreq (chooseEntries sr nfft n mag (rankPeaks mag bins)), bins.length)

/-- The fields of entries in the order of their addresses. -/
def flattenEntries (es : List Entry) : List F64 := es.flatMap (fun e => [e.freq, e.amp])

/-- ATAB_T entries (f, 0), (f, 1), … <- `es` (R116). -/
def State.writeEntries (s : State) (t : Tab) (f : Nat) (es : List Entry) : State :=
  s.putF64s (atabAddr s.params t f 0) (flattenEntries es)

/-- PEAK_COUNT <- c (R115). -/
def State.setPeakCount (s : State) (c : Nat) : State := { s with peakCount := BitVec.ofNat 64 c }

/-- NORM_T <- v. -/
def State.setNorm (s : State) (t : Tab) (v : Bool) : State := { s with status := s.status.setNorm t v }

/-- PEAKS T, f (R116). -/
def execPeaks (t : Tab) (f : Nat) (s : State) : Out :=
  if s.frames t ≤ f then .next (s.cmdError .frameRange)
  else
    match s.readFfts (s.params.nfft / 2 + 1) with
    | .error e => .fault e
    | .ok x =>
      let r := extract s.params.nfft (F64.ofWord (s.sr.get t)) s.voiceCount x
      .next (((s.writeEntries t f r.1).setPeakCount r.2).setNorm t false).complete

end Sys2Proof.Machine
end

