-- ==== Sys2Proof/Machine/Window.lean ====
section
/-! DEFINITION. hann_windower (42_window.md). -/

namespace Sys2Proof.Machine

/-- Window coefficient `i` of a window of length `l` (R95). -/
def windowCoeff (tr : Trig) (l i : Nat) : F64 :=
  let arg := (twoPi64.mul (F64.ofNat (i + 1))).div (F64.ofNat (l + 1))
  F64.half.mul (F64.one.sub (fcos tr arg))

/-- The whole window table (R95, R97). -/
def windowTable (p : Params) : List F64 := (List.range p.win).map (windowCoeff p.trig p.win)

/-- The state with the window table written (R98). -/
def State.writeWintab (s : State) : State := s.putF64s (wintabAddr 0) (windowTable s.params)

/-- BUILD_WINDOW (R98). -/
def execBuildWindow (s : State) : Out :=
  .next { s.writeWintab with status := s.status.setWinReady }.complete

/-- Element-wise scaling of a buffer's first elements by the window (R99): (re * w, im * w); the rest is unchanged. -/
def applyWindow : List Cx → List F64 → List Cx
  | x :: xs, w :: ws => x.scale w :: applyWindow xs ws
  | xs, _ => xs

/-- WINDOW (R99). -/
def execWindow (s : State) : Out :=
  if s.status.winReady = false then .next (s.cmdError .winNotReady)
  else
    match s.readFfts s.params.win, s.readWintab with
    | .ok x, .ok w => .next (s.writeFfts (applyWindow x w)).complete
    | .error e, _ => .fault e
    | .ok _, .error e => .fault e

end Sys2Proof.Machine
end

