-- ==== Sys2Proof/Machine/Analysis.lean ====
section
/-! DEFINITION. The frame loader, the analysis sequencer and the loudness normalizer (44_analysis.md). -/

namespace Sys2Proof.Machine

/-- The number of real samples of frame `f` (R119). -/
def State.frameLen (s : State) (t : Tab) (f : Nat) : Nat :=
  min s.params.hop ((s.inLen.get t).toNat - f * s.params.hop)

/-- `load(T, f)` (R120): the samples of the frame, widened, then zeros up to P_NFFT. -/
def State.load (s : State) (t : Tab) (f : Nat) : Except Fault (List Cx) :=
  match s.readSamples t (f * s.params.hop) (s.frameLen t f) with
  | .error e => .error e
  | .ok xs =>
    .ok (xs.map (fun x => ⟨x, F64.zero⟩) ++ List.replicate (s.params.nfft - s.frameLen t f) ⟨F64.zero, F64.zero⟩)

/-- LOAD_FRAME T, f (R124). -/
def execLoadFrame (t : Tab) (f : Nat) (s : State) : Out :=
  if s.frames t ≤ f then .next (s.cmdError .frameRange)
  else
    match s.load t f with
    | .error e => .fault e
    | .ok b => .next (s.writeFfts b).complete

/-- The analysis of one frame (R122): its spectrum, entries and peak count. -/
structure FrameResult where
  spectrum : List Cx
  entries : List Entry
  count : Nat
  deriving DecidableEq, Repr

/-- `analyse_frame(T, f)` (R122). -/
def State.analyseFrame (s : State) (t : Tab) (f : Nat) : Except Fault FrameResult :=
  match s.load t f, s.readWintab with
  | .error e, _ => .error e
  | .ok _, .error e => .error e
  | .ok b, .ok w =>
    let x := fft s.params.trig (applyWindow b w)
    let r := extract s.params.nfft (F64.ofWord (s.sr.get t)) s.voiceCount x
    .ok ⟨x, r.1, r.2⟩

/-- Writes the entries of frames f, f + 1, … into table T (R126). -/
def State.writeFrames (t : Tab) : Nat → List FrameResult → State → State
  | _, [], s => s
  | f, r :: rs, s => State.writeFrames t (f + 1) rs (s.writeEntries t f r.entries)

/-- FFTBUF and PEAK_COUNT hold the last frame's, if there is a frame (R126). -/
def State.leaveLast (s : State) : Option FrameResult → State
  | none => s
  | some r => (s.writeFfts r.spectrum).setPeakCount r.count

/-- ANALYZE T (R126). -/
def execAnalyze (t : Tab) (s : State) : Out :=
  if s.status.winReady = false then .next (s.cmdError .winNotReady)
  else
    match allOk ((List.range (s.frames t)).map (s.analyseFrame t)) with
    | .error e => .fault e
    | .ok rs => .next (((State.writeFrames t 0 rs s).leaveLast rs.getLast?).setNorm t false).complete

/-- The scanned entries (f, n): frames in order, voices in order within a frame (R127). -/
def scanned (frames voices : Nat) : List (Nat × Nat) :=
  (List.range frames).flatMap (fun f => (List.range voices).map (fun n => (f, n)))

/-- The maximum of R127: a scan from +0.0 with a strict comparison. -/
def scanMax : F64 → List F64 → F64
  | m, [] => m
  | m, a :: as => scanMax (if F64.lt m a then a else m) as

/-- Writes AMP of the given entries of table T (R128). -/
def State.writeAmps (t : Tab) : List ((Nat × Nat) × F64) → State → State
  | [], s => s
  | (e, a) :: rest, s => State.writeAmps t rest (s.putF64s (atabAddr s.params t e.1 e.2 + 8) [a])

/-- NORM_MAX_T <- m (R128). -/
def State.setNormMax (s : State) (t : Tab) (m : F64) : State :=
  { s with normMax := s.normMax.set t (s.seal1 m) }.drawn 1

/-- The commit of NORMALIZE: every scanned amplitude divided by the maximum, NORM_MAX_T, NORM_T <- 1 (R128). -/
def State.commitNormalize (s : State) (t : Tab) (es : List (Nat × Nat)) (amps : List F64) (m : F64) : State :=
  ((State.writeAmps t (es.zip (amps.map (fun a => a.div m))) s).setNormMax t m).setNorm t true

/-- NORMALIZE T (R127, R128). -/
def execNormalize (t : Tab) (s : State) : Out :=
  let es := scanned (s.frames t) s.voiceCount
  match allOk (es.map (fun e => s.readAmp t e.1 e.2)) with
  | .error e => .fault e
  | .ok amps =>
    let m := scanMax F64.zero amps
    if F64.eq m F64.zero then .next (s.cmdError .zeroMax)
    else if F64.eq m (.num false infMag) then .next (s.cmdError .nonfinite)
    else .next (s.commitNormalize t es amps m).complete

end Sys2Proof.Machine
end

