-- ==== Sys2Proof/Machine/Control.lean ====
section
/-! DEFINITION. The control command (40_control.md R88). -/

namespace Sys2Proof.Machine

/-- NOP (R88): nothing but completion. -/
def execNop (s : State) : Out := .next s.complete

end Sys2Proof.Machine
end

