-- ==== Sys2Proof/Machine/Oscillator.lean ====
section
/-! DEFINITION. oscillator_bank (46_oscillator.md): sine table, lookup, phasor, mixer. -/

namespace Sys2Proof.Machine

/-- Sine table entry `i` of a table of `ts` entries (R136). -/
def sineEntry (tr : Trig) (ts i : Nat) : F64 := fsin tr ((twoPi64.mul (F64.ofNat i)).div (F64.ofNat ts))

/-- The whole sine table (R136). -/
def sineTable (p : Params) : List F64 := (List.range p.sine).map (sineEntry p.trig p.sine)

/-- The state with the sine table written (R137). -/
def State.writeSinetab (s : State) : State := s.putF64s (sinetabAddr 0) (sineTable s.params)

/-- BUILD_SINE (R137). -/
def execBuildSine (s : State) : Out :=
  .next { s.writeSinetab with status := s.status.setSineReady }.complete

/-- `a + (fr * (b - a))` (R138): difference, then product, then sum. -/
def lerp (a b fr : F64) : F64 := a.add (fr.mul (b.sub a))

/-- `sine_lookup(ph)` (R138): the entry after the last is entry 0. -/
def State.sineLookup (s : State) (ph : F64) : Except Fault F64 :=
  let x := ph.mul (F64.ofNat s.params.sine)
  let i0 := x.floor.toNat
  match s.readSine i0, s.readSine ((i0 + 1) % s.params.sine) with
  | .ok a, .ok b => .ok (lerp a b (x.sub (F64.ofNat i0)))
  | .error e, _ => .error e
  | .ok _, .error e => .error e

/-- `wrap(p)` for a finite p (R140). floor64(p) is exact, so p - floor64(p) is the exact difference rounded once. Log 18. -/
def wrapPhase (p : F64) : F64 :=
  let q := F64.ofUnits (p.units - p.floor * (2 ^ 1074 : Nat)) false
  if F64.eq q F64.one then F64.zero else q

/-- What `osc_step` returns (R141). -/
structure OscOut where
  inc : List F64
  phase : List F64
  out : F64
  deriving DecidableEq, Repr

/-- The end of `osc_step`: a command error NONFINITE, the model's fault, or the results. -/
inductive OscResult where
  | nonfinite
  | fault (f : Fault)
  | ok (o : OscOut)
  deriving DecidableEq, Repr

/-- The increments of R141: FREQ / ENGINE_SR. -/
def State.increments (s : State) (freq : List F64) : List F64 :=
  freq.map (fun f => f.div (F64.ofWord s.params.engineSr))

/-- The running sum of R141, voices in increasing order: each product rounded, then the sum. -/
def mixSum : F64 → List F64 → List F64 → F64
  | sum, a :: as, y :: ys => mixSum (sum.add (a.mul y)) as ys
  | sum, _, _ => sum

/-- The phase advance of each voice (R139, R140). -/
def advancePhases (phase inc : List F64) : List F64 := List.zipWith (fun ph i => wrapPhase (ph.add i)) phase inc

/-- `osc_step(N, F, A, PH)` (R141). -/
def State.oscStep (s : State) (freq amp phase : List F64) : OscResult :=
  let inc := s.increments freq
  if inc.any (fun i => !i.isFinite) then .nonfinite
  else
    match allOk (phase.map s.sineLookup) with
    | .error e => .fault e
    | .ok ys => .ok ⟨inc, advancePhases phase inc, (mixSum F64.zero amp ys).div (F64.ofNat s.voiceCount)⟩

/-- V[n].INC and V[n].PHASE <- the two patterns (R141). -/
def Voice.setIncPhase (inc phase : Word) (v : Voice) : Voice := { v with inc := inc, phase := phase }

/-- The commit of an oscillator step (R141): INC and PHASE of the first voices, OUT_L and OUT_R the same pattern (R36). -/
def State.commitOsc (s : State) (o : OscOut) : State :=
  let incW := sealAll s.draws o.inc
  let phW := sealAll (s.draws + o.inc.length) o.phase
  let outW := o.out.toWord (Config.freeNan (s.draws + o.inc.length + o.phase.length))
  { s with
    voices := updateVoices (List.zipWith Voice.setIncPhase incW phW) s.voices
    outL := outW
    outR := outW
    draws := s.draws + o.inc.length + o.phase.length + 1 }

/-- The first N voices, those a command reads (10_state.md R41). -/
def State.activeVoices (s : State) : List Voice := s.voices.take s.voiceCount

/-- V[n].PHASE for n < N. -/
def State.activePhases (s : State) : List F64 := s.activeVoices.map (fun v => F64.ofWord v.phase)

/-- OSC (R142). -/
def execOsc (s : State) : Out :=
  if s.status.sineReady = false then .next (s.cmdError .sineNotReady)
  else
    match s.oscStep (s.activeVoices.map (fun v => F64.ofWord v.freq)) (s.activeVoices.map (fun v => F64.ofWord v.amp))
        s.activePhases with
    | .nonfinite => .next (s.cmdError .nonfinite)
    | .fault f => .fault f
    | .ok o => .next (s.commitOsc o).complete

end Sys2Proof.Machine
end

