-- ==== Sys2Proof/Machine/Resynthesis.lean ====
section
/-! DEFINITION. The resynthesis engine and frame_interpolator (45_resynthesis.md). -/

namespace Sys2Proof.Machine

/-- An oscillator at the start of a session: PHASE and INC +0.0, FREQ and AMP kept (R130). -/
def Voice.restart (v : Voice) : Voice := { v with phase := 0, inc := 0 }

/-- SYNTH_RESET (R130): S, PHASE and INC of every voice, and the output. -/
def execSynthReset (s : State) : Out :=
  .next { s with s := 0, voices := s.voices.map Voice.restart, outL := 0, outR := 0 }.complete

/-- Steps 1 and 2 of the interpolation (R131): the values t, low, high, upperWeight and lowerWeight. -/
structure Weights where
  t : F64
  low : Nat
  high : Nat
  uw : F64
  lw : F64
  deriving DecidableEq, Repr

/-- The weights at sample position `pos` of `sl` samples in `fl` frames (R131): `low` is clamped before `uw` is taken. -/
def weightsAt (pos sl fl : Nat) : Weights :=
  let t := ((F64.ofNat pos).div (F64.ofNat sl)).mul (F64.ofNat fl)
  let low := (min t.floor ((fl : Int) - 1)).toNat
  let high := (min (t.floor + 1) ((fl : Int) - 1)).toNat
  let uw := t.sub (F64.ofNat low)
  ⟨t, low, high, uw, F64.one.sub uw⟩

/-- `(lw * x) + (uw * y)` (R131 step 3): each product rounded, then the sum. -/
def blend (w : Weights) (x y : F64) : F64 := (w.lw.mul x).add (w.uw.mul y)

/-- FREQ_n of R131: a blend of frames low and high of table A (R134). -/
def State.interpFreq (s : State) (w : Weights) (n : Nat) : Except Fault F64 :=
  match s.readFreq .a w.low n, s.readFreq .a w.high n with
  | .ok x, .ok y => .ok (blend w x y)
  | .error e, _ => .error e
  | .ok _, .error e => .error e

/-- AMP_n of R131. -/
def State.interpAmp (s : State) (w : Weights) (n : Nat) : Except Fault F64 :=
  match s.readAmp .a w.low n, s.readAmp .a w.high n with
  | .ok x, .ok y => .ok (blend w x y)
  | .error e, _ => .error e
  | .ok _, .error e => .error e

/-- What `interp(s)` returns (R131). -/
structure InterpOut where
  weights : Weights
  freq : List F64
  amp : List F64
  deriving DecidableEq, Repr

/-- `interp(R[S])` (R131). -/
def State.interpolate (s : State) : Except Fault InterpOut :=
  let w := weightsAt s.s.toNat s.sLimit s.frameLimit
  match allOk ((List.range s.voiceCount).map (s.interpFreq w)), allOk ((List.range s.voiceCount).map (s.interpAmp w)) with
  | .ok f, .ok a => .ok ⟨w, f, a⟩
  | .error e, _ => .error e
  | .ok _, .error e => .error e

/-- V[n].FREQ and V[n].AMP <- the two patterns (R132). -/
def Voice.setFreqAmp (freq amp : Word) (v : Voice) : Voice := { v with freq := freq, amp := amp }

/-- The commit of an interpolation (R132): FREQ and AMP of the first voices, and the INT_* registers (10_state.md R39). -/
def State.commitInterp (s : State) (o : InterpOut) : State :=
  let fW := sealAll s.draws o.freq
  let aW := sealAll (s.draws + o.freq.length) o.amp
  let k := s.draws + o.freq.length + o.amp.length
  { s with
    voices := updateVoices (List.zipWith Voice.setFreqAmp fW aW) s.voices
    intT := o.weights.t.toWord (Config.freeNan k)
    intLow := BitVec.ofNat 64 o.weights.low
    intHigh := BitVec.ofNat 64 o.weights.high
    intUw := o.weights.uw.toWord (Config.freeNan (k + 1))
    intLw := o.weights.lw.toWord (Config.freeNan (k + 2))
    draws := k + 3 }

/-- INTERP (R132). -/
def execInterp (s : State) : Out :=
  if s.frameLimit = 0 then .next (s.cmdError .empty)
  else
    match s.interpolate with
    | .error e => .fault e
    | .ok o => .next (s.commitInterp o).complete

/-- The sample counter after one sample (R133, step 5): it wraps to 0 when it reaches S_LIMIT. -/
def State.nextSample (s : State) : Word :=
  if s.s.toNat + 1 = s.sLimit then 0 else BitVec.ofNat 64 (s.s.toNat + 1)

/-- SYNTH (R133). -/
def execSynth (s : State) : Out :=
  if s.status.sineReady = false then .next (s.cmdError .sineNotReady)
  else if s.frameLimit = 0 then .next (s.cmdError .empty)
  else
    match s.interpolate with
    | .error e => .fault e
    | .ok o =>
      match s.oscStep o.freq o.amp s.activePhases with
      | .nonfinite => .next (s.cmdError .nonfinite)
      | .fault f => .fault f
      | .ok r => .next { ((s.commitInterp o).commitOsc r) with s := s.nextSample }.complete

end Sys2Proof.Machine
end

