-- ==== Sys2Proof/Machine/Dispatch.lean ====
section
/-! DEFINITION. The execution of a command: one arm for each constructor of `Instr`. -/

namespace Sys2Proof.Machine

def exec (i : Instr) (s : State) : Host.Outcome State Fault Refusal :=
  match i with
  | .nop => Sys2Proof.Machine.execNop s
  | .buildWindow => Sys2Proof.Machine.execBuildWindow s
  | .buildSine => Sys2Proof.Machine.execBuildSine s
  | .loadFrame t f => Sys2Proof.Machine.execLoadFrame t f s
  | .window => Sys2Proof.Machine.execWindow s
  | .fft => Sys2Proof.Machine.execFft s
  | .peaks t f => Sys2Proof.Machine.execPeaks t f s
  | .analyze t => Sys2Proof.Machine.execAnalyze t s
  | .normalize t => Sys2Proof.Machine.execNormalize t s
  | .synthReset => Sys2Proof.Machine.execSynthReset s
  | .interp => Sys2Proof.Machine.execInterp s
  | .osc => Sys2Proof.Machine.execOsc s
  | .synth => Sys2Proof.Machine.execSynth s

end Sys2Proof.Machine
end

