-- ==== Sys2Proof/Machine/Step.lean ====
section
/-! DEFINITION. One step of the block: the sequencer's command, or the oldest input. -/

namespace Sys2Proof.Machine

/-- One step (R3, R69, R85): an instance with illegal parameters does not exist (R5); when it is the sequencer's turn the
command in PENDING runs; else the oldest input is taken. -/
def step (s : State) : Host.Outcome State Fault Refusal :=
  if s.params.legal = false then .refused .illegalParams
  else if s.sequencerTurn then s.runPending exec
  else s.takeInput

/-- `s` with the command of bits `w` issued, so that the next step runs it (log 5). A command is one 64-bit word whatever
`nbits`: the bits above `nbits` are 0. -/
def State.withFetchWord (s : State) (nbits w : Nat) : State := s.issued (BitVec.ofNat 64 (w % 2 ^ nbits))

end Sys2Proof.Machine
end

