-- ==== Sys2Proof/Machine/HostProgram.lean ====
section
/-! DEFINITION. The host-program syntax (30_encoding.md R83, R84): the text of a command, what a line of a host program expands
to, and the run of a program on the block. -/

namespace Sys2Proof.Machine

/-- The letter of a table in a command's text (R83). -/
def tabText : Tab → String
  | .a => "A"
  | .b => "B"

/-- The text of a command (R83): the mnemonic, then its operands separated by ", ". -/
def instrText : Instr → String
  | .nop => "NOP"
  | .buildWindow => "BUILD_WINDOW"
  | .buildSine => "BUILD_SINE"
  | .loadFrame t f => "LOAD_FRAME " ++ tabText t ++ ", " ++ toString f
  | .window => "WINDOW"
  | .fft => "FFT"
  | .peaks t f => "PEAKS " ++ tabText t ++ ", " ++ toString f
  | .analyze t => "ANALYZE " ++ tabText t
  | .normalize t => "NORMALIZE " ++ tabText t
  | .synthReset => "SYNTH_RESET"
  | .interp => "INTERP"
  | .osc => "OSC"
  | .synth => "SYNTH"

/-- A line of a host program (R83, R84). -/
inductive HostLine where
  | wr (addr : BitVec 32) (data : Word)
  | rd (addr : BitVec 32)
  | poll
  | issue (i : Instr)
  | cmd (i : Instr)
  | boot
  | check
  deriving DecidableEq, Repr

/-- What a line expands to (R84). POLL and CHECK stay, since what they do depends on what their STATUS read returns. -/
inductive HostOp where
  /-- A transaction. -/
  | transact (e : HostEvent)
  /-- Repeat `RD STATUS` until BUSY is 0. -/
  | poll
  /-- `RD STATUS`, and the program fails if ERR or BERR is 1. -/
  | check
  deriving DecidableEq, Repr

/-- The offset of CMD (10_state.md R20). -/
def cmdAddr : BitVec 32 := 0x030

/-- `ISSUE <command>` (R84). -/
def issueOp (i : Instr) : HostOp := .transact (.write cmdAddr (encode i))

/-- `CMD <command>` (R84). -/
def cmdOps (i : Instr) : List HostOp := [issueOp i, .poll]

/-- The expansion of a line (R84). -/
def expandLine : HostLine → List HostOp
  | .wr addr data => [.transact (.write addr data)]
  | .rd addr => [.transact (.read addr)]
  | .poll => [.poll]
  | .issue i => [issueOp i]
  | .cmd i => cmdOps i
  | .boot => cmdOps .buildWindow ++ cmdOps .buildSine
  | .check => [.check]

/-- The expansion of a host program (R84). -/
def expandProgram (ls : List HostLine) : List HostOp := ls.flatMap expandLine

/-- The transaction of an operation: POLL and CHECK read STATUS. -/
def HostOp.event : HostOp → HostEvent
  | .transact e => e
  | .poll => .read (BitVec.ofNat 32 statusAddr)
  | .check => .read (BitVec.ofNat 32 statusAddr)

/-- The data the host gets with a response (20_memory.md R54); none with a write's, taken as 0. -/
def Reply.data : Reply → Word
  | .readOk d => d
  | .readErr _ d => d
  | .writeOk => 0
  | .writeErr _ => 0

/-- The data of the last response. -/
def State.lastData (s : State) : Word :=
  match s.replies with
  | [] => 0
  | r :: _ => r.data

/-- Whether an operation is repeated after a response with data `d` (R84): POLL until BUSY, bit 0, is 0. -/
def HostOp.repeats (d : Word) : HostOp → Bool
  | .transact _ => false
  | .poll => d.getLsbD 0
  | .check => false

/-- Whether a CHECK that read `w` from STATUS fails the program (R84): ERR or BERR is 1. -/
def checkFails (w : Word) : Bool := w.getLsbD 5 || w.getLsbD 7

/-- Whether an operation fails the program after a response with data `d` (R84). -/
def HostOp.failsAt (d : Word) : HostOp → Bool
  | .transact _ => false
  | .poll => false
  | .check => checkFails d

/-- A host program and the block it runs on. -/
structure HostRun where
  /-- What is left of the program. -/
  ops : List HostOp
  /-- For each transaction to come, whether it arrives before a running command completes; past the end of the list, after
  it. The spec gives a command no time (40_control.md R86, vector B12), so every list is allowed. Log 27. -/
  arrivals : List Bool
  /-- Whether a CHECK has failed. Log 27. -/
  failed : Bool
  /-- The block. -/
  state : State
  deriving DecidableEq, Repr

/-- A host program at its start on the block `s`. -/
def HostRun.start (ls : List HostLine) (arrivals : List Bool) (s : State) : HostRun :=
  ⟨expandProgram ls, arrivals, false, s⟩

/-- The block after it has answered the input `i`: at once, or after the running command has completed, which is one step. -/
def State.answer (s : State) (i : Input) : Out :=
  let s1 := { s with inputs := i :: s.inputs }
  if s1.sequencerTurn then
    match step s1 with
    | .next t => step t
    | .fault f => .fault f
    | .refused r => .refused r
  else step s1

/-- The run after operation `o`, the rest of the program being `rest`, left the block in `t`. -/
def HostRun.advance (r : HostRun) (o : HostOp) (rest : List HostOp) (t : State) : HostRun where
  ops := if o.repeats t.lastData then o :: rest else rest
  arrivals := r.arrivals.tail
  failed := r.failed || o.failsAt t.lastData
  state := t

/-- One transaction of a host program; after the last one the block alone moves (70_reset_and_hazards.md R170). An error does
not end a program (R170). -/
def HostRun.next (r : HostRun) : Host.Outcome HostRun Fault Refusal :=
  match r.ops with
  | [] =>
    match step r.state with
    | .next t => .next { r with state := t }
    | .fault f => .fault f
    | .refused q => .refused q
  | o :: rest =>
    match r.state.answer ⟨o.event, r.arrivals.headD false⟩ with
    | .next t => .next (r.advance o rest t)
    | .fault f => .fault f
    | .refused q => .refused q

/-- A run has ended (R170): its last transaction has completed and BUSY = 0. -/
def HostRun.ended (r : HostRun) : Bool := r.ops.isEmpty && !r.state.status.busy

/-- At most `n` transactions of a host program, fewer where it ends. -/
def HostRun.run : Nat → HostRun → Host.Outcome HostRun Fault Refusal
  | 0, r => .next r
  | n + 1, r =>
    if r.ended then .next r
    else
      match r.next with
      | .next t => HostRun.run n t
      | .fault f => .fault f
      | .refused q => .refused q

end Sys2Proof.Machine
end

