-- ==== Sys2Proof/Safety.lean ====
section
/-! DEFINITION. What counts as a sound state of the block, in the terms the statements use. -/

namespace Sys2Proof.Machine

/-- The memory cells are in canonical form. -/
abbrev State.memCanonical (s : State) : Prop := Mem.wf s.mem

/-- OUT_L and OUT_R hold the same pattern (10_state.md R36). -/
abbrev State.channelsEqual (s : State) : Prop := s.outL = s.outR

/-- S = 0 or S < S_LIMIT (10_state.md R35). -/
abbrev State.sampleInRange (s : State) : Prop := s.s = 0 ∨ s.s.toNat < s.sLimit

/-- There are P_NMAX voices, and every PHASE has sign 0 and a value below 1.0 (10_state.md R41, R53). -/
abbrev State.voicesSound (s : State) : Prop :=
  s.voices.length = s.params.nmax ∧ ∀ v ∈ s.voices, legalPhase v.phase = true

/-- The parameters are legal (00_scope.md R5) and the configuration registers hold legal values (10_state.md R29-R31). -/
abbrev State.configLegal (s : State) : Prop :=
  s.params.legal = true ∧ 1 ≤ s.nvoices.toNat ∧ s.nvoices.toNat ≤ s.params.nmax
    ∧ s.inLen.a.toNat ≤ s.params.inmax ∧ s.inLen.b.toNat ≤ s.params.inmax
    ∧ legalRate s.sr.a = true ∧ legalRate s.sr.b = true

/-- ERRCODE is NONE and ERR_MULTI is 0 when ERR = 0; ERRCODE is a code when ERR = 1 (10_state.md R27, 60_exceptions.md
R149, R153). -/
abbrev State.errorRecordSound (s : State) : Prop :=
  if s.status.err then s.status.errcode ≠ .none else s.status.errcode = .none ∧ s.status.errMulti = false

/-- While WIN_READY = 1, WINTAB holds the Hann window (10_state.md R27, R47). -/
def State.windowBuilt (s : State) : Prop := s.status.winReady = true → s.readWintab = .ok (windowTable s.params)

/-- While SINE_READY = 1, every element of SINETAB holds its sine (10_state.md R27, R48). -/
def State.sineBuilt (s : State) : Prop :=
  s.status.sineReady = true → ∀ i, i < s.params.sine → s.readSine i = .ok (sineEntry s.params.trig s.params.sine i)

/-- Where a memory begins (20_memory.md R62). -/
def spaceBase : Space → Nat
  | .fftbuf => fftAddr 0
  | .wintab => wintabAddr 0
  | .sinetab => sinetabAddr 0
  | .atabA => 0x01000000
  | .atabB => 0x02000000
  | .inbufA => inbufAddr .a 0
  | .inbufB => inbufAddr .b 0

/-- Where the elements of a memory end (R62, R64). -/
def spaceEnd (p : Params) : Space → Nat
  | .fftbuf => fftAddr p.nfft
  | .wintab => wintabAddr p.win
  | .sinetab => sinetabAddr p.sine
  | .atabA => 0x01000000 + 16 * (p.fmax * p.nmax)
  | .atabB => 0x02000000 + 16 * (p.fmax * p.nmax)
  | .inbufA => inbufAddr .a p.inmax
  | .inbufB => inbufAddr .b p.inmax

/-- Whether a byte of the `n` bytes from `a` on is unwritten (10_state.md R51). -/
abbrev State.gap (s : State) (a n : Nat) : Prop := ∃ x, a ≤ x ∧ x < a + n ∧ s.mem.get x = none

/-- Whether a sample of frame `f` of recording `t` is unwritten; a sample is the low four bytes of its word (R59, R120). -/
abbrev State.frameGap (s : State) (t : Tab) (f : Nat) : Prop :=
  ∃ i, i < min s.params.hop ((s.inLen.get t).toNat - f * s.params.hop) ∧ s.gap (inbufAddr t (f * s.params.hop + i)) 4

/-- Whether an entry that the interpolation reads is unwritten (R131). -/
abbrev State.interpGap (s : State) : Prop :=
  ∃ n, n < s.nvoices.toNat ∧
    (s.gap (atabAddr s.params .a (weightsAt s.s.toNat s.sLimit s.frameLimit).low n) 16
      ∨ s.gap (atabAddr s.params .a (weightsAt s.s.toNat s.sLimit s.frameLimit).high n) 16)

/-- Whether a command gets to read an unwritten element, of the memory `sp` (R51, U1): the elements that its rule reads, where
no error check before them ends it. -/
def State.readsUnwritten (s : State) (sp : Space) : Instr → Prop
  | .nop => False
  | .buildWindow => False
  | .buildSine => False
  | .loadFrame t f => sp = inbufSpace t ∧ f < s.frames t ∧ s.frameGap t f
  | .window => sp = .fftbuf ∧ s.status.winReady = true ∧ s.gap (fftAddr 0) (16 * s.params.win)
  | .fft => sp = .fftbuf ∧ s.gap (fftAddr 0) (16 * s.params.nfft)
  | .peaks t f => sp = .fftbuf ∧ f < s.frames t ∧ s.gap (fftAddr 0) (16 * (s.params.nfft / 2 + 1))
  | .analyze t => sp = inbufSpace t ∧ s.status.winReady = true ∧ ∃ f, f < s.frames t ∧ s.frameGap t f
  | .normalize t =>
    sp = atabSpace t ∧ ∃ f n, f < s.frames t ∧ n < s.nvoices.toNat ∧ s.gap (atabAddr s.params t f n + 8) 8
  | .synthReset => False
  | .interp => sp = .atabA ∧ s.frameLimit ≠ 0 ∧ s.interpGap
  | .osc => False
  | .synth => sp = .atabA ∧ s.status.sineReady = true ∧ s.frameLimit ≠ 0 ∧ s.interpGap

/-- The 13 defined OP values (30_encoding.md R78). -/
def definedOps : List Nat := [0x00, 0x01, 0x02, 0x10, 0x11, 0x12, 0x13, 0x14, 0x15, 0x20, 0x21, 0x22, 0x23]

/-- What 46_oscillator.md R138 computes from a table `tab` of `ts` entries at a phase. -/
def tableLookup (tab : Nat → F64) (ts : Nat) (ph : F64) : F64 :=
  let x := ph.mul (F64.ofNat ts)
  let i0 := x.floor.toNat
  (tab i0).add ((x.sub (F64.ofNat i0)).mul ((tab ((i0 + 1) % ts)).sub (tab i0)))

/-- The sum of R141 over voices 0 .. n-1, in increasing order. -/
def mixedSum (amp y : Nat → F64) : Nat → F64
  | 0 => F64.zero
  | n + 1 => (mixedSum amp y n).add ((amp n).mul (y n))

end Sys2Proof.Machine
end

