-- ==== Sys2Proof/Certificates/Slice0/Obligations.lean ====
section
/-! DEFINITION. The statements for the provers. Each docstring names the rules of spec/ it formalises or rests on.

Memory is spoken of by bus offset, one byte at a time (log 12), and a byte that nothing has written reads as no value
(log 7). `draws`, the index of the next free value, is the model's own field (log 16): no statement rests on what it holds. -/

open Sys2Proof Sys2Proof.Machine

/-! ## Encoding (30_encoding.md) -/

/-- R79, R83: decoding the encoding of a well-formed command gives that command, with every operand at every value. -/
def Obligations.DecodeOfEncodeIsTheCommand : Prop :=
  ∀ i : Instr, i.wellFormed = true → decode (encode i) = .ok i

/-- R76, R80: a word that decodes is the encoding of what it decodes to, so every command has exactly one word. -/
def Obligations.EncodeOfDecodeIsTheWord : Prop :=
  ∀ (w : Word) (i : Instr), decode w = .ok i → i.wellFormed = true ∧ encode i = w

/-- R79: the checks of a command word, in order, on its bits taken by division: OP = w[7:0], T = w[8], FRAME = w[31:9],
RSV = w[63:32]. A word is refused exactly where a check of R79 raises, with the code R79 gives. -/
def Obligations.DecodingChecksInOrder : Prop :=
  ∀ w : Word,
    let op := w.toNat % 256
    let t := w.toNat / 2 ^ 8 % 2
    let f := w.toNat / 2 ^ 9 % 2 ^ 23
    let rsv := w.toNat / 2 ^ 32
    if op ∉ definedOps then decode w = .error .illegalOpcode
    else if rsv ≠ 0 then decode w = .error .reservedField
    else if op ≠ 0x10 ∧ op ≠ 0x13 ∧ f ≠ 0 then decode w = .error .reservedField
    else if op ≠ 0x10 ∧ op ≠ 0x13 ∧ op ≠ 0x14 ∧ op ≠ 0x15 ∧ t ≠ 0 then decode w = .error .reservedField
    else ∃ i, decode w = .ok i ∧ (encode i).toNat = op + 2 ^ 8 * t + 2 ^ 9 * f

/-- R78, R83: words written out from the table decode to the command they stand for (95_test_vectors.md 8.1, 8.2). -/
def Obligations.WrittenOutWordsDecode : Prop :=
  decode 0x0#64 = .ok .nop ∧ decode 0x1#64 = .ok .buildWindow ∧ decode 0x2#64 = .ok .buildSine
    ∧ decode 0xA10#64 = .ok (.loadFrame .a 5) ∧ decode 0x11#64 = .ok .window ∧ decode 0x12#64 = .ok .fft
    ∧ decode 0x713#64 = .ok (.peaks .b 3) ∧ decode 0xFFFFFE13#64 = .ok (.peaks .a 0x7FFFFF)
    ∧ decode 0x114#64 = .ok (.analyze .b) ∧ decode 0x15#64 = .ok (.normalize .a)
    ∧ decode 0x20#64 = .ok .synthReset ∧ decode 0x21#64 = .ok .interp ∧ decode 0x22#64 = .ok .osc
    ∧ decode 0x23#64 = .ok .synth ∧ decode 0x3#64 = .error .illegalOpcode
    ∧ decode 0x100000003#64 = .error .illegalOpcode ∧ decode 0x112#64 = .error .reservedField
    ∧ decode 0x214#64 = .error .reservedField

/-! ## The step (40_control.md, 60_exceptions.md) -/

/-- R85: in the sequencer's turn a step is the execution of the command that PENDING decodes to. The turn is the sequencer's
while BUSY = 1, reset is not asserted and no queued input is marked to arrive first (the model's choice, log 4). -/
def Obligations.StepRunsTheDecodedCommand : Prop :=
  ∀ (s : State) (i : Instr), s.params.legal = true → s.sequencerTurn = true → decode s.pending = .ok i →
    step s = exec i s

/-- R79, R85, R153: in the sequencer's turn (log 4) a word that is no command ends as a command error with its code. -/
def Obligations.StepRecordsADecodingError : Prop :=
  ∀ (s : State) (e : DecodeError), s.params.legal = true → s.sequencerTurn = true → decode s.pending = .error e →
    step s = .next (s.cmdError (match e with | .illegalOpcode => ErrCode.illegalOpcode | .reservedField => .reservedField))

/-- R26, R85, R78: a command word written to CMD of an idle block is executed: the first step stores it in CMD and PENDING
and sets BUSY, the next runs the command. The queue of inputs is the model's (logs 3, 5). -/
def Obligations.ACommandWrittenToCmdRuns : Prop :=
  ∀ (s : State) (i : Instr) (o : Bool), s.params.legal = true → i.wellFormed = true → s.inReset = false →
    s.status.busy = false → s.inputs = [⟨.write 0x030 (encode i), o⟩] →
    ∃ s1, step s = .next s1 ∧ s1.cmd = encode i ∧ s1.pending = encode i ∧ s1.status = s.status.setBusy
      ∧ s1.mem = s.mem ∧ s1.voices = s.voices ∧ s1.replies = .writeOk :: s.replies ∧ step s1 = exec i s1

/-- R153: the recording of a command error: the first code is kept, a later error sets ERR_MULTI, BUSY <- 0, and nothing else
of the state changes (R146). -/
def Obligations.CommandErrorIsRecorded : Prop :=
  ∀ (s : State) (c : ErrCode),
    s.cmdError c =
      if s.status.err = false then { s with status := { s.status with err := true, errcode := c, busy := false } }
      else { s with status := { s.status with errMulti := true, busy := false } }

/-- R86, R87, R146, R153: every command, in every state, faults, or fails with a code, and then only the error recording
changes the state, or succeeds, and then BUSY is 0 and ERR, ERR_MULTI, ERRCODE and BERR are as they were. None is refused. -/
def Obligations.CommandsAreAtomic : Prop :=
  ∀ (i : Instr) (s : State),
    (∃ f, exec i s = .fault f)
      ∨ (∃ c, c ≠ ErrCode.none ∧ exec i s = .next (s.cmdError c) ∧ (s.cmdError c).status.busy = false)
      ∨ ∃ t, exec i s = .next t ∧ t.status.busy = false ∧ t.status.err = s.status.err
          ∧ t.status.errMulti = s.status.errMulti ∧ t.status.errcode = s.status.errcode ∧ t.status.berr = s.status.berr

/-- R24, R30, R41, R45, R50: no command changes the parameters, CMD, PENDING, NVOICES, IN_LEN, SR, the host's inputs and
responses, or any byte outside the elements of FFTBUF, WINTAB, SINETAB and ATAB (so none writes INBUF). -/
def Obligations.CommandsLeaveTheHostsRegistersAndInputs : Prop :=
  ∀ (i : Instr) (s t : State), s.configLegal → i.wellFormed = true → exec i s = .next t →
    t.params = s.params ∧ t.cmd = s.cmd ∧ t.pending = s.pending ∧ t.nvoices = s.nvoices ∧ t.inLen = s.inLen ∧ t.sr = s.sr
      ∧ t.inputs = s.inputs ∧ t.replies = s.replies ∧ t.inReset = s.inReset ∧ t.voices.length = s.voices.length
      ∧ ∀ a, (∀ sp, sp ≠ .inbufA → sp ≠ .inbufB → a < spaceBase sp ∨ spaceEnd s.params sp ≤ a) →
          t.mem.get a = s.mem.get a

/-! ## What each command does -/

/-- R88: NOP, the one word 0, changes nothing but BUSY; its OP with a nonzero bit 8 to 63 is RESERVED_FIELD. -/
def Obligations.NopOnlyCompletes : Prop :=
  (∀ s : State, exec .nop s = .next { s with status := { s.status with busy := false } })
    ∧ ∀ w : Word, w.toNat % 256 = 0 → decode w = if w = 0 then .ok .nop else .error .reservedField

/-- R95, R98: BUILD_WINDOW completes; every element of WINTAB then holds 0.5 * (1.0 - FCOS((TWO_PI64 * f64(i+1)) / f64(L+1))),
WIN_READY is 1, and nothing else changes. -/
def Obligations.BuildWindowBuildsTheHannTable : Prop :=
  ∀ s : State, ∃ t, exec .buildWindow s = .next t
    ∧ (∀ i, i < s.params.win →
        (t.mem.word (wintabAddr i)).map F64.ofWord
          = some (F64.half.mul (F64.one.sub
              (fcos s.params.trig ((twoPi64.mul (F64.ofNat (i + 1))).div (F64.ofNat (s.params.win + 1)))))))
    ∧ t = { s with mem := t.mem, draws := t.draws, status := { s.status with winReady := true, busy := false } }
    ∧ ∀ a, (a < wintabAddr 0 ∨ wintabAddr s.params.win ≤ a) → t.mem.get a = s.mem.get a

/-- R136, R137: BUILD_SINE completes; every element of SINETAB then holds FSIN((TWO_PI64 * f64(i)) / f64(TS)), SINE_READY is
1, and nothing else changes. -/
def Obligations.BuildSineBuildsTheSineTable : Prop :=
  ∀ s : State, ∃ t, exec .buildSine s = .next t
    ∧ (∀ i, i < s.params.sine →
        t.readSine i = .ok (fsin s.params.trig ((twoPi64.mul (F64.ofNat i)).div (F64.ofNat s.params.sine))))
    ∧ t = { s with mem := t.mem, draws := t.draws, status := { s.status with sineReady := true, busy := false } }
    ∧ ∀ a, (a < sinetabAddr 0 ∨ sinetabAddr s.params.sine ≤ a) → t.mem.get a = s.mem.get a

/-- R119, R120, R124: LOAD_FRAME with f >= FRAMES_T ends in FRAME_RANGE. With f < FRAMES_T and the frame's samples written,
it completes; FFTBUF then holds the frame's n_f = min(H, L_in - f*H) widened samples with imaginary parts +0.0, and zeros
after them; every other byte and every register but BUSY is as it was. -/
def Obligations.LoadFrameLoadsTheSamples : Prop :=
  ∀ (s : State) (t : Tab) (f : Nat), s.params.legal = true →
    (s.frames t ≤ f → exec (.loadFrame t f) s = .next (s.cmdError .frameRange))
      ∧ ∀ x : Nat → BitVec 32, f < s.frames t →
        (∀ i, i < min s.params.hop ((s.inLen.get t).toNat - f * s.params.hop) →
          s.mem.half (inbufAddr t (f * s.params.hop + i)) = some (x i)) →
        ∃ u, exec (.loadFrame t f) s = .next u
          ∧ u.readFfts s.params.nfft = .ok ((List.range s.params.nfft).map (fun i =>
              if i < min s.params.hop ((s.inLen.get t).toNat - f * s.params.hop) then ⟨F64.ofBinary32 (x i), F64.zero⟩
              else ⟨F64.zero, F64.zero⟩))
          ∧ u = { s with mem := u.mem, draws := u.draws, status := { s.status with busy := false } }
          ∧ ∀ a, (a < fftAddr 0 ∨ fftAddr s.params.nfft ≤ a) → u.mem.get a = s.mem.get a

/-- R99: WINDOW with WIN_READY = 0 ends in WIN_NOT_READY. With WIN_READY = 1 and its elements written, it completes;
FFTBUF[i] for i < P_WIN is then (re * w, im * w), and nothing beyond the first P_WIN elements is written. -/
def Obligations.WindowScalesTheFirstElements : Prop :=
  ∀ s : State,
    (s.status.winReady = false → exec .window s = .next (s.cmdError .winNotReady))
      ∧ ∀ (x : List Cx) (w : List F64), s.status.winReady = true →
        s.readFfts s.params.win = .ok x → s.readWintab = .ok w →
        ∃ u, exec .window s = .next u
          ∧ u.readFfts s.params.win = .ok (List.zipWith (fun (z : Cx) c => ⟨z.re.mul c, z.im.mul c⟩) x w)
          ∧ u = { s with mem := u.mem, draws := u.draws, status := { s.status with busy := false } }
          ∧ ∀ a, (a < fftAddr 0 ∨ fftAddr s.params.win ≤ a) → u.mem.get a = s.mem.get a

/-- R93: with FFTBUF written, FFT completes; FFTBUF then holds fft of what it held, and nothing else changes. -/
def Obligations.FftTransformsTheBuffer : Prop :=
  ∀ (s : State) (x : List Cx), s.params.legal = true → s.readFfts s.params.nfft = .ok x →
    ∃ u, exec .fft s = .next u
      ∧ u.readFfts s.params.nfft = .ok (fft s.params.trig x)
      ∧ u = { s with mem := u.mem, draws := u.draws, status := { s.status with busy := false } }
      ∧ ∀ a, (a < fftAddr 0 ∨ fftAddr s.params.nfft ≤ a) → u.mem.get a = s.mem.get a

/-- R90, R91, R92: fft of one element is that element; fft of 2m elements, m a power of two, is the butterfly of the
transforms of its even-indexed and odd-indexed elements with the twiddle factor at theta = (NEG_TWO_PI64 * f64(k)) / f64(2m). -/
def Obligations.FftIsTheRadixTwoRecursion : Prop :=
  (∀ (tr : Trig) (z : Cx), fft tr [z] = [z])
    ∧ ∀ (tr : Trig) (j : Nat) (x : List Cx), x.length = 2 * 2 ^ j → ∀ d : Cx,
      let e := fft tr ((List.range (2 ^ j)).map (fun i => x.getD (2 * i) d))
      let o := fft tr ((List.range (2 ^ j)).map (fun i => x.getD (2 * i + 1) d))
      (fft tr x).length = x.length
        ∧ ∀ k, k < 2 ^ j →
          let theta := (negTwoPi64.mul (F64.ofNat k)).div (F64.ofNat x.length)
          let w : Cx := ⟨fcos tr theta, fsin tr theta⟩
          (fft tr x).getD k d = (e.getD k d).add (w.mul (o.getD k d))
            ∧ (fft tr x).getD (k + 2 ^ j) d = (e.getD k d).sub (w.mul (o.getD k d))

/-- R116: PEAKS with f >= FRAMES_T ends in FRAME_RANGE. With f < FRAMES_T and bins 0 .. P_NFFT/2 written, it completes;
entries (f, 0) .. (f, N-1) of table T then hold the extractor's entries, PEAK_COUNT its count, NORM_T is 0, and nothing else
changes. -/
def Obligations.PeaksWritesTheExtractedEntries : Prop :=
  ∀ (s : State) (t : Tab) (f : Nat),
    (s.frames t ≤ f → exec (.peaks t f) s = .next (s.cmdError .frameRange))
      ∧ ∀ x : List Cx, f < s.frames t → s.readFfts (s.params.nfft / 2 + 1) = .ok x →
        let r := extract s.params.nfft (F64.ofWord (s.sr.get t)) s.nvoices.toNat x
        ∃ u, exec (.peaks t f) s = .next u
          ∧ (∀ n, n < s.nvoices.toNat →
              ∃ e, r.1[n]? = some e ∧ u.readFreq t f n = .ok e.freq ∧ u.readAmp t f n = .ok e.amp)
          ∧ u = { s with
              mem := u.mem, draws := u.draws, peakCount := BitVec.ofNat 64 r.2
              status := { s.status with norm := s.status.norm.set t false, busy := false } }
          ∧ ∀ a, (a < atabAddr s.params t f 0 ∨ atabAddr s.params t f s.nvoices.toNat ≤ a) → u.mem.get a = s.mem.get a

/-- R103, R104: the bins the extractor takes for peaks are exactly those of 1 .. K-1 above their left neighbour and not below
their right neighbour, listed in increasing order. -/
def Obligations.PeaksAreTheAsymmetricLocalMaxima : Prop :=
  ∀ (k : Nat) (mag : List F64), mag.length = k + 1 →
    (peakBins k mag).Pairwise (· < ·)
      ∧ ∀ j, j ∈ peakBins k mag ↔
        ∃ l c r, 1 ≤ j ∧ j ≤ k - 1 ∧ mag[j - 1]? = some l ∧ mag[j]? = some c ∧ mag[j + 1]? = some r
          ∧ F64.lt l c = true ∧ F64.le r c = true

/-- R105 (1), (2), which the spec derives from R104: a plateau that follows a strictly lower bin has exactly one peak, its
first bin, and two peaks are never adjacent. -/
def Obligations.APlateauHasOnePeak : Prop :=
  ∀ (k : Nat) (mag : List F64), mag.length = k + 1 →
    (∀ j, j ∈ peakBins k mag → j + 1 ∉ peakBins k mag)
      ∧ ∀ a b, 1 ≤ a → a < b → b ≤ k → a ≤ k - 1 → F64.lt (magAt mag (a - 1)) (magAt mag a) = true →
        (∀ j, a ≤ j → j < b → F64.eq (magAt mag j) (magAt mag (j + 1)) = true) →
        a ∈ peakBins k mag ∧ ∀ j, a < j → j ≤ b → j ∉ peakBins k mag

/-- R107: RANK holds the peaks, each as often as the list does, and every peak stands before those of a smaller magnitude and
those of an equal magnitude in a higher bin. -/
def Obligations.PeaksAreRankedByMagnitudeThenBin : Prop :=
  ∀ (k : Nat) (mag : List F64), mag.length = k + 1 →
    let rank := rankPeaks mag (peakBins k mag)
    List.Perm rank (peakBins k mag)
      ∧ rank.Pairwise (fun i j => F64.lt (magAt mag j) (magAt mag i) = true
          ∨ (F64.eq (magAt mag i) (magAt mag j) = true ∧ i < j))

/-- R102, R106, R108, R109, R110, R115: for every spectrum the extractor returns, in ascending order of frequency, the entries
of the first min(c, N) ranked peaks and N - c sentinels (SR / 2.0, +0.0), N entries in all, and c, the number of peaks. -/
def Obligations.ExtractReturnsNSortedEntries : Prop :=
  ∀ (p : Params) (sr : Word) (n : Nat) (x : List Cx), p.legal = true → legalRate sr = true →
    x.length = p.nfft / 2 + 1 →
    let mag := x.map (fun z => ((z.re.mul z.re).add (z.im.mul z.im)).sqrt)
    let peaks := peakBins (p.nfft / 2) mag
    let r := extract p.nfft (F64.ofWord sr) n x
    r.2 = peaks.length
      ∧ r.1.length = n
      ∧ r.1.Pairwise (fun a b => F64.le a.freq b.freq = true)
      ∧ List.Perm r.1
          (((rankPeaks mag peaks).take n).map (fun j =>
              (⟨((F64.ofNat j).mul (F64.ofWord sr)).div (F64.ofNat p.nfft), magAt mag j⟩ : Entry))
            ++ List.replicate (n - peaks.length) ⟨(F64.ofWord sr).div F64.two, F64.zero⟩)

/-- R122, R126: ANALYZE with WIN_READY = 0 ends in WIN_NOT_READY. With WIN_READY = 1 and WINTAB and every frame's samples
written, it completes; for every frame f and every n < N entry (f, n) of table T is the extractor's for the transform of the
windowed frame, FFTBUF and PEAK_COUNT hold the last frame's if there is a frame, NORM_T is 0, and no register but these and
BUSY changes. -/
def Obligations.AnalyzeAnalysesEveryFrame : Prop :=
  ∀ (s : State) (t : Tab), s.configLegal →
    (s.status.winReady = false → exec (.analyze t) s = .next (s.cmdError .winNotReady))
      ∧ ∀ (w : List F64) (b : Nat → List Cx), s.status.winReady = true → s.readWintab = .ok w →
        (∀ f, f < s.frames t → s.load t f = .ok (b f)) →
        let x := fun f => fft s.params.trig
          (List.zipWith (fun (z : Cx) c => ⟨z.re.mul c, z.im.mul c⟩) (b f) w ++ (b f).drop s.params.win)
        let r := fun f => extract s.params.nfft (F64.ofWord (s.sr.get t)) s.nvoices.toNat (x f)
        ∃ u, exec (.analyze t) s = .next u
          ∧ (∀ f n, f < s.frames t → n < s.nvoices.toNat →
              ∃ e, (r f).1[n]? = some e ∧ u.readFreq t f n = .ok e.freq ∧ u.readAmp t f n = .ok e.amp)
          ∧ (0 < s.frames t → u.readFfts s.params.nfft = .ok (x (s.frames t - 1)))
          ∧ u = { s with
              mem := u.mem, draws := u.draws
              peakCount := if s.frames t = 0 then s.peakCount else BitVec.ofNat 64 (r (s.frames t - 1)).2
              status := { s.status with norm := s.status.norm.set t false, busy := false } }

/-- R127, R128: with the scanned amplitudes written and their maximum m neither 0.0 nor +Inf, NORMALIZE completes; every
scanned AMP is then divided by m, NORM_MAX_T is m, NORM_T is 1, and nothing else changes. -/
def Obligations.NormalizeDividesByTheMaximum : Prop :=
  ∀ (s : State) (t : Tab) (amp : Nat → Nat → F64), s.configLegal →
    (∀ f n, f < s.frames t → n < s.nvoices.toNat → s.readAmp t f n = .ok (amp f n)) →
    let m := scanMax F64.zero ((scanned (s.frames t) s.nvoices.toNat).map (fun e => amp e.1 e.2))
    F64.eq m F64.zero = false → F64.eq m (.num false infMag) = false →
    ∃ u, exec (.normalize t) s = .next u
      ∧ (∀ f n, f < s.frames t → n < s.nvoices.toNat → u.readAmp t f n = .ok ((amp f n).div m))
      ∧ F64.ofWord (u.normMax.get t) = m
      ∧ u = { s with
          mem := u.mem, draws := u.draws, normMax := s.normMax.set t (u.normMax.get t)
          status := { s.status with norm := s.status.norm.set t true, busy := false } }
      ∧ ∀ a, (∀ f n, f < s.frames t → n < s.nvoices.toNat →
          a < atabAddr s.params t f n + 8 ∨ atabAddr s.params t f n + 16 ≤ a) → u.mem.get a = s.mem.get a

/-- R127, R129 (1): the maximum of the scan is +0.0 or one of the amplitudes, it is no NaN, and no amplitude is greater. Where
it is neither 0.0 nor +Inf, the maximum divided by itself is exactly 1.0 and no quotient of the table exceeds 1.0, which the
spec derives. -/
def Obligations.TheScanFindsTheMaximum : Prop :=
  ∀ as : List F64, (∀ a ∈ as, ∃ w, a = F64.ofWord w) →
    let m := scanMax F64.zero as
    (m = F64.zero ∨ m ∈ as) ∧ m ≠ .nan ∧ F64.le F64.zero m = true ∧ (∀ a ∈ as, F64.lt m a = false)
      ∧ (F64.eq m F64.zero = false → F64.eq m (.num false infMag) = false →
          m.div m = F64.one ∧ ∀ a ∈ as, F64.lt F64.one (a.div m) = false)

/-- R130: SYNTH_RESET, the one word 0x20, sets S, PHASE and INC of every voice and OUT_L and OUT_R to zero, and changes nothing
else; its OP with a nonzero bit 8 to 63 is RESERVED_FIELD. -/
def Obligations.SynthResetRestartsTheSession : Prop :=
  (∀ s : State, exec .synthReset s = .next { s with
    s := 0, outL := 0, outR := 0
    voices := s.voices.map (fun v => ⟨v.freq, v.amp, 0, 0⟩)
    status := { s.status with busy := false } })
    ∧ ∀ w : Word, w.toNat % 256 = 0x20 → decode w = if w = 0x20 then .ok .synthReset else .error .reservedField

/-- R131, R132: with FRAME_LIMIT not 0 and its entries written, INTERP completes; FREQ and AMP of every voice n < N are the
blends of frames low and high of table A, the INT_* registers hold t, low, high, uw and lw, and nothing else changes: no byte
of memory, no PHASE or INC, no voice n >= N, not S. -/
def Obligations.InterpInterpolatesTheVoices : Prop :=
  ∀ (s : State) (fl fh al ah : Nat → F64), s.configLegal → s.voices.length = s.params.nmax → s.frameLimit ≠ 0 →
    let t := ((F64.ofNat s.s.toNat).div (F64.ofNat s.sLimit)).mul (F64.ofNat s.frameLimit)
    let low := (min t.floor ((s.frameLimit : Int) - 1)).toNat
    let high := (min (t.floor + 1) ((s.frameLimit : Int) - 1)).toNat
    let uw := t.sub (F64.ofNat low)
    let lw := F64.one.sub uw
    (∀ n, n < s.nvoices.toNat →
      s.readFreq .a low n = .ok (fl n) ∧ s.readFreq .a high n = .ok (fh n)
        ∧ s.readAmp .a low n = .ok (al n) ∧ s.readAmp .a high n = .ok (ah n)) →
    ∃ u, exec .interp s = .next u
      ∧ (∀ n, n < s.nvoices.toNat →
          F64.ofWord (u.voices.getD n Voice.zero).freq = (lw.mul (fl n)).add (uw.mul (fh n))
            ∧ F64.ofWord (u.voices.getD n Voice.zero).amp = (lw.mul (al n)).add (uw.mul (ah n)))
      ∧ (∀ n, (u.voices.getD n Voice.zero).phase = (s.voices.getD n Voice.zero).phase
          ∧ (u.voices.getD n Voice.zero).inc = (s.voices.getD n Voice.zero).inc
          ∧ (s.nvoices.toNat ≤ n → u.voices.getD n Voice.zero = s.voices.getD n Voice.zero))
      ∧ F64.ofWord u.intT = t ∧ u.intLow = BitVec.ofNat 64 low ∧ u.intHigh = BitVec.ofNat 64 high
      ∧ F64.ofWord u.intUw = uw ∧ F64.ofWord u.intLw = lw
      ∧ u = { s with
          voices := u.voices, intT := u.intT, intLow := u.intLow, intHigh := u.intHigh, intUw := u.intUw
          intLw := u.intLw, draws := u.draws, status := { s.status with busy := false } }

/-- R138: for a legal phase, the lookup reads table entries that exist and interpolates between them, the entry after the last
being entry 0. -/
def Obligations.SineLookupInterpolatesTheTable : Prop :=
  ∀ (s : State) (tab : Nat → F64) (ph : Word), s.params.legal = true → legalPhase ph = true →
    (∀ i, i < s.params.sine → s.readSine i = .ok (tab i)) →
    (((F64.ofWord ph).mul (F64.ofNat s.params.sine)).floor).toNat < s.params.sine
      ∧ s.sineLookup (F64.ofWord ph) = .ok (tableLookup tab s.params.sine (F64.ofWord ph))

/-- R139, R140, R141, R142: with SINE_READY = 1, the table written and every increment finite, OSC completes; INC of every
voice n < N is FREQ / ENGINE_SR, PHASE is wrap(PHASE + INC), OUT_L and OUT_R hold the sum of AMP times the lookup of the old
phase, divided by N, and nothing else changes. -/
def Obligations.OscSoundsTheBank : Prop :=
  ∀ (s : State) (tab : Nat → F64), s.configLegal → s.voicesSound → s.status.sineReady = true →
    (∀ i, i < s.params.sine → s.readSine i = .ok (tab i)) →
    let v := fun n => s.voices.getD n Voice.zero
    let inc := fun n => (F64.ofWord (v n).freq).div (F64.ofWord s.params.engineSr)
    (∀ n, n < s.nvoices.toNat → (inc n).isFinite = true) →
    ∃ u, exec .osc s = .next u
      ∧ (∀ n, n < s.nvoices.toNat →
          F64.ofWord (u.voices.getD n Voice.zero).inc = inc n
            ∧ F64.ofWord (u.voices.getD n Voice.zero).phase = wrapPhase ((F64.ofWord (v n).phase).add (inc n)))
      ∧ (∀ n, (u.voices.getD n Voice.zero).freq = (v n).freq ∧ (u.voices.getD n Voice.zero).amp = (v n).amp
          ∧ (s.nvoices.toNat ≤ n → u.voices.getD n Voice.zero = v n))
      ∧ F64.ofWord u.outL
          = (mixedSum (fun n => F64.ofWord (v n).amp)
              (fun n => tableLookup tab s.params.sine (F64.ofWord (v n).phase)) s.nvoices.toNat).div
              (F64.ofNat s.nvoices.toNat)
      ∧ u.outR = u.outL
      ∧ u = { s with
          voices := u.voices, outL := u.outL, outR := u.outR, draws := u.draws
          status := { s.status with busy := false } }

/-- R131, R133, R141: with SINE_READY = 1, FRAME_LIMIT not 0, the table and the entries written and every increment finite,
SYNTH completes: the voices take the interpolated FREQ and AMP, their INC and advanced PHASE, the output is the mixed sum over
N, the INT_* registers hold the interpolation's values, S advances and wraps to 0 at S_LIMIT, and nothing else changes. -/
def Obligations.SynthProducesOneSample : Prop :=
  ∀ (s : State) (tab fl fh al ah : Nat → F64), s.configLegal → s.voicesSound → s.status.sineReady = true →
    s.frameLimit ≠ 0 → (∀ i, i < s.params.sine → s.readSine i = .ok (tab i)) →
    let w := weightsAt s.s.toNat s.sLimit s.frameLimit
    (∀ n, n < s.nvoices.toNat →
      s.readFreq .a w.low n = .ok (fl n) ∧ s.readFreq .a w.high n = .ok (fh n)
        ∧ s.readAmp .a w.low n = .ok (al n) ∧ s.readAmp .a w.high n = .ok (ah n)) →
    let freq := fun n => (w.lw.mul (fl n)).add (w.uw.mul (fh n))
    let amp := fun n => (w.lw.mul (al n)).add (w.uw.mul (ah n))
    let inc := fun n => (freq n).div (F64.ofWord s.params.engineSr)
    (∀ n, n < s.nvoices.toNat → (inc n).isFinite = true) →
    ∃ u, exec .synth s = .next u
      ∧ (∀ n, n < s.nvoices.toNat →
          F64.ofWord (u.voices.getD n Voice.zero).freq = freq n ∧ F64.ofWord (u.voices.getD n Voice.zero).amp = amp n
            ∧ F64.ofWord (u.voices.getD n Voice.zero).inc = inc n
            ∧ F64.ofWord (u.voices.getD n Voice.zero).phase
                = wrapPhase ((F64.ofWord (s.voices.getD n Voice.zero).phase).add (inc n)))
      ∧ (∀ n, s.nvoices.toNat ≤ n → u.voices.getD n Voice.zero = s.voices.getD n Voice.zero)
      ∧ F64.ofWord u.outL
          = (mixedSum amp (fun n => tableLookup tab s.params.sine (F64.ofWord (s.voices.getD n Voice.zero).phase))
              s.nvoices.toNat).div (F64.ofNat s.nvoices.toNat)
      ∧ u.outR = u.outL
      ∧ F64.ofWord u.intT = w.t ∧ u.intLow = BitVec.ofNat 64 w.low ∧ u.intHigh = BitVec.ofNat 64 w.high
      ∧ F64.ofWord u.intUw = w.uw ∧ F64.ofWord u.intLw = w.lw
      ∧ u.s = (if s.s.toNat + 1 = s.sLimit then 0 else BitVec.ofNat 64 (s.s.toNat + 1))
      ∧ u = { s with
          voices := u.voices, outL := u.outL, outR := u.outR, intT := u.intT, intLow := u.intLow
          intHigh := u.intHigh, intUw := u.intUw, intLw := u.intLw, s := u.s, draws := u.draws
          status := { s.status with busy := false } }

/-- R134: INTERP and SYNTH take nothing from table B: two states that differ only in the bytes of ATAB_B answer alike, but
for those bytes. -/
def Obligations.TableBHasNoAudibleEffect : Prop :=
  ∀ (s s' : State), s.configLegal → s.voicesSound → s' = { s with mem := s'.mem } →
    (∀ a, (a < 0x02000000 ∨ 0x03000000 ≤ a) → s'.mem.get a = s.mem.get a) →
    ∀ i : Instr, i = .interp ∨ i = .synth →
      ∀ u, exec i s = .next u → exec i s' = .next { u with mem := s'.mem }

/-! ## Frames: what a command leaves unchanged, whatever its outcome short of a fault -/

/-- R99, R93, R124, R153: LOAD_FRAME, WINDOW and FFT change BUSY, the error recording and the elements of FFTBUF they write
(all P_NFFT, for WINDOW the first P_WIN), and nothing else. -/
def Obligations.BufferCommandsChangeOnlyFftbuf : Prop :=
  ∀ (s u : State) (i : Instr) (n : Nat), s.params.legal = true →
    (i = .window ∧ n = s.params.win) ∨ ((i = .fft ∨ ∃ t f, i = .loadFrame t f) ∧ n = s.params.nfft) →
    exec i s = .next u →
    u = { s with
        mem := u.mem, draws := u.draws
        status := { s.status with
          busy := false, err := u.status.err, errMulti := u.status.errMulti, errcode := u.status.errcode } }
      ∧ ∀ a, (a < fftAddr 0 ∨ fftAddr n ≤ a) → u.mem.get a = s.mem.get a

/-- R116, R126, R128, R153: PEAKS, ANALYZE and NORMALIZE change BUSY, the error recording, NORM_T, and nothing else but
these: PEAKS entries n < N of its frame and PEAK_COUNT; ANALYZE entries n < N of its frames, PEAK_COUNT and, if there is a
frame, FFTBUF; NORMALIZE the AMP of entries n < N of its frames and NORM_MAX_T. -/
def Obligations.TableCommandsChangeOnlyTheirTable : Prop :=
  ∀ (s u : State) (t : Tab), s.params.legal = true →
    let st : Status := { s.status with
      busy := false, norm := s.status.norm.set t (u.status.norm.get t), err := u.status.err
      errMulti := u.status.errMulti, errcode := u.status.errcode }
    (∀ f, exec (.peaks t f) s = .next u →
      u = { s with mem := u.mem, draws := u.draws, peakCount := u.peakCount, status := st }
        ∧ ∀ a, (a < atabAddr s.params t f 0 ∨ atabAddr s.params t f s.nvoices.toNat ≤ a) → u.mem.get a = s.mem.get a)
      ∧ (exec (.analyze t) s = .next u →
          u = { s with mem := u.mem, draws := u.draws, peakCount := u.peakCount, status := st }
            ∧ ∀ a, (∀ f, f < s.frames t →
                  a < atabAddr s.params t f 0 ∨ atabAddr s.params t f s.nvoices.toNat ≤ a) →
                (s.frames t = 0 ∨ a < fftAddr 0 ∨ fftAddr s.params.nfft ≤ a) → u.mem.get a = s.mem.get a)
      ∧ (exec (.normalize t) s = .next u →
          u = { s with
              mem := u.mem, draws := u.draws, normMax := s.normMax.set t (u.normMax.get t), status := st }
            ∧ ∀ a, (∀ f n, f < s.frames t → n < s.nvoices.toNat →
                a < atabAddr s.params t f n + 8 ∨ atabAddr s.params t f n + 16 ≤ a) → u.mem.get a = s.mem.get a)

/-- R132, R133, R142, R153: INTERP, OSC and SYNTH change no byte of memory and no voice n >= N. INTERP changes FREQ and AMP,
the INT_* registers, BUSY and the error recording, and nothing else; OSC changes PHASE and INC, OUT_L, OUT_R, BUSY and the
error recording, and nothing else; SYNTH changes what either changes, and S, and nothing else. -/
def Obligations.SoundCommandsChangeNoMemory : Prop :=
  ∀ s u : State,
    let st : Status := { s.status with
      busy := false, err := u.status.err, errMulti := u.status.errMulti, errcode := u.status.errcode }
    let v := fun n => s.voices.getD n Voice.zero
    let w := fun n => u.voices.getD n Voice.zero
    (∀ i : Instr, (i = .interp ∨ i = .osc ∨ i = .synth) → exec i s = .next u →
      u.mem = s.mem ∧ u.voices.length = s.voices.length ∧ ∀ n, s.nvoices.toNat ≤ n → w n = v n)
      ∧ (exec .interp s = .next u →
          u = { s with
              voices := u.voices, intT := u.intT, intLow := u.intLow, intHigh := u.intHigh, intUw := u.intUw
              intLw := u.intLw, draws := u.draws, status := st }
            ∧ ∀ n, (w n).phase = (v n).phase ∧ (w n).inc = (v n).inc)
      ∧ (exec .osc s = .next u →
          u = { s with voices := u.voices, outL := u.outL, outR := u.outR, draws := u.draws, status := st }
            ∧ ∀ n, (w n).freq = (v n).freq ∧ (w n).amp = (v n).amp)
      ∧ (exec .synth s = .next u →
          u = { s with
              voices := u.voices, outL := u.outL, outR := u.outR, intT := u.intT, intLow := u.intLow
              intHigh := u.intHigh, intUw := u.intUw, intLw := u.intLw, s := u.s, draws := u.draws, status := st })

/-! ## Where a command errs or faults -/

/-- R150, R151: INTERP with FRAME_LIMIT = 0 ends in EMPTY; OSC with SINE_READY = 0 in SINE_NOT_READY; SYNTH with SINE_READY = 0
in SINE_NOT_READY whatever FRAME_LIMIT is, and with SINE_READY = 1 and FRAME_LIMIT = 0 in EMPTY. -/
def Obligations.UnreadyCommandsAreErrors : Prop :=
  ∀ s : State,
    (s.frameLimit = 0 → exec .interp s = .next (s.cmdError .empty))
      ∧ (s.status.sineReady = false →
          exec .osc s = .next (s.cmdError .sineNotReady) ∧ exec .synth s = .next (s.cmdError .sineNotReady))
      ∧ (s.status.sineReady = true → s.frameLimit = 0 → exec .synth s = .next (s.cmdError .empty))

/-- R127: NORMALIZE over a table without a positive amplitude ends in ZERO_MAX, and over one with an infinite amplitude in
NONFINITE; neither changes the table. -/
def Obligations.NormalizeWithoutAUsableMaximumIsAnError : Prop :=
  ∀ (s : State) (t : Tab) (amp : Nat → Nat → F64),
    (∀ f n, f < s.frames t → n < s.nvoices.toNat → s.readAmp t f n = .ok (amp f n)) →
    ((∀ f n, f < s.frames t → n < s.nvoices.toNat → F64.lt F64.zero (amp f n) = false) →
        exec (.normalize t) s = .next (s.cmdError .zeroMax))
      ∧ ((∃ f n, f < s.frames t ∧ n < s.nvoices.toNat ∧ amp f n = .num false infMag) →
        exec (.normalize t) s = .next (s.cmdError .nonfinite))

/-- R133, R141, R142, R150: with SINE_READY = 1, OSC with an increment that is NaN or infinite ends in NONFINITE, before any
table is read, and so does SYNTH with FRAME_LIMIT not 0, its entries written and such an increment of an interpolated
frequency: nothing but the error recording and BUSY changes. -/
def Obligations.ANonfiniteIncrementIsAnError : Prop :=
  ∀ s : State, s.status.sineReady = true →
    ((∃ v ∈ s.voices.take s.nvoices.toNat,
        ((F64.ofWord v.freq).div (F64.ofWord s.params.engineSr)).isFinite = false) →
      exec .osc s = .next (s.cmdError .nonfinite))
      ∧ ∀ fl fh al ah : Nat → F64, s.frameLimit ≠ 0 →
        let w := weightsAt s.s.toNat s.sLimit s.frameLimit
        (∀ n, n < s.nvoices.toNat →
          s.readFreq .a w.low n = .ok (fl n) ∧ s.readFreq .a w.high n = .ok (fh n)
            ∧ s.readAmp .a w.low n = .ok (al n) ∧ s.readAmp .a w.high n = .ok (ah n)) →
        (∃ n, n < s.nvoices.toNat ∧
          (((w.lw.mul (fl n)).add (w.uw.mul (fh n))).div (F64.ofWord s.params.engineSr)).isFinite = false) →
        exec .synth s = .next (s.cmdError .nonfinite)

/-- R51, U1 (log 7): a command faults exactly where it gets to read an element with an unwritten byte, and the fault names that
memory. It never names WINTAB or SINETAB, which WIN_READY and SINE_READY cover, so OSC never faults, and neither do NOP,
BUILD_WINDOW, BUILD_SINE and SYNTH_RESET. -/
def Obligations.CommandsFaultOnlyOnUnwrittenElements : Prop :=
  ∀ s : State, s.configLegal → s.voicesSound → s.windowBuilt → s.sineBuilt →
    ∀ (i : Instr) (sp : Space), exec i s = .fault (.unwritten sp) ↔ s.readsUnwritten sp i

/-! ## The host bus (20_memory.md) -/

/-- R40, R57, R63, R68: outside reset, a misaligned transaction is rejected as MISALIGNED whatever BUSY is; while BUSY = 1
every aligned transaction but a read of STATUS is rejected as BUSY; a read of STATUS returns its word; while BUSY = 0 an
aligned transaction at a reserved register offset, or at any other unmapped one, is rejected as UNMAPPED. -/
def Obligations.BusyMisalignedAndUnmappedAreRejected : Prop :=
  ∀ (s : State) (addr : BitVec 32) (w : Word), s.inReset = false →
    (addr.toNat % 8 ≠ 0 → s.busRead addr = s.readError .misaligned ∧ s.busWrite addr w = s.writeError .misaligned)
      ∧ (addr.toNat % 8 = 0 → s.status.busy = true →
          s.busWrite addr w = s.writeError .busy ∧ (addr ≠ 0x038 → s.busRead addr = s.readError .busy))
      ∧ s.busRead 0x038 = { s with replies := .readOk s.status.toWord :: s.replies }
      ∧ (addr.toNat % 8 = 0 → s.status.busy = false →
          ((0x0E8 ≤ addr.toNat ∧ addr.toNat ≤ 0xFF8) ∨ decodeAddr s.params addr.toNat = none) →
          s.busRead addr = s.readError .unmapped ∧ s.busWrite addr w = s.writeError .unmapped)

/-- R54, R60, R68: outside reset a rejected read is answered (BUSERR, 0) and a rejected write BUSERR, and the transaction changes
nothing but BERR and the responses; an accepted read changes nothing but the responses and the count of free values. Where it is
not the sequencer's turn (log 4) a step is the oldest queued transaction. -/
def Obligations.RejectedTransactionsOnlySetBerr : Prop :=
  (∀ (s : State) (addr : BitVec 32) (w : Word) (c : BusCause), s.inReset = false →
    (∀ d, (s.busRead addr).replies = .readErr c d :: s.replies → d = 0 ∧ s.busRead addr =
        { s with status := { s.status with berr := true }, replies := .readErr c 0 :: s.replies })
      ∧ ((s.busWrite addr w).replies = .writeErr c :: s.replies → s.busWrite addr w =
        { s with status := { s.status with berr := true }, replies := .writeErr c :: s.replies })
      ∧ ∀ d, (s.busRead addr).replies = .readOk d :: s.replies →
        s.busRead addr = { s with replies := .readOk d :: s.replies, draws := (s.busRead addr).draws })
    ∧ ∀ (s : State) (addr : BitVec 32) (w : Word) (o : Bool) (rest : List Input), s.params.legal = true →
      s.sequencerTurn = false →
      (s.inputs = ⟨.read addr, o⟩ :: rest → step s = .next ({ s with inputs := rest }.busRead addr))
        ∧ (s.inputs = ⟨.write addr w, o⟩ :: rest → step s = .next ({ s with inputs := rest }.busWrite addr w))

/-- R62, R64: every element of the voice file and the memories lies at its offset, and the offsets beyond an element count are
unmapped. -/
def Obligations.ElementsLieWhereTheMapSays : Prop :=
  ∀ p : Params, p.legal = true →
    (∀ n, n < p.nmax →
        decodeAddr p (0x1000 + 32 * n) = some (.voice n .freq) ∧ decodeAddr p (0x1000 + 32 * n + 8) = some (.voice n .amp)
          ∧ decodeAddr p (0x1000 + 32 * n + 16) = some (.voice n .phase)
          ∧ decodeAddr p (0x1000 + 32 * n + 24) = some (.voice n .inc))
      ∧ (∀ i d, i < p.nfft → d = 0 ∨ d = 8 → decodeAddr p (0x00100000 + 16 * i + d) = some (.fft (0x00100000 + 16 * i + d)))
      ∧ (∀ i, i < p.win → decodeAddr p (0x00200000 + 8 * i) = some (.wintab (0x00200000 + 8 * i)))
      ∧ (∀ i, i < p.sine → decodeAddr p (0x00280000 + 8 * i) = some (.sinetab (0x00280000 + 8 * i)))
      ∧ (∀ (t : Tab) (f n d : Nat), f < p.fmax → n < p.nmax → d = 0 ∨ d = 8 →
          decodeAddr p (0x01000000 * (1 + t.toNat) + 16 * (f * p.nmax + n) + d)
            = some (.atab t (0x01000000 * (1 + t.toNat) + 16 * (f * p.nmax + n) + d)))
      ∧ (∀ (t : Tab) (i : Nat), i < p.inmax →
          decodeAddr p (0x04000000 * (1 + t.toNat) + 8 * i) = some (.inbuf t (0x04000000 * (1 + t.toNat) + 8 * i)))
      ∧ (∀ a, (0x1000 + 32 * p.nmax ≤ a ∧ a ≤ 0xFFFFF) ∨ (0x00100000 + 16 * p.nfft ≤ a ∧ a ≤ 0x1FFFFF)
            ∨ (0x00200000 + 8 * p.win ≤ a ∧ a ≤ 0x27FFFF) ∨ (0x00280000 + 8 * p.sine ≤ a ∧ a ≤ 0xFFFFFF)
            ∨ (0x01000000 + 16 * (p.fmax * p.nmax) ≤ a ∧ a ≤ 0x1FFFFFF)
            ∨ (0x02000000 + 16 * (p.fmax * p.nmax) ≤ a ∧ a ≤ 0x3FFFFFF)
            ∨ (0x04000000 + 8 * p.inmax ≤ a ∧ a ≤ 0x7FFFFFF) ∨ 0x08000000 + 8 * p.inmax ≤ a →
          decodeAddr p a = none)

/-- R26, R28: while BUSY = 0 any word written to CMD is accepted and issued, and CMD reads as the word it holds, 0 at reset;
while BUSY = 1 a write to CMD is rejected. A write to CLEAR clears the error bits that its bits 0 and 1 select, and CLEAR
reads 0. -/
def Obligations.CmdIssuesAndClearClears : Prop :=
  State.reset.cmd = 0 ∧ ∀ (s : State) (w : Word), s.inReset = false →
    (s.status.busy = true → s.busWrite 0x030 w = s.writeError .busy ∧ s.busWrite 0x040 w = s.writeError .busy)
      ∧ (s.status.busy = false →
        s.busWrite 0x030 w = { s with
            cmd := w, pending := w, status := { s.status with busy := true }, replies := .writeOk :: s.replies }
          ∧ s.busRead 0x030 = { s with replies := .readOk s.cmd :: s.replies }
          ∧ s.busRead 0x040 = { s with replies := .readOk 0 :: s.replies }
          ∧ s.busWrite 0x040 w = { s with
              replies := .writeOk :: s.replies
              status := { s.status with
                err := s.status.err && !w.getLsbD 0
                errMulti := s.status.errMulti && !w.getLsbD 0
                errcode := if w.getLsbD 0 then .none else s.status.errcode
                berr := s.status.berr && !w.getLsbD 1 } })

/-- R29, R30, R31: while BUSY = 0 a legal write to NVOICES, IN_LEN_T or SR_T stores the word with the side effects of its rule,
an illegal one is rejected as ILLEGAL_VALUE, and a read returns the register; the reset values are 1, 0 and 48000.0. -/
def Obligations.ConfigurationWritesAreChecked : Prop :=
  State.reset.nvoices = 1 ∧ (∀ t, State.reset.inLen.get t = 0 ∧ State.reset.sr.get t = 0x40E7700000000000#64)
    ∧ ∀ (s : State) (w : Word) (t : Tab), s.inReset = false → s.status.busy = false →
      (s.busWrite 0x048 w =
          if 1 ≤ w.toNat ∧ w.toNat ≤ s.params.nmax then
            { s with nvoices := w, status := { s.status with norm := ⟨false, false⟩ }, replies := .writeOk :: s.replies }
          else s.writeError .illegalValue)
        ∧ (s.busWrite (BitVec.ofNat 32 (0x050 + 8 * t.toNat)) w =
          if w.toNat ≤ s.params.inmax then
            { s with
              inLen := s.inLen.set t w, s := 0, status := { s.status with norm := s.status.norm.set t false }
              replies := .writeOk :: s.replies }
          else s.writeError .illegalValue)
        ∧ (s.busWrite (BitVec.ofNat 32 (0x060 + 8 * t.toNat)) w =
          if F64.le F64.one (F64.ofWord w) = true ∧ F64.le (F64.ofWord w) (.num false 0x41E0000000000000) = true then
            { s with
              sr := s.sr.set t w, status := { s.status with norm := s.status.norm.set t false }
              replies := .writeOk :: s.replies }
          else s.writeError .illegalValue)
        ∧ s.busRead 0x048 = { s with replies := .readOk s.nvoices :: s.replies }
        ∧ s.busRead (BitVec.ofNat 32 (0x050 + 8 * t.toNat)) = { s with replies := .readOk (s.inLen.get t) :: s.replies }
        ∧ s.busRead (BitVec.ofNat 32 (0x060 + 8 * t.toNat)) = { s with replies := .readOk (s.sr.get t) :: s.replies }

/-- R43, R59, R61, R67: outside reset and while BUSY = 0, a word written to an element of FFTBUF or ATAB reads back; a word
written to an INBUF element reads back with bits 63:32 zero; no byte outside the element changes, and no register but NORM_T,
which is cleared for ATAB_T.
A word written to FREQ or AMP of a voice is stored; one written to PHASE is stored exactly where its bit 63 is 0 and its value
below 1.0, and else rejected as ILLEGAL_VALUE; each field of a voice reads as it is. -/
def Obligations.WrittenElementsReadBack : Prop :=
  ∀ (s : State) (addr : BitVec 32) (w : Word), s.inReset = false → s.status.busy = false → addr.toNat % 8 = 0 →
    (∀ g : Target, decodeAddr s.params addr.toNat = some g →
      (g = .fft addr.toNat ∨ (∃ t, g = .atab t addr.toNat) →
        (s.busWrite addr w).mem.word addr.toNat = some w
          ∧ ((s.busWrite addr w).busRead addr).replies = .readOk w :: .writeOk :: s.replies)
        ∧ ((∃ t, g = .inbuf t addr.toNat) →
          ((s.busWrite addr w).busRead addr).replies
            = .readOk (BitVec.ofNat 64 (w.toNat % 2 ^ 32)) :: .writeOk :: s.replies)
        ∧ (g = .fft addr.toNat ∨ (∃ t, g = .inbuf t addr.toNat) →
          s.busWrite addr w = { s with mem := (s.busWrite addr w).mem, replies := .writeOk :: s.replies })
        ∧ (∀ t, g = .atab t addr.toNat →
          s.busWrite addr w = { s with
              mem := (s.busWrite addr w).mem, replies := .writeOk :: s.replies
              status := { s.status with norm := s.status.norm.set t false } })
        ∧ ∀ a, (a < addr.toNat ∨ addr.toNat + 8 ≤ a) → (s.busWrite addr w).mem.get a = s.mem.get a)
      ∧ (∀ n f, decodeAddr s.params addr.toNat = some (.voice n f) → n < s.voices.length →
        (f = .freq ∨ f = .amp →
          s.busWrite addr w = { s with
              voices := s.voices.set n ((s.voices.getD n Voice.zero).set w f), replies := .writeOk :: s.replies })
          ∧ (f = .phase →
            s.busWrite addr w =
              if w.msb = false ∧ F64.lt (F64.ofWord w) F64.one = true then
                { s with
                  voices := s.voices.set n ((s.voices.getD n Voice.zero).set w .phase), replies := .writeOk :: s.replies }
              else s.writeError .illegalValue)
          ∧ s.busRead addr = { s with replies := .readOk ((s.voices.getD n Voice.zero).get f) :: s.replies })

/-- R21, R65: while BUSY = 0 a write to a read-only register, to V[n].INC, to WINTAB or to SINETAB is rejected as WRITE_RO. -/
def Obligations.ReadOnlyElementsRejectWrites : Prop :=
  ∀ (s : State) (addr : BitVec 32) (w : Word), s.inReset = false → s.status.busy = false → addr.toNat % 8 = 0 →
    (addr.toNat ∈ [0x000, 0x008, 0x010, 0x018, 0x020, 0x028, 0x038, 0x070, 0x078, 0x080, 0x088, 0x090, 0x098, 0x0A0, 0x0A8,
        0x0B0, 0x0B8, 0x0C0, 0x0C8, 0x0D0, 0x0D8, 0x0E0]
      ∨ (∃ n, decodeAddr s.params addr.toNat = some (.voice n .inc))
      ∨ decodeAddr s.params addr.toNat = some (.wintab addr.toNat)
      ∨ decodeAddr s.params addr.toNat = some (.sinetab addr.toNat)) →
    s.busWrite addr w = s.writeError .writeRo

/-- R20, R23, R24, R25, R32 to R39: while BUSY = 0 and outside reset, a read of each read-only register but STATUS at its offset
returns what its rule says and changes nothing but the responses: ID, PARAM0-PARAM3 and ENGINE_SR from the parameters, FRAMES_T,
FRAME_LIMIT and S_LIMIT from IN_LEN, and S, OUT_L, OUT_R, NORM_MAX_T, PEAK_COUNT and INT_* as they are. -/
def Obligations.DerivedRegistersReadAsTheirRules : Prop :=
  ∀ s : State, s.configLegal → s.inReset = false → s.status.busy = false →
    let reads := fun (a : Nat) (w : Word) =>
      s.busRead (BitVec.ofNat 32 a) = { s with replies := .readOk w :: s.replies }
    reads 0x000 0x4953545000070001#64
      ∧ (∃ w, reads 0x008 w ∧ w.toNat = s.params.win * 2 ^ 32 + s.params.nfft)
      ∧ (∃ w, reads 0x010 w ∧ w.toNat = s.params.sine * 2 ^ 32 + s.params.hop)
      ∧ (∃ w, reads 0x018 w ∧ w.toNat = s.params.inmax * 2 ^ 32 + s.params.nmax)
      ∧ (∃ w, reads 0x020 w ∧ w.toNat = s.params.fmax)
      ∧ reads 0x028 s.params.engineSr
      ∧ (∃ (f : AB Word) (fl sl : Word),
          (∀ t : Tab, reads (0x070 + 8 * t.toNat) (f.get t)
            ∧ (f.get t).toNat * s.params.hop < (s.inLen.get t).toNat + s.params.hop
            ∧ (s.inLen.get t).toNat ≤ (f.get t).toNat * s.params.hop ∧ (f.get t).toNat ≤ s.params.fmax)
          ∧ reads 0x080 fl ∧ fl.toNat = min (f.get .a).toNat (f.get .b).toNat
          ∧ reads 0x088 sl ∧ sl.toNat = fl.toNat * s.params.hop)
      ∧ reads 0x090 s.s ∧ reads 0x098 s.outL ∧ reads 0x0A0 s.outR
      ∧ reads 0x0A8 (s.normMax.get .a) ∧ reads 0x0B0 (s.normMax.get .b) ∧ reads 0x0B8 s.peakCount
      ∧ reads 0x0C0 s.intT ∧ reads 0x0C8 s.intLow ∧ reads 0x0D0 s.intHigh ∧ reads 0x0D8 s.intUw ∧ reads 0x0E0 s.intLw

/-- R27, R149: the word of STATUS has each field at its bits, ERRCODE being the code of R149 of its error, and bits 63:16
are 0. -/
def Obligations.StatusWordHasEachFieldAtItsBit : Prop :=
  ∀ st : Status,
    st.toWord.getLsbD 0 = st.busy ∧ st.toWord.getLsbD 1 = st.winReady ∧ st.toWord.getLsbD 2 = st.sineReady
      ∧ st.toWord.getLsbD 3 = st.norm.a ∧ st.toWord.getLsbD 4 = st.norm.b ∧ st.toWord.getLsbD 5 = st.err
      ∧ st.toWord.getLsbD 6 = st.errMulti ∧ st.toWord.getLsbD 7 = st.berr
      ∧ st.toWord.toNat / 2 ^ 8 = match st.errcode with
        | .none => 0x00
        | .illegalOpcode => 0x01
        | .reservedField => 0x02
        | .winNotReady => 0x03
        | .sineNotReady => 0x04
        | .frameRange => 0x05
        | .empty => 0x06
        | .zeroMax => 0x07
        | .nonfinite => 0x08

/-! ## Reset (70_reset_and_hazards.md) -/

/-- R162, R163: asserting reset, whatever the block does, abandons the command and gives every register its reset value and
leaves every memory unwritten, and so it is when reset is released; a transaction issued while reset is asserted gets BUSERR
and changes nothing, BERR included. That the values are taken when reset is asserted, and the marking of the host's inputs, are
the model's choice (logs 3, 4, 13). -/
def Obligations.ResetGivesTheResetState : Prop :=
  (∀ (s : State) (rest : List Input) (o : Bool), s.params.legal = true → s.inputs = ⟨.assertReset, o⟩ :: rest →
    s.sequencerTurn = false → step s = .next { s with inputs := rest }.assertReset)
    ∧ ∀ (s : State) (addr : BitVec 32) (w : Word),
      let r := s.assertReset.releaseReset
      r.cmd = 0 ∧ r.pending = 0 ∧ r.status.toWord = 0 ∧ r.nvoices = 1 ∧ r.inLen = ⟨0, 0⟩
        ∧ r.sr = ⟨0x40E7700000000000#64, 0x40E7700000000000#64⟩ ∧ r.s = 0 ∧ r.outL = 0 ∧ r.outR = 0 ∧ r.normMax = ⟨0, 0⟩
        ∧ r.peakCount = 0 ∧ r.intT = 0 ∧ r.intLow = 0 ∧ r.intHigh = 0 ∧ r.intUw = 0 ∧ r.intLw = 0
        ∧ r.voices = List.replicate s.params.nmax ⟨0, 0, 0, 0⟩ ∧ (∀ a, r.mem.get a = none)
        ∧ r.params = s.params ∧ r.inReset = false
        ∧ s.assertReset.busRead addr = { s.assertReset with replies := .readErr .inReset 0 :: s.replies }
        ∧ s.assertReset.busWrite addr w = { s.assertReset with replies := .writeErr .inReset :: s.replies }

/-! ## Invariants: every step keeps them -/

/-- The memory cells stay in canonical form. -/
def Obligations.StepKeepsMemoryCanonical : Prop :=
  ∀ s t : State, s.memCanonical → step s = .next t → t.memCanonical

/-- R36: OUT_L = OUT_R bit for bit at all times, which the spec derives. -/
def Obligations.StepKeepsTheChannelsEqual : Prop :=
  ∀ s t : State, s.channelsEqual → step s = .next t → t.channelsEqual

/-- R29, R30, R31, R5: the parameters never change, and the configuration registers stay legal. -/
def Obligations.StepKeepsTheConfigurationLegal : Prop :=
  ∀ s t : State, s.configLegal → step s = .next t → t.configLegal ∧ t.params = s.params

/-- R35: S = 0 or S < S_LIMIT, which the spec derives. -/
def Obligations.StepKeepsTheSampleCounterInRange : Prop :=
  ∀ s t : State, s.configLegal → s.sampleInRange → step s = .next t → t.sampleInRange

/-- R41, R53: there are P_NMAX voices, and every PHASE stays in [0, 1) with sign 0, which the spec derives. -/
def Obligations.StepKeepsEveryPhaseInTheUnitInterval : Prop :=
  ∀ s t : State, s.voicesSound → step s = .next t → t.voicesSound

/-- R27, R149, R153: ERRCODE is NONE exactly while ERR = 0, and ERR_MULTI is 0 then. -/
def Obligations.StepKeepsTheErrorRecordSound : Prop :=
  ∀ s t : State, s.errorRecordSound → step s = .next t → t.errorRecordSound

/-- R27, R47, R48, R50: while WIN_READY = 1, WINTAB holds the Hann window, and while SINE_READY = 1, SINETAB holds the sine
table. A step that does not end with reset asserted leaves a ready bit 1 that was 1, so only a reset takes a table away. -/
def Obligations.StepKeepsTheBuiltTables : Prop :=
  ∀ s t : State, s.configLegal → s.windowBuilt ∧ s.sineBuilt → step s = .next t →
    (t.windowBuilt ∧ t.sineBuilt)
      ∧ (t.inReset = false →
        (s.status.winReady = true → t.status.winReady = true)
          ∧ (s.status.sineReady = true → t.status.sineReady = true))

/-- R163: the reset state of every legal instance meets every invariant, and State.reset is that of the default instance, which
is legal (log 2). -/
def Obligations.ResetMeetsTheInvariants : Prop :=
  State.reset = State.resetOf Params.default ∧ Params.default.legal = true
    ∧ ∀ p : Params, p.legal = true →
      let r := State.resetOf p
      r.memCanonical ∧ r.channelsEqual ∧ r.configLegal ∧ r.sampleInRange ∧ r.voicesSound ∧ r.errorRecordSound
        ∧ r.windowBuilt ∧ r.sineBuilt

/-! ## Arithmetic (00_scope.md) -/

/-- R13: f64(k) is the binary64 value equal to k, for every k below 2^53. -/
def Obligations.IntegersConvertExactly : Prop :=
  ∀ k : Nat, k < 2 ^ 53 → (F64.ofNat k).units = (k : Int) * (2 ^ 1074 : Nat) ∧ (F64.ofNat k).isFinite = true

/-- R140: the wrap of a finite p is p - floor64(p), or +0.0 where that is 1.0, and it is +0.0 or a positive value below 1.0. For
p = -0.0, which no phase advance gives, it is +0.0, as for every integral p (log 18). -/
def Obligations.WrappedPhasesLieInTheUnitInterval : Prop :=
  ∀ w b : Word, (F64.ofWord w).isFinite = true →
    let p := F64.ofWord w
    let q := p.sub (F64.ofInt p.floor)
    wrapPhase p = (if p = .num true 0 ∨ F64.eq q F64.one = true then F64.zero else q)
      ∧ legalPhase ((wrapPhase p).toWord b) = true

/-- R16: for every TRIG, FCOS of a zero is 1.0, FSIN of a zero is that zero, FCOS is even and FSIN is odd. -/
def Obligations.TrigIsExactAtZeroAndSymmetric : Prop :=
  ∀ tr : Trig, fcos tr (.num false 0) = F64.one ∧ fcos tr (.num true 0) = F64.one
    ∧ fsin tr (.num false 0) = .num false 0 ∧ fsin tr (.num true 0) = .num true 0
    ∧ ∀ x : F64, fcos tr x.neg = fcos tr x ∧ fsin tr x.neg = (fsin tr x).neg

/-- R11, R12: a comparison with a NaN is false, +0.0 == -0.0, and a NaN is written as some NaN pattern. -/
def Obligations.ComparisonsAreQuietAndNansStayNans : Prop :=
  (∀ x : F64, F64.lt .nan x = false ∧ F64.lt x .nan = false ∧ F64.le .nan x = false ∧ F64.le x .nan = false
    ∧ F64.eq .nan x = false ∧ F64.eq x .nan = false)
    ∧ F64.eq (.num false 0) (.num true 0) = true
    ∧ ∀ b : Word, F64.ofWord (F64.nan.toWord b) = .nan
end

