-- ==== Sys2Proof/Laws/Cells.lean ====
section
/-! SUPPORT. Laws of the memory cells: read after write, the frame of a write, and the canonical form. -/

namespace Sys2Proof.Machine

@[simp] theorem get_nil (x : Nat) : Mem.get [] x = none := rfl

theorem get_cons (c : Host.Cell) (m : Mem) (x : Nat) :
    Mem.get (c :: m) x = if c.1 = x then some c.2 else Mem.get m x := by
  unfold Mem.get
  by_cases h : c.1 = x
  · rw [List.find?_cons_of_pos (by simp [h])]; simp [h]
  · rw [List.find?_cons_of_neg (by simp [h])]; simp [h]

theorem get_append (m n : Mem) (x : Nat) : Mem.get (m ++ n) x = (Mem.get m x).or (Mem.get n x) := by
  induction m with
  | nil => simp
  | cons c m ih => simp only [List.cons_append, get_cons, ih]; split <;> simp

theorem get_filter (p : Nat → Bool) (m : Mem) (x : Nat) :
    Mem.get (m.filter (fun c => p c.1)) x = if p x = true then Mem.get m x else none := by
  induction m with
  | nil => simp
  | cons c m ih =>
    by_cases hc : p c.1 = true
    · rw [List.filter_cons_of_pos (p := fun c : Host.Cell => p c.1) hc, get_cons, get_cons, ih]
      by_cases hx : c.1 = x
      · subst hx; simp [hc]
      · simp [hx]
    · rw [List.filter_cons_of_neg (p := fun c : Host.Cell => p c.1) hc, get_cons, ih]
      by_cases hx : c.1 = x
      · subst hx; simp [hc]
      · simp [hx]

theorem get_cellsFrom (a : Nat) (bs : List Byte) (x : Nat) :
    Mem.get (cellsFrom a bs) x = if a ≤ x then bs[x - a]? else none := by
  induction bs generalizing a with
  | nil => simp [cellsFrom]
  | cons b bs ih =>
    rw [cellsFrom, get_cons, ih]
    rcases Nat.lt_trichotomy a x with h | h | h
    · have h1 : ¬ a = x := by omega
      have h2 : x - a = (x - (a + 1)) + 1 := by omega
      rw [if_neg h1, if_pos (by omega), if_pos (by omega), h2, List.getElem?_cons_succ]
    · subst h; simp
    · rw [if_neg (by omega), if_neg (by omega), if_neg (by omega)]

/-- What a byte reads as after a write, for every list of cells. -/
theorem get_put (m : Mem) (a : Nat) (bs : List Byte) (x : Nat) :
    (m.put a bs).get x = if a ≤ x ∧ x < a + bs.length then bs[x - a]? else m.get x := by
  simp only [Mem.put, get_append, get_cellsFrom,
    get_filter (fun y => decide (y < a)) m x, get_filter (fun y => decide (a + bs.length ≤ y)) m x]
  rcases Nat.lt_or_ge x a with h | h
  · have h1 : ¬ (a ≤ x ∧ x < a + bs.length) := by omega
    have h2 : ¬ a ≤ x := by omega
    have h3 : ¬ a + bs.length ≤ x := by omega
    simp [h, h2, h3]
  · rcases Nat.lt_or_ge x (a + bs.length) with h4 | h4
    · have h5 : ¬ x < a := by omega
      have h6 : ¬ a + bs.length ≤ x := by omega
      simp [h, h4, h5, h6]
    · have h5 : ¬ x < a := by omega
      have h6 : ¬ x < a + bs.length := by omega
      have h7 : bs[x - a]? = none := List.getElem?_eq_none (by omega)
      simp [h, h4, h5, h6, h7]

/-- A write leaves every byte outside its own as it was. -/
theorem get_put_outside {m : Mem} {a : Nat} {bs : List Byte} {x : Nat} (h : x < a ∨ a + bs.length ≤ x) :
    (m.put a bs).get x = m.get x := by
  rw [get_put, if_neg (by omega)]

theorem cellsFrom_addr_ge {a : Nat} {bs : List Byte} {c : Host.Cell} (h : c ∈ cellsFrom a bs) :
    a ≤ c.1 ∧ c.1 < a + bs.length := by
  induction bs generalizing a with
  | nil => cases h
  | cons b bs ih =>
    rcases List.mem_cons.1 h with rfl | h
    · simp
    · have := ih h
      rw [List.length_cons]
      omega

theorem wf_cellsFrom (a : Nat) (bs : List Byte) : Mem.wf (cellsFrom a bs) := by
  induction bs generalizing a with
  | nil => exact List.Pairwise.nil
  | cons b bs ih =>
    refine List.pairwise_cons.2 ⟨fun c hc => ?_, ih (a + 1)⟩
    have := cellsFrom_addr_ge hc
    show a < c.1
    omega

/-- Every write keeps the canonical form. -/
theorem wf_put {m : Mem} (h : Mem.wf m) (a : Nat) (bs : List Byte) : Mem.wf (m.put a bs) := by
  simp only [Mem.put]
  refine List.pairwise_append.2 ⟨List.pairwise_append.2 ⟨h.filter _, wf_cellsFrom a bs, ?_⟩, h.filter _, ?_⟩
  · intro c hc d hd
    have h1 := (List.mem_filter.1 hc).2
    have h2 := cellsFrom_addr_ge hd
    simp only [decide_eq_true_eq] at h1
    omega
  · intro c hc d hd
    have h2 := (List.mem_filter.1 hd).2
    simp only [decide_eq_true_eq] at h2
    rcases List.mem_append.1 hc with hc | hc
    · have h1 := (List.mem_filter.1 hc).2
      simp only [decide_eq_true_eq] at h1
      omega
    · have h1 := cellsFrom_addr_ge hc
      omega

/-! ## Runs of bytes -/

@[simp] theorem length_bytesOf (n v : Nat) : (bytesOf n v).length = n := by
  induction n generalizing v with
  | zero => rfl
  | succ n ih => simp [bytesOf, ih]

theorem numberOf_bytesOf (n v : Nat) : numberOf (bytesOf n v) = v % 256 ^ n := by
  induction n generalizing v with
  | zero => simp [bytesOf, numberOf, Nat.mod_one]
  | succ n ih =>
    have h1 : (256 : Nat) ^ (n + 1) = 256 * 256 ^ n := by rw [Nat.pow_succ, Nat.mul_comm]
    rw [bytesOf, numberOf, ih, BitVec.toNat_ofNat, h1, Nat.mod_mul]

theorem bytes_congr {m m' : Mem} {a n : Nat} (h : ∀ x, a ≤ x → x < a + n → m.get x = m'.get x) :
    m.bytes a n = m'.bytes a n := by
  unfold Mem.bytes
  congr 1
  apply List.map_congr_left
  intro k hk
  exact h _ (by omega) (by have := List.mem_range.1 hk; omega)

theorem word_congr {m m' : Mem} {a : Nat} (h : ∀ x, a ≤ x → x < a + 8 → m.get x = m'.get x) :
    m.word a = m'.word a := by
  unfold Mem.word
  rw [bytes_congr h]

theorem half_congr {m m' : Mem} {a : Nat} (h : ∀ x, a ≤ x → x < a + 4 → m.get x = m'.get x) :
    m.half a = m'.half a := by
  unfold Mem.half
  rw [bytes_congr h]

theorem bytes_put_inside {m : Mem} {a : Nat} {bs : List Byte} {x n : Nat} (h1 : a ≤ x) (h2 : x + n ≤ a + bs.length) :
    (m.put a bs).bytes x n = some ((bs.drop (x - a)).take n) := by
  unfold Mem.bytes
  rw [allSome_eq_some]
  apply List.ext_getElem?
  intro k
  rw [List.getElem?_map, List.getElem?_map]
  rcases Nat.lt_or_ge k n with hk | hk
  · rw [List.getElem?_range hk, Option.map_some, get_put, if_pos (by omega), List.getElem?_take, if_pos hk,
      List.getElem?_drop]
    have h3 : x + k - a = x - a + k := by omega
    have h4 : x - a + k < bs.length := by omega
    rw [h3, List.getElem?_eq_getElem h4, Option.map_some]
  · rw [List.getElem?_eq_none (by simpa using hk), List.getElem?_eq_none (by simp; omega)]
    rfl

theorem bytes_put_outside {m : Mem} {a : Nat} {bs : List Byte} {x n : Nat} (h : x + n ≤ a ∨ a + bs.length ≤ x) :
    (m.put a bs).bytes x n = m.bytes x n :=
  bytes_congr (fun y h1 h2 => get_put_outside (by omega))

/-! ## Words -/

@[simp] theorem length_flatMap_bytesOf (ws : List Word) :
    (ws.flatMap (fun w => bytesOf 8 w.toNat)).length = 8 * ws.length := by
  simp [List.length_flatMap, Nat.mul_comm]

theorem take_drop_flatMap_bytesOf (ws : List Word) (i n : Nat) :
    ((ws.flatMap (fun w => bytesOf 8 w.toNat)).drop (8 * i)).take (8 * n)
      = ((ws.drop i).take n).flatMap (fun w => bytesOf 8 w.toNat) := by
  induction i generalizing ws with
  | zero =>
    simp only [Nat.mul_zero, List.drop_zero]
    induction n generalizing ws with
    | zero => simp
    | succ n ih =>
      cases ws with
      | nil => simp
      | cons w ws =>
        rw [List.flatMap_cons, List.take_succ_cons, List.flatMap_cons, ← ih ws,
          List.take_append, length_bytesOf, List.take_of_length_le (by rw [length_bytesOf]; omega)]
        congr 2
  | succ i ih =>
    cases ws with
    | nil => simp
    | cons w ws =>
      rw [List.flatMap_cons, List.drop_succ_cons, ← ih ws, Nat.mul_succ, Nat.add_comm (8 * i) 8, ← List.drop_drop,
        List.drop_left' (length_bytesOf 8 _)]

theorem numberOf_word (w : Word) : BitVec.ofNat 64 (numberOf (bytesOf 8 w.toNat)) = w := by
  rw [numberOf_bytesOf, Nat.mod_eq_of_lt (by have := w.isLt; omega), BitVec.ofNat_toNat, BitVec.setWidth_eq]

theorem word_put_inside {m : Mem} {a : Nat} {ws : List Word} {i : Nat} (h : i < ws.length) :
    (m.putWords a ws).word (a + 8 * i) = some ws[i] := by
  unfold Mem.putWords Mem.word
  rw [bytes_put_inside (by omega) (by rw [length_flatMap_bytesOf]; omega)]
  have h1 : a + 8 * i - a = 8 * i := by omega
  have h2 := take_drop_flatMap_bytesOf ws i 1
  have h3 : (ws.drop i).take 1 = [ws[i]] := by
    rw [List.drop_eq_getElem_cons h, List.take_succ_cons, List.take_zero]
  rw [h3, Nat.mul_one] at h2
  rw [h1, h2]
  simp [numberOf_word]

theorem word_put_outside {m : Mem} {a : Nat} {ws : List Word} {x : Nat} (h : x + 8 ≤ a ∨ a + 8 * ws.length ≤ x) :
    (m.putWords a ws).word x = m.word x := by
  unfold Mem.putWords Mem.word
  rw [bytes_put_outside (by rw [length_flatMap_bytesOf]; omega)]

theorem get_putWords_outside {m : Mem} {a : Nat} {ws : List Word} {x : Nat} (h : x < a ∨ a + 8 * ws.length ≤ x) :
    (m.putWords a ws).get x = m.get x := by
  unfold Mem.putWords
  rw [get_put_outside (by rw [length_flatMap_bytesOf]; omega)]

theorem wf_putWords {m : Mem} (h : Mem.wf m) (a : Nat) (ws : List Word) : Mem.wf (m.putWords a ws) := wf_put h a _

theorem wf_putHalf {m : Mem} (h : Mem.wf m) (a : Nat) (v : BitVec 32) : Mem.wf (m.putHalf a v) := wf_put h a _

theorem half_put_same (m : Mem) (a : Nat) (v : BitVec 32) : (m.putHalf a v).half a = some v := by
  unfold Mem.putHalf Mem.half
  rw [bytes_put_inside (by omega) (by rw [length_bytesOf])]
  simp only [Nat.sub_self, List.drop_zero, Option.map_some, Option.some.injEq]
  rw [List.take_of_length_le (by rw [length_bytesOf]), numberOf_bytesOf, Nat.mod_eq_of_lt (by have := v.isLt; omega)]
  simp

theorem get_putHalf_outside {m : Mem} {a : Nat} {v : BitVec 32} {x : Nat} (h : x < a ∨ a + 4 ≤ x) :
    (m.putHalf a v).get x = m.get x := by
  unfold Mem.putHalf
  rw [get_put_outside (by rw [length_bytesOf]; omega)]

/-! ## Many elements -/

theorem elems_congr {m m' : Mem} {a stride width n : Nat} (hw : width ≤ stride)
    (h : ∀ x, a ≤ x → x < a + stride * n → m.get x = m'.get x) : m.elems a stride width n = m'.elems a stride width n := by
  unfold Mem.elems
  congr 1
  apply List.map_congr_left
  intro i hi
  have hi := List.mem_range.1 hi
  have h1 := Nat.mul_le_mul_left stride (Nat.succ_le_of_lt hi)
  rw [Nat.succ_eq_add_one, Nat.mul_add, Nat.mul_one] at h1
  exact bytes_congr (fun x h2 h3 => h x (by omega) (by omega))

/-- The elements that `n` written words make when read `k` words at a time. -/
theorem elems_putWords (m : Mem) (a k n : Nat) (ws : List Word) (h : ws.length = k * n) :
    (m.putWords a ws).elems a (8 * k) (8 * k) n
      = some ((List.range n).map (fun i => ((ws.drop (k * i)).take k).flatMap (fun w => bytesOf 8 w.toNat))) := by
  unfold Mem.elems
  rw [allSome_eq_some, List.map_map]
  apply List.map_congr_left
  intro i hi
  have hi := List.mem_range.1 hi
  have h1 := Nat.mul_le_mul_left k (Nat.succ_le_of_lt hi)
  rw [Nat.succ_eq_add_one, Nat.mul_add, Nat.mul_one] at h1
  unfold Mem.putWords
  have h2 : 8 * k * i = 8 * (k * i) := by rw [Nat.mul_assoc]
  rw [bytes_put_inside (by omega) (by rw [length_flatMap_bytesOf, h]; omega)]
  have h3 : a + 8 * k * i - a = 8 * (k * i) := by omega
  rw [h3, take_drop_flatMap_bytesOf]
  rfl

end Sys2Proof.Machine
end

