-- ==== Sys2Proof/Laws/Float.lean ====
section
/-! SUPPORT. Laws of the binary64 arithmetic: results are binary64 values, a value survives being written and read, and the
bounds of a rounding at 1.0. -/

namespace Sys2Proof.Machine

set_option exponentiation.threshold 1100

/-- A value whose magnitude pattern is one of a binary64: at most that of an infinity. -/
def F64.valid (x : F64) : Prop := ∀ neg m, x = .num neg m → m ≤ infMag

theorem valid_nan : F64.nan.valid := fun _ _ h => F64.noConfusion h

theorem valid_num {neg : Bool} {m : Nat} (h : m ≤ infMag) : (F64.num neg m).valid := by
  intro n k hk
  injection hk with h1 h2
  exact h2 ▸ h

theorem infMag_eq : infMag = 2047 * 2 ^ 52 := by decide

theorem infMag_lt : infMag < 2 ^ 63 := by decide

theorem roundMag_le (n d : Nat) : roundMag n d ≤ infMag := Nat.min_le_right _ _

theorem divTiesEven_le {n d b : Nat} (hd : 0 < d) (h : n ≤ d * b) : divTiesEven n d ≤ b := by
  unfold divTiesEven
  have h1 := Nat.div_add_mod n d
  have h2 := Nat.mod_lt n hd
  dsimp only
  rcases Nat.lt_or_ge (n / d) b with h3 | h3
  · split
    · omega
    · split <;> omega
  · have h4 : n / d ≤ b := by
      have := Nat.div_le_div_right (c := d) h
      rwa [Nat.mul_div_cancel_left _ hd] at this
    have h5 : n / d = b := by omega
    have h6 : n % d = 0 := by
      rw [h5] at h1
      omega
    rw [h6, if_pos (by omega)]
    exact h4

/-- The exponent step of `roundMag`. -/
theorem roundMag_exp_bound {n d : Nat} (hd : 0 < d) :
    n < d * 2 ^ ((n / d).log2 - 52) * 2 ^ 53 := by
  have h1 := Nat.div_add_mod n d
  have h2 := Nat.mod_lt n hd
  have h3 : n / d < 2 ^ ((n / d).log2 + 1) := Nat.lt_log2_self
  have h4 : (2 : Nat) ^ ((n / d).log2 + 1) ≤ 2 ^ (((n / d).log2 - 52) + 53) :=
    Nat.pow_le_pow_right (by omega) (by omega)
  have h5 : d * (n / d + 1) ≤ d * 2 ^ (((n / d).log2 - 52) + 53) := Nat.mul_le_mul_left d (by omega)
  rw [Nat.pow_add, ← Nat.mul_assoc] at h5
  rw [Nat.mul_add, Nat.mul_one] at h5
  omega

theorem exp_one_split : (2 : Nat) ^ 1074 = 2 ^ 1022 * 2 ^ 52 := by
  have h : (1074 : Nat) = 1022 + 52 := rfl
  rw [h, Nat.pow_add]

/-- A rational at most 1.0 rounds to a magnitude at most that of 1.0. -/
theorem roundMag_le_one {n d : Nat} (hd : 0 < d) (h : n ≤ d * 2 ^ 1074) : roundMag n d ≤ 0x3FF0000000000000 := by
  refine Nat.le_trans (Nat.min_le_left _ _) ?_
  have hk : n / d ≤ 2 ^ 1074 := by
    have := Nat.div_le_div_right (c := d) h
    rwa [Nat.mul_div_cancel_left _ hd] at this
  rcases Nat.lt_or_ge (n / d) (2 ^ 1074) with hlt | hge
  · have he : (n / d).log2 - 52 ≤ 1021 := by
      rcases Nat.eq_zero_or_pos (n / d) with h0 | h0
      · rw [h0]; simp
      · have := (Nat.log2_lt (by omega)).2 hlt
        omega
    have hm := divTiesEven_le (b := 2 ^ 53) (Nat.mul_pos hd (Nat.two_pow_pos ((n / d).log2 - 52)))
      (Nat.le_of_lt (roundMag_exp_bound (n := n) hd))
    generalize divTiesEven n (d * 2 ^ ((n / d).log2 - 52)) = q at hm ⊢
    generalize (n / d).log2 - 52 = e at he ⊢
    clear h hk hlt
    omega
  · have hq : n / d = 2 ^ 1074 := Nat.le_antisymm hk hge
    have hn : n = d * 2 ^ 1074 := by
      have h1 := Nat.div_add_mod n d
      rw [hq] at h1
      omega
    have hd2 : 0 < d * 2 ^ 1022 := Nat.mul_pos hd (Nat.two_pow_pos _)
    have hm : divTiesEven n (d * 2 ^ 1022) ≤ 2 ^ 52 := by
      refine divTiesEven_le hd2 ?_
      rw [hn, exp_one_split, Nat.mul_assoc]
    rw [hq, Nat.log2_two_pow]
    have h8 : (1074 - 52 : Nat) = 1022 := rfl
    rw [h8]
    clear hd2 hn hq hge hk h
    omega

/-- 1.0 rounds to 1.0. -/
theorem roundMag_one {d : Nat} (hd : 0 < d) : roundMag (d * 2 ^ 1074) d = 0x3FF0000000000000 := by
  unfold roundMag
  have hq : d * 2 ^ 1074 / d = 2 ^ 1074 := Nat.mul_div_cancel_left _ hd
  rw [hq, Nat.log2_two_pow]
  have h8 : (1074 - 52 : Nat) = 1022 := rfl
  rw [h8]
  have hm : divTiesEven (d * 2 ^ 1074) (d * 2 ^ 1022) = 2 ^ 52 := by
    have h9 : d * 2 ^ 1074 = d * 2 ^ 1022 * 2 ^ 52 := by rw [exp_one_split, Nat.mul_assoc]
    have hd2 : 0 < d * 2 ^ 1022 := Nat.mul_pos hd (Nat.two_pow_pos _)
    unfold divTiesEven
    dsimp only
    rw [h9, Nat.mul_mod_right, Nat.mul_div_cancel_left _ hd2, if_pos (by omega)]
  dsimp only
  rw [hm]
  decide

/-! ## Results are binary64 values -/

theorem ofWord_valid (w : Word) : (F64.ofWord w).valid := by
  unfold F64.ofWord
  dsimp only
  split
  · exact valid_nan
  · exact valid_num (Nat.le_of_not_lt ‹_›)

theorem ofUnits_valid (z : Int) (b : Bool) : (F64.ofUnits z b).valid := by
  unfold F64.ofUnits
  split
  · exact valid_num (Nat.zero_le _)
  · exact valid_num (roundMag_le _ _)

theorem ofNat_valid (k : Nat) : (F64.ofNat k).valid := valid_num (roundMag_le _ _)

theorem neg_valid {x : F64} (h : x.valid) : x.neg.valid := by
  cases x
  · exact valid_nan
  · exact valid_num (h _ _ rfl)

theorem add_valid (x y : F64) : (x.add y).valid := by
  unfold F64.add
  split
  · exact valid_nan
  · exact valid_nan
  · split
    · split
      · exact valid_nan
      · exact valid_num (Nat.le_refl _)
    · split
      · exact valid_num (Nat.le_refl _)
      · exact ofUnits_valid _ _

theorem sub_valid (x y : F64) : (x.sub y).valid := add_valid _ _

theorem mul_valid (x y : F64) : (x.mul y).valid := by
  unfold F64.mul
  split
  · exact valid_nan
  · exact valid_nan
  · split
    · split
      · exact valid_nan
      · exact valid_num (Nat.le_refl _)
    · split
      · split
        · exact valid_nan
        · exact valid_num (Nat.le_refl _)
      · exact valid_num (roundMag_le _ _)

theorem div_valid (x y : F64) : (x.div y).valid := by
  unfold F64.div
  split
  · exact valid_nan
  · exact valid_nan
  · split
    · split
      · exact valid_nan
      · exact valid_num (Nat.le_refl _)
    · split
      · exact valid_num (Nat.zero_le _)
      · split
        · split
          · exact valid_nan
          · exact valid_num (Nat.le_refl _)
        · exact valid_num (roundMag_le _ _)

theorem sqrt_valid (x : F64) : x.sqrt.valid := by
  unfold F64.sqrt
  split
  · exact valid_nan
  · split
    · exact valid_num (Nat.zero_le _)
    · split
      · exact valid_nan
      · split
        · exact valid_num (Nat.le_refl _)
        · exact valid_num (roundMag_le _ _)

theorem ofBinary32_valid (b : BitVec 32) : (F64.ofBinary32 b).valid := by
  unfold F64.ofBinary32
  dsimp only
  split
  · split
    · exact valid_num (Nat.le_refl _)
    · exact valid_nan
  · split <;> exact valid_num (roundMag_le _ _)

theorem zero_valid : F64.zero.valid := valid_num (Nat.zero_le _)

theorem ofFixed_valid (z : Int) (b : Nat) : (F64.ofFixed z b).valid := by
  unfold F64.ofFixed
  split
  · exact valid_num (Nat.zero_le _)
  · exact valid_num (roundMag_le _ _)

theorem cosMag_valid (m : Nat) : (cosMag m).valid := by
  unfold cosMag
  split
  · exact valid_num (by decide)
  · exact ofFixed_valid _ _

theorem sinMag_valid (m : Nat) : (sinMag m).valid := by
  unfold sinMag
  split
  · rename_i h
    exact valid_num (Nat.le_trans (Nat.le_of_lt h) (by decide))
  · exact ofFixed_valid _ _

theorem trigChoose_valid {b : Bool} {y d : F64} (hy : y.valid) (hd : d.valid) : (trigChoose b y d).valid := by
  unfold trigChoose
  split <;> assumption

theorem fcosMag_valid (tr : Trig) (m : Nat) : (fcosMag tr m).valid := by
  unfold fcosMag
  split
  · exact cosMag_valid m
  · split
    · exact valid_num (by decide)
    · exact trigChoose_valid (ofWord_valid _) (cosMag_valid m)

theorem fsinMag_valid (tr : Trig) (m : Nat) : (fsinMag tr m).valid := by
  unfold fsinMag
  split
  · exact sinMag_valid m
  · split
    · exact zero_valid
    · exact trigChoose_valid (ofWord_valid _) (sinMag_valid m)

theorem fcos_valid (tr : Trig) (x : F64) : (fcos tr x).valid := by
  unfold fcos
  split
  · exact valid_nan
  · split
    · exact fcosMag_valid _ _
    · exact valid_nan

theorem fsin_valid (tr : Trig) (x : F64) : (fsin tr x).valid := by
  unfold fsin
  split
  · exact valid_nan
  · split
    · split
      · exact neg_valid (fsinMag_valid _ _)
      · exact fsinMag_valid _ _
    · exact valid_nan

/-! ## Writing and reading a value -/

theorem or_exp_eq (x : Nat) : (x ||| 0x7FF0000000000000) % 2 ^ 63 = 2047 * 2 ^ 52 + x % 2 ^ 52 := by
  have hc : (0x7FF0000000000000 : Nat) = 2047 <<< 52 := by decide
  have hs : 2047 * 2 ^ 52 + x % 2 ^ 52 = 2047 <<< 52 ||| x % 2 ^ 52 := by
    rw [← Nat.shiftLeft_add_eq_or_of_lt (Nat.mod_lt _ (Nat.two_pow_pos 52)), Nat.shiftLeft_eq]
  rw [hs, hc]
  apply Nat.eq_of_testBit_eq
  intro i
  have h11 : ∀ j, Nat.testBit 2047 j = decide (j < 11) := fun j => Nat.testBit_two_pow_sub_one 11 j
  rw [Nat.testBit_mod_two_pow, Nat.testBit_or, Nat.testBit_or, Nat.testBit_shiftLeft, Nat.testBit_mod_two_pow, h11]
  generalize x.testBit i = b
  rcases Nat.lt_or_ge i 52 with h1 | h1
  · have h2 : i < 63 := by omega
    have h3 : ¬ i ≥ 52 := by omega
    simp [h1, h2, h3]
  · have h3 : ¬ i < 52 := by omega
    rcases Nat.lt_or_ge i 63 with h2 | h2
    · have h4 : i - 52 < 11 := by omega
      simp [h1, h2, h3, h4]
    · have h4 : ¬ i - 52 < 11 := by omega
      have h5 : ¬ i < 63 := by omega
      simp [h3, h4, h5]

theorem nanPattern_isNan (w : Word) : F64.ofWord (nanPattern w) = .nan := by
  have hm : ∀ v : Word, v &&& 0x000FFFFFFFFFFFFF#64 = 0#64 ↔ v.toNat % 2 ^ 52 = 0 := by
    intro v
    rw [← BitVec.toNat_inj, BitVec.toNat_and]
    have h : (0x000FFFFFFFFFFFFF#64 : BitVec 64).toNat = 2 ^ 52 - 1 := by decide
    rw [h, Nat.and_two_pow_sub_one_eq_mod]
    rfl
  have hv : ∀ v : Word, infMag < v.toNat % 2 ^ 63 → F64.ofWord v = .nan := by
    intro v hv
    unfold F64.ofWord
    dsimp only
    rw [if_pos hv]
  have hor : (w ||| 0x7FF0000000000000#64).toNat = w.toNat ||| 0x7FF0000000000000 := by
    rw [BitVec.toNat_or]
    rfl
  unfold nanPattern
  dsimp only
  split
  · apply hv
    have h1 : ((w ||| 0x7FF0000000000000#64) ||| 1#64).toNat = (w.toNat ||| 1) ||| 0x7FF0000000000000 := by
      rw [BitVec.toNat_or, hor, Nat.lor_assoc, Nat.lor_assoc, Nat.lor_comm 0x7FF0000000000000]
      rfl
    rw [h1, or_exp_eq, infMag_eq]
    have h2 : 0 < (w.toNat ||| 1) % 2 ^ 52 := by
      apply Nat.pos_of_ne_zero
      intro h
      have h3 := congrArg (fun n => Nat.testBit n 0) h
      simp at h3
    omega
  · rename_i h
    rw [hm] at h
    apply hv
    rw [hor, or_exp_eq, infMag_eq]
    rw [hor] at h
    have h3 := or_exp_eq w.toNat
    have h4 : (w.toNat ||| 0x7FF0000000000000) % 2 ^ 52 = w.toNat % 2 ^ 52 := by
      have := Nat.mod_mod_of_dvd (w.toNat ||| 0x7FF0000000000000) (show (2 : Nat) ^ 52 ∣ 2 ^ 63 by decide)
      rw [← this, h3, Nat.mul_comm 2047, Nat.mul_add_mod, Nat.mod_mod]
    omega

/-- A binary64 value written with any NaN bits reads back as itself. -/
theorem ofWord_toWord {x : F64} (h : x.valid) (b : Word) : F64.ofWord (x.toWord b) = x := by
  cases x with
  | nan => exact nanPattern_isNan b
  | num neg m =>
    have hm : m ≤ infMag := h _ _ rfl
    have h63 := infMag_lt
    unfold F64.toWord F64.ofWord
    dsimp only
    have ht : (BitVec.ofNat 64 ((if neg then 2 ^ 63 else 0) + m)).toNat = (if neg then 2 ^ 63 else 0) + m := by
      rw [BitVec.toNat_ofNat]
      apply Nat.mod_eq_of_lt
      split <;> omega
    rw [ht]
    have hr : ((if neg = true then 2 ^ 63 else 0) + m) % 2 ^ 63 = m := by
      split
      · rw [Nat.add_mod_left]
        exact Nat.mod_eq_of_lt (by omega)
      · rw [Nat.zero_add]
        exact Nat.mod_eq_of_lt (by omega)
    rw [hr, if_neg (by omega), BitVec.msb_eq_decide, ht]
    congr 1
    cases neg
    · simp; omega
    · simp

end Sys2Proof.Machine
end

