-- ==== Sys2Proof/Laws/State.lean ====
section
/-! SUPPORT. What each named update does to each field of the state: one lemma per field per update, so that no proof unfolds a
record update. -/

namespace Sys2Proof.Machine

variable (s : State)


/-! ## complete -/

@[simp] theorem complete_params : s.complete.params = s.params := rfl
@[simp] theorem complete_cmd : s.complete.cmd = s.cmd := rfl
@[simp] theorem complete_pending : s.complete.pending = s.pending := rfl
@[simp] theorem complete_status : s.complete.status = s.status.clearBusy := rfl
@[simp] theorem complete_nvoices : s.complete.nvoices = s.nvoices := rfl
@[simp] theorem complete_inLen : s.complete.inLen = s.inLen := rfl
@[simp] theorem complete_sr : s.complete.sr = s.sr := rfl
@[simp] theorem complete_s : s.complete.s = s.s := rfl
@[simp] theorem complete_outL : s.complete.outL = s.outL := rfl
@[simp] theorem complete_outR : s.complete.outR = s.outR := rfl
@[simp] theorem complete_normMax : s.complete.normMax = s.normMax := rfl
@[simp] theorem complete_peakCount : s.complete.peakCount = s.peakCount := rfl
@[simp] theorem complete_intT : s.complete.intT = s.intT := rfl
@[simp] theorem complete_intLow : s.complete.intLow = s.intLow := rfl
@[simp] theorem complete_intHigh : s.complete.intHigh = s.intHigh := rfl
@[simp] theorem complete_intUw : s.complete.intUw = s.intUw := rfl
@[simp] theorem complete_intLw : s.complete.intLw = s.intLw := rfl
@[simp] theorem complete_voices : s.complete.voices = s.voices := rfl
@[simp] theorem complete_mem : s.complete.mem = s.mem := rfl
@[simp] theorem complete_inReset : s.complete.inReset = s.inReset := rfl
@[simp] theorem complete_inputs : s.complete.inputs = s.inputs := rfl
@[simp] theorem complete_replies : s.complete.replies = s.replies := rfl
@[simp] theorem complete_draws : s.complete.draws = s.draws := rfl

/-! ## cmdError -/

@[simp] theorem cmdError_params (c : ErrCode) : (s.cmdError c).params = s.params := rfl
@[simp] theorem cmdError_cmd (c : ErrCode) : (s.cmdError c).cmd = s.cmd := rfl
@[simp] theorem cmdError_pending (c : ErrCode) : (s.cmdError c).pending = s.pending := rfl
@[simp] theorem cmdError_status (c : ErrCode) : (s.cmdError c).status = s.status.recordError c := rfl
@[simp] theorem cmdError_nvoices (c : ErrCode) : (s.cmdError c).nvoices = s.nvoices := rfl
@[simp] theorem cmdError_inLen (c : ErrCode) : (s.cmdError c).inLen = s.inLen := rfl
@[simp] theorem cmdError_sr (c : ErrCode) : (s.cmdError c).sr = s.sr := rfl
@[simp] theorem cmdError_s (c : ErrCode) : (s.cmdError c).s = s.s := rfl
@[simp] theorem cmdError_outL (c : ErrCode) : (s.cmdError c).outL = s.outL := rfl
@[simp] theorem cmdError_outR (c : ErrCode) : (s.cmdError c).outR = s.outR := rfl
@[simp] theorem cmdError_normMax (c : ErrCode) : (s.cmdError c).normMax = s.normMax := rfl
@[simp] theorem cmdError_peakCount (c : ErrCode) : (s.cmdError c).peakCount = s.peakCount := rfl
@[simp] theorem cmdError_intT (c : ErrCode) : (s.cmdError c).intT = s.intT := rfl
@[simp] theorem cmdError_intLow (c : ErrCode) : (s.cmdError c).intLow = s.intLow := rfl
@[simp] theorem cmdError_intHigh (c : ErrCode) : (s.cmdError c).intHigh = s.intHigh := rfl
@[simp] theorem cmdError_intUw (c : ErrCode) : (s.cmdError c).intUw = s.intUw := rfl
@[simp] theorem cmdError_intLw (c : ErrCode) : (s.cmdError c).intLw = s.intLw := rfl
@[simp] theorem cmdError_voices (c : ErrCode) : (s.cmdError c).voices = s.voices := rfl
@[simp] theorem cmdError_mem (c : ErrCode) : (s.cmdError c).mem = s.mem := rfl
@[simp] theorem cmdError_inReset (c : ErrCode) : (s.cmdError c).inReset = s.inReset := rfl
@[simp] theorem cmdError_inputs (c : ErrCode) : (s.cmdError c).inputs = s.inputs := rfl
@[simp] theorem cmdError_replies (c : ErrCode) : (s.cmdError c).replies = s.replies := rfl
@[simp] theorem cmdError_draws (c : ErrCode) : (s.cmdError c).draws = s.draws := rfl

/-! ## reply -/

@[simp] theorem reply_params (r : Reply) : (s.reply r).params = s.params := rfl
@[simp] theorem reply_cmd (r : Reply) : (s.reply r).cmd = s.cmd := rfl
@[simp] theorem reply_pending (r : Reply) : (s.reply r).pending = s.pending := rfl
@[simp] theorem reply_status (r : Reply) : (s.reply r).status = s.status := rfl
@[simp] theorem reply_nvoices (r : Reply) : (s.reply r).nvoices = s.nvoices := rfl
@[simp] theorem reply_inLen (r : Reply) : (s.reply r).inLen = s.inLen := rfl
@[simp] theorem reply_sr (r : Reply) : (s.reply r).sr = s.sr := rfl
@[simp] theorem reply_s (r : Reply) : (s.reply r).s = s.s := rfl
@[simp] theorem reply_outL (r : Reply) : (s.reply r).outL = s.outL := rfl
@[simp] theorem reply_outR (r : Reply) : (s.reply r).outR = s.outR := rfl
@[simp] theorem reply_normMax (r : Reply) : (s.reply r).normMax = s.normMax := rfl
@[simp] theorem reply_peakCount (r : Reply) : (s.reply r).peakCount = s.peakCount := rfl
@[simp] theorem reply_intT (r : Reply) : (s.reply r).intT = s.intT := rfl
@[simp] theorem reply_intLow (r : Reply) : (s.reply r).intLow = s.intLow := rfl
@[simp] theorem reply_intHigh (r : Reply) : (s.reply r).intHigh = s.intHigh := rfl
@[simp] theorem reply_intUw (r : Reply) : (s.reply r).intUw = s.intUw := rfl
@[simp] theorem reply_intLw (r : Reply) : (s.reply r).intLw = s.intLw := rfl
@[simp] theorem reply_voices (r : Reply) : (s.reply r).voices = s.voices := rfl
@[simp] theorem reply_mem (r : Reply) : (s.reply r).mem = s.mem := rfl
@[simp] theorem reply_inReset (r : Reply) : (s.reply r).inReset = s.inReset := rfl
@[simp] theorem reply_inputs (r : Reply) : (s.reply r).inputs = s.inputs := rfl
@[simp] theorem reply_replies (r : Reply) : (s.reply r).replies = r :: s.replies := rfl
@[simp] theorem reply_draws (r : Reply) : (s.reply r).draws = s.draws := rfl

/-! ## accept -/

@[simp] theorem accept_params : s.accept.params = s.params := rfl
@[simp] theorem accept_cmd : s.accept.cmd = s.cmd := rfl
@[simp] theorem accept_pending : s.accept.pending = s.pending := rfl
@[simp] theorem accept_status : s.accept.status = s.status := rfl
@[simp] theorem accept_nvoices : s.accept.nvoices = s.nvoices := rfl
@[simp] theorem accept_inLen : s.accept.inLen = s.inLen := rfl
@[simp] theorem accept_sr : s.accept.sr = s.sr := rfl
@[simp] theorem accept_s : s.accept.s = s.s := rfl
@[simp] theorem accept_outL : s.accept.outL = s.outL := rfl
@[simp] theorem accept_outR : s.accept.outR = s.outR := rfl
@[simp] theorem accept_normMax : s.accept.normMax = s.normMax := rfl
@[simp] theorem accept_peakCount : s.accept.peakCount = s.peakCount := rfl
@[simp] theorem accept_intT : s.accept.intT = s.intT := rfl
@[simp] theorem accept_intLow : s.accept.intLow = s.intLow := rfl
@[simp] theorem accept_intHigh : s.accept.intHigh = s.intHigh := rfl
@[simp] theorem accept_intUw : s.accept.intUw = s.intUw := rfl
@[simp] theorem accept_intLw : s.accept.intLw = s.intLw := rfl
@[simp] theorem accept_voices : s.accept.voices = s.voices := rfl
@[simp] theorem accept_mem : s.accept.mem = s.mem := rfl
@[simp] theorem accept_inReset : s.accept.inReset = s.inReset := rfl
@[simp] theorem accept_inputs : s.accept.inputs = s.inputs := rfl
@[simp] theorem accept_replies : s.accept.replies = .writeOk :: s.replies := rfl
@[simp] theorem accept_draws : s.accept.draws = s.draws := rfl

/-! ## readError -/

@[simp] theorem readError_params (c : BusCause) : (s.readError c).params = s.params := rfl
@[simp] theorem readError_cmd (c : BusCause) : (s.readError c).cmd = s.cmd := rfl
@[simp] theorem readError_pending (c : BusCause) : (s.readError c).pending = s.pending := rfl
@[simp] theorem readError_status (c : BusCause) : (s.readError c).status = s.status.setBerr := rfl
@[simp] theorem readError_nvoices (c : BusCause) : (s.readError c).nvoices = s.nvoices := rfl
@[simp] theorem readError_inLen (c : BusCause) : (s.readError c).inLen = s.inLen := rfl
@[simp] theorem readError_sr (c : BusCause) : (s.readError c).sr = s.sr := rfl
@[simp] theorem readError_s (c : BusCause) : (s.readError c).s = s.s := rfl
@[simp] theorem readError_outL (c : BusCause) : (s.readError c).outL = s.outL := rfl
@[simp] theorem readError_outR (c : BusCause) : (s.readError c).outR = s.outR := rfl
@[simp] theorem readError_normMax (c : BusCause) : (s.readError c).normMax = s.normMax := rfl
@[simp] theorem readError_peakCount (c : BusCause) : (s.readError c).peakCount = s.peakCount := rfl
@[simp] theorem readError_intT (c : BusCause) : (s.readError c).intT = s.intT := rfl
@[simp] theorem readError_intLow (c : BusCause) : (s.readError c).intLow = s.intLow := rfl
@[simp] theorem readError_intHigh (c : BusCause) : (s.readError c).intHigh = s.intHigh := rfl
@[simp] theorem readError_intUw (c : BusCause) : (s.readError c).intUw = s.intUw := rfl
@[simp] theorem readError_intLw (c : BusCause) : (s.readError c).intLw = s.intLw := rfl
@[simp] theorem readError_voices (c : BusCause) : (s.readError c).voices = s.voices := rfl
@[simp] theorem readError_mem (c : BusCause) : (s.readError c).mem = s.mem := rfl
@[simp] theorem readError_inReset (c : BusCause) : (s.readError c).inReset = s.inReset := rfl
@[simp] theorem readError_inputs (c : BusCause) : (s.readError c).inputs = s.inputs := rfl
@[simp] theorem readError_replies (c : BusCause) : (s.readError c).replies = readRejected c :: s.replies := rfl
@[simp] theorem readError_draws (c : BusCause) : (s.readError c).draws = s.draws := rfl

/-! ## writeError -/

@[simp] theorem writeError_params (c : BusCause) : (s.writeError c).params = s.params := rfl
@[simp] theorem writeError_cmd (c : BusCause) : (s.writeError c).cmd = s.cmd := rfl
@[simp] theorem writeError_pending (c : BusCause) : (s.writeError c).pending = s.pending := rfl
@[simp] theorem writeError_status (c : BusCause) : (s.writeError c).status = s.status.setBerr := rfl
@[simp] theorem writeError_nvoices (c : BusCause) : (s.writeError c).nvoices = s.nvoices := rfl
@[simp] theorem writeError_inLen (c : BusCause) : (s.writeError c).inLen = s.inLen := rfl
@[simp] theorem writeError_sr (c : BusCause) : (s.writeError c).sr = s.sr := rfl
@[simp] theorem writeError_s (c : BusCause) : (s.writeError c).s = s.s := rfl
@[simp] theorem writeError_outL (c : BusCause) : (s.writeError c).outL = s.outL := rfl
@[simp] theorem writeError_outR (c : BusCause) : (s.writeError c).outR = s.outR := rfl
@[simp] theorem writeError_normMax (c : BusCause) : (s.writeError c).normMax = s.normMax := rfl
@[simp] theorem writeError_peakCount (c : BusCause) : (s.writeError c).peakCount = s.peakCount := rfl
@[simp] theorem writeError_intT (c : BusCause) : (s.writeError c).intT = s.intT := rfl
@[simp] theorem writeError_intLow (c : BusCause) : (s.writeError c).intLow = s.intLow := rfl
@[simp] theorem writeError_intHigh (c : BusCause) : (s.writeError c).intHigh = s.intHigh := rfl
@[simp] theorem writeError_intUw (c : BusCause) : (s.writeError c).intUw = s.intUw := rfl
@[simp] theorem writeError_intLw (c : BusCause) : (s.writeError c).intLw = s.intLw := rfl
@[simp] theorem writeError_voices (c : BusCause) : (s.writeError c).voices = s.voices := rfl
@[simp] theorem writeError_mem (c : BusCause) : (s.writeError c).mem = s.mem := rfl
@[simp] theorem writeError_inReset (c : BusCause) : (s.writeError c).inReset = s.inReset := rfl
@[simp] theorem writeError_inputs (c : BusCause) : (s.writeError c).inputs = s.inputs := rfl
@[simp] theorem writeError_replies (c : BusCause) : (s.writeError c).replies = .writeErr c :: s.replies := rfl
@[simp] theorem writeError_draws (c : BusCause) : (s.writeError c).draws = s.draws := rfl

/-! ## clearErrors -/

@[simp] theorem clearErrors_params (w : Word) : (s.clearErrors w).params = s.params := rfl
@[simp] theorem clearErrors_cmd (w : Word) : (s.clearErrors w).cmd = s.cmd := rfl
@[simp] theorem clearErrors_pending (w : Word) : (s.clearErrors w).pending = s.pending := rfl
@[simp] theorem clearErrors_status (w : Word) : (s.clearErrors w).status = s.status.clear w := rfl
@[simp] theorem clearErrors_nvoices (w : Word) : (s.clearErrors w).nvoices = s.nvoices := rfl
@[simp] theorem clearErrors_inLen (w : Word) : (s.clearErrors w).inLen = s.inLen := rfl
@[simp] theorem clearErrors_sr (w : Word) : (s.clearErrors w).sr = s.sr := rfl
@[simp] theorem clearErrors_s (w : Word) : (s.clearErrors w).s = s.s := rfl
@[simp] theorem clearErrors_outL (w : Word) : (s.clearErrors w).outL = s.outL := rfl
@[simp] theorem clearErrors_outR (w : Word) : (s.clearErrors w).outR = s.outR := rfl
@[simp] theorem clearErrors_normMax (w : Word) : (s.clearErrors w).normMax = s.normMax := rfl
@[simp] theorem clearErrors_peakCount (w : Word) : (s.clearErrors w).peakCount = s.peakCount := rfl
@[simp] theorem clearErrors_intT (w : Word) : (s.clearErrors w).intT = s.intT := rfl
@[simp] theorem clearErrors_intLow (w : Word) : (s.clearErrors w).intLow = s.intLow := rfl
@[simp] theorem clearErrors_intHigh (w : Word) : (s.clearErrors w).intHigh = s.intHigh := rfl
@[simp] theorem clearErrors_intUw (w : Word) : (s.clearErrors w).intUw = s.intUw := rfl
@[simp] theorem clearErrors_intLw (w : Word) : (s.clearErrors w).intLw = s.intLw := rfl
@[simp] theorem clearErrors_voices (w : Word) : (s.clearErrors w).voices = s.voices := rfl
@[simp] theorem clearErrors_mem (w : Word) : (s.clearErrors w).mem = s.mem := rfl
@[simp] theorem clearErrors_inReset (w : Word) : (s.clearErrors w).inReset = s.inReset := rfl
@[simp] theorem clearErrors_inputs (w : Word) : (s.clearErrors w).inputs = s.inputs := rfl
@[simp] theorem clearErrors_replies (w : Word) : (s.clearErrors w).replies = s.replies := rfl
@[simp] theorem clearErrors_draws (w : Word) : (s.clearErrors w).draws = s.draws := rfl

/-! ## releaseReset -/

@[simp] theorem releaseReset_params : s.releaseReset.params = s.params := rfl
@[simp] theorem releaseReset_cmd : s.releaseReset.cmd = s.cmd := rfl
@[simp] theorem releaseReset_pending : s.releaseReset.pending = s.pending := rfl
@[simp] theorem releaseReset_status : s.releaseReset.status = s.status := rfl
@[simp] theorem releaseReset_nvoices : s.releaseReset.nvoices = s.nvoices := rfl
@[simp] theorem releaseReset_inLen : s.releaseReset.inLen = s.inLen := rfl
@[simp] theorem releaseReset_sr : s.releaseReset.sr = s.sr := rfl
@[simp] theorem releaseReset_s : s.releaseReset.s = s.s := rfl
@[simp] theorem releaseReset_outL : s.releaseReset.outL = s.outL := rfl
@[simp] theorem releaseReset_outR : s.releaseReset.outR = s.outR := rfl
@[simp] theorem releaseReset_normMax : s.releaseReset.normMax = s.normMax := rfl
@[simp] theorem releaseReset_peakCount : s.releaseReset.peakCount = s.peakCount := rfl
@[simp] theorem releaseReset_intT : s.releaseReset.intT = s.intT := rfl
@[simp] theorem releaseReset_intLow : s.releaseReset.intLow = s.intLow := rfl
@[simp] theorem releaseReset_intHigh : s.releaseReset.intHigh = s.intHigh := rfl
@[simp] theorem releaseReset_intUw : s.releaseReset.intUw = s.intUw := rfl
@[simp] theorem releaseReset_intLw : s.releaseReset.intLw = s.intLw := rfl
@[simp] theorem releaseReset_voices : s.releaseReset.voices = s.voices := rfl
@[simp] theorem releaseReset_mem : s.releaseReset.mem = s.mem := rfl
@[simp] theorem releaseReset_inReset : s.releaseReset.inReset = false := rfl
@[simp] theorem releaseReset_inputs : s.releaseReset.inputs = s.inputs := rfl
@[simp] theorem releaseReset_replies : s.releaseReset.replies = s.replies := rfl
@[simp] theorem releaseReset_draws : s.releaseReset.draws = s.draws := rfl

/-! ## drawn -/

@[simp] theorem drawn_params (n : Nat) : (s.drawn n).params = s.params := rfl
@[simp] theorem drawn_cmd (n : Nat) : (s.drawn n).cmd = s.cmd := rfl
@[simp] theorem drawn_pending (n : Nat) : (s.drawn n).pending = s.pending := rfl
@[simp] theorem drawn_status (n : Nat) : (s.drawn n).status = s.status := rfl
@[simp] theorem drawn_nvoices (n : Nat) : (s.drawn n).nvoices = s.nvoices := rfl
@[simp] theorem drawn_inLen (n : Nat) : (s.drawn n).inLen = s.inLen := rfl
@[simp] theorem drawn_sr (n : Nat) : (s.drawn n).sr = s.sr := rfl
@[simp] theorem drawn_s (n : Nat) : (s.drawn n).s = s.s := rfl
@[simp] theorem drawn_outL (n : Nat) : (s.drawn n).outL = s.outL := rfl
@[simp] theorem drawn_outR (n : Nat) : (s.drawn n).outR = s.outR := rfl
@[simp] theorem drawn_normMax (n : Nat) : (s.drawn n).normMax = s.normMax := rfl
@[simp] theorem drawn_peakCount (n : Nat) : (s.drawn n).peakCount = s.peakCount := rfl
@[simp] theorem drawn_intT (n : Nat) : (s.drawn n).intT = s.intT := rfl
@[simp] theorem drawn_intLow (n : Nat) : (s.drawn n).intLow = s.intLow := rfl
@[simp] theorem drawn_intHigh (n : Nat) : (s.drawn n).intHigh = s.intHigh := rfl
@[simp] theorem drawn_intUw (n : Nat) : (s.drawn n).intUw = s.intUw := rfl
@[simp] theorem drawn_intLw (n : Nat) : (s.drawn n).intLw = s.intLw := rfl
@[simp] theorem drawn_voices (n : Nat) : (s.drawn n).voices = s.voices := rfl
@[simp] theorem drawn_mem (n : Nat) : (s.drawn n).mem = s.mem := rfl
@[simp] theorem drawn_inReset (n : Nat) : (s.drawn n).inReset = s.inReset := rfl
@[simp] theorem drawn_inputs (n : Nat) : (s.drawn n).inputs = s.inputs := rfl
@[simp] theorem drawn_replies (n : Nat) : (s.drawn n).replies = s.replies := rfl
@[simp] theorem drawn_draws (n : Nat) : (s.drawn n).draws = s.draws + n := rfl

/-! ## putF64s -/

@[simp] theorem putF64s_params (a : Nat) (vs : List F64) : (s.putF64s a vs).params = s.params := rfl
@[simp] theorem putF64s_cmd (a : Nat) (vs : List F64) : (s.putF64s a vs).cmd = s.cmd := rfl
@[simp] theorem putF64s_pending (a : Nat) (vs : List F64) : (s.putF64s a vs).pending = s.pending := rfl
@[simp] theorem putF64s_status (a : Nat) (vs : List F64) : (s.putF64s a vs).status = s.status := rfl
@[simp] theorem putF64s_nvoices (a : Nat) (vs : List F64) : (s.putF64s a vs).nvoices = s.nvoices := rfl
@[simp] theorem putF64s_inLen (a : Nat) (vs : List F64) : (s.putF64s a vs).inLen = s.inLen := rfl
@[simp] theorem putF64s_sr (a : Nat) (vs : List F64) : (s.putF64s a vs).sr = s.sr := rfl
@[simp] theorem putF64s_s (a : Nat) (vs : List F64) : (s.putF64s a vs).s = s.s := rfl
@[simp] theorem putF64s_outL (a : Nat) (vs : List F64) : (s.putF64s a vs).outL = s.outL := rfl
@[simp] theorem putF64s_outR (a : Nat) (vs : List F64) : (s.putF64s a vs).outR = s.outR := rfl
@[simp] theorem putF64s_normMax (a : Nat) (vs : List F64) : (s.putF64s a vs).normMax = s.normMax := rfl
@[simp] theorem putF64s_peakCount (a : Nat) (vs : List F64) : (s.putF64s a vs).peakCount = s.peakCount := rfl
@[simp] theorem putF64s_intT (a : Nat) (vs : List F64) : (s.putF64s a vs).intT = s.intT := rfl
@[simp] theorem putF64s_intLow (a : Nat) (vs : List F64) : (s.putF64s a vs).intLow = s.intLow := rfl
@[simp] theorem putF64s_intHigh (a : Nat) (vs : List F64) : (s.putF64s a vs).intHigh = s.intHigh := rfl
@[simp] theorem putF64s_intUw (a : Nat) (vs : List F64) : (s.putF64s a vs).intUw = s.intUw := rfl
@[simp] theorem putF64s_intLw (a : Nat) (vs : List F64) : (s.putF64s a vs).intLw = s.intLw := rfl
@[simp] theorem putF64s_voices (a : Nat) (vs : List F64) : (s.putF64s a vs).voices = s.voices := rfl
@[simp] theorem putF64s_mem (a : Nat) (vs : List F64) : (s.putF64s a vs).mem = s.mem.putWords a (sealAll s.draws vs) := rfl
@[simp] theorem putF64s_inReset (a : Nat) (vs : List F64) : (s.putF64s a vs).inReset = s.inReset := rfl
@[simp] theorem putF64s_inputs (a : Nat) (vs : List F64) : (s.putF64s a vs).inputs = s.inputs := rfl
@[simp] theorem putF64s_replies (a : Nat) (vs : List F64) : (s.putF64s a vs).replies = s.replies := rfl
@[simp] theorem putF64s_draws (a : Nat) (vs : List F64) : (s.putF64s a vs).draws = s.draws + vs.length := rfl

/-! ## writeFfts -/

@[simp] theorem writeFfts_params (xs : List Cx) : (s.writeFfts xs).params = s.params := rfl
@[simp] theorem writeFfts_cmd (xs : List Cx) : (s.writeFfts xs).cmd = s.cmd := rfl
@[simp] theorem writeFfts_pending (xs : List Cx) : (s.writeFfts xs).pending = s.pending := rfl
@[simp] theorem writeFfts_status (xs : List Cx) : (s.writeFfts xs).status = s.status := rfl
@[simp] theorem writeFfts_nvoices (xs : List Cx) : (s.writeFfts xs).nvoices = s.nvoices := rfl
@[simp] theorem writeFfts_inLen (xs : List Cx) : (s.writeFfts xs).inLen = s.inLen := rfl
@[simp] theorem writeFfts_sr (xs : List Cx) : (s.writeFfts xs).sr = s.sr := rfl
@[simp] theorem writeFfts_s (xs : List Cx) : (s.writeFfts xs).s = s.s := rfl
@[simp] theorem writeFfts_outL (xs : List Cx) : (s.writeFfts xs).outL = s.outL := rfl
@[simp] theorem writeFfts_outR (xs : List Cx) : (s.writeFfts xs).outR = s.outR := rfl
@[simp] theorem writeFfts_normMax (xs : List Cx) : (s.writeFfts xs).normMax = s.normMax := rfl
@[simp] theorem writeFfts_peakCount (xs : List Cx) : (s.writeFfts xs).peakCount = s.peakCount := rfl
@[simp] theorem writeFfts_intT (xs : List Cx) : (s.writeFfts xs).intT = s.intT := rfl
@[simp] theorem writeFfts_intLow (xs : List Cx) : (s.writeFfts xs).intLow = s.intLow := rfl
@[simp] theorem writeFfts_intHigh (xs : List Cx) : (s.writeFfts xs).intHigh = s.intHigh := rfl
@[simp] theorem writeFfts_intUw (xs : List Cx) : (s.writeFfts xs).intUw = s.intUw := rfl
@[simp] theorem writeFfts_intLw (xs : List Cx) : (s.writeFfts xs).intLw = s.intLw := rfl
@[simp] theorem writeFfts_voices (xs : List Cx) : (s.writeFfts xs).voices = s.voices := rfl
@[simp] theorem writeFfts_mem (xs : List Cx) : (s.writeFfts xs).mem = s.mem.putWords (fftAddr 0) (sealAll s.draws (flattenCx xs)) := rfl
@[simp] theorem writeFfts_inReset (xs : List Cx) : (s.writeFfts xs).inReset = s.inReset := rfl
@[simp] theorem writeFfts_inputs (xs : List Cx) : (s.writeFfts xs).inputs = s.inputs := rfl
@[simp] theorem writeFfts_replies (xs : List Cx) : (s.writeFfts xs).replies = s.replies := rfl
@[simp] theorem writeFfts_draws (xs : List Cx) : (s.writeFfts xs).draws = s.draws + (flattenCx xs).length := rfl

/-! ## writeWintab -/

@[simp] theorem writeWintab_params : s.writeWintab.params = s.params := rfl
@[simp] theorem writeWintab_cmd : s.writeWintab.cmd = s.cmd := rfl
@[simp] theorem writeWintab_pending : s.writeWintab.pending = s.pending := rfl
@[simp] theorem writeWintab_status : s.writeWintab.status = s.status := rfl
@[simp] theorem writeWintab_nvoices : s.writeWintab.nvoices = s.nvoices := rfl
@[simp] theorem writeWintab_inLen : s.writeWintab.inLen = s.inLen := rfl
@[simp] theorem writeWintab_sr : s.writeWintab.sr = s.sr := rfl
@[simp] theorem writeWintab_s : s.writeWintab.s = s.s := rfl
@[simp] theorem writeWintab_outL : s.writeWintab.outL = s.outL := rfl
@[simp] theorem writeWintab_outR : s.writeWintab.outR = s.outR := rfl
@[simp] theorem writeWintab_normMax : s.writeWintab.normMax = s.normMax := rfl
@[simp] theorem writeWintab_peakCount : s.writeWintab.peakCount = s.peakCount := rfl
@[simp] theorem writeWintab_intT : s.writeWintab.intT = s.intT := rfl
@[simp] theorem writeWintab_intLow : s.writeWintab.intLow = s.intLow := rfl
@[simp] theorem writeWintab_intHigh : s.writeWintab.intHigh = s.intHigh := rfl
@[simp] theorem writeWintab_intUw : s.writeWintab.intUw = s.intUw := rfl
@[simp] theorem writeWintab_intLw : s.writeWintab.intLw = s.intLw := rfl
@[simp] theorem writeWintab_voices : s.writeWintab.voices = s.voices := rfl
@[simp] theorem writeWintab_mem : s.writeWintab.mem = s.mem.putWords (wintabAddr 0) (sealAll s.draws (windowTable s.params)) := rfl
@[simp] theorem writeWintab_inReset : s.writeWintab.inReset = s.inReset := rfl
@[simp] theorem writeWintab_inputs : s.writeWintab.inputs = s.inputs := rfl
@[simp] theorem writeWintab_replies : s.writeWintab.replies = s.replies := rfl
@[simp] theorem writeWintab_draws : s.writeWintab.draws = s.draws + (windowTable s.params).length := rfl

/-! ## writeSinetab -/

@[simp] theorem writeSinetab_params : s.writeSinetab.params = s.params := rfl
@[simp] theorem writeSinetab_cmd : s.writeSinetab.cmd = s.cmd := rfl
@[simp] theorem writeSinetab_pending : s.writeSinetab.pending = s.pending := rfl
@[simp] theorem writeSinetab_status : s.writeSinetab.status = s.status := rfl
@[simp] theorem writeSinetab_nvoices : s.writeSinetab.nvoices = s.nvoices := rfl
@[simp] theorem writeSinetab_inLen : s.writeSinetab.inLen = s.inLen := rfl
@[simp] theorem writeSinetab_sr : s.writeSinetab.sr = s.sr := rfl
@[simp] theorem writeSinetab_s : s.writeSinetab.s = s.s := rfl
@[simp] theorem writeSinetab_outL : s.writeSinetab.outL = s.outL := rfl
@[simp] theorem writeSinetab_outR : s.writeSinetab.outR = s.outR := rfl
@[simp] theorem writeSinetab_normMax : s.writeSinetab.normMax = s.normMax := rfl
@[simp] theorem writeSinetab_peakCount : s.writeSinetab.peakCount = s.peakCount := rfl
@[simp] theorem writeSinetab_intT : s.writeSinetab.intT = s.intT := rfl
@[simp] theorem writeSinetab_intLow : s.writeSinetab.intLow = s.intLow := rfl
@[simp] theorem writeSinetab_intHigh : s.writeSinetab.intHigh = s.intHigh := rfl
@[simp] theorem writeSinetab_intUw : s.writeSinetab.intUw = s.intUw := rfl
@[simp] theorem writeSinetab_intLw : s.writeSinetab.intLw = s.intLw := rfl
@[simp] theorem writeSinetab_voices : s.writeSinetab.voices = s.voices := rfl
@[simp] theorem writeSinetab_mem : s.writeSinetab.mem = s.mem.putWords (sinetabAddr 0) (sealAll s.draws (sineTable s.params)) := rfl
@[simp] theorem writeSinetab_inReset : s.writeSinetab.inReset = s.inReset := rfl
@[simp] theorem writeSinetab_inputs : s.writeSinetab.inputs = s.inputs := rfl
@[simp] theorem writeSinetab_replies : s.writeSinetab.replies = s.replies := rfl
@[simp] theorem writeSinetab_draws : s.writeSinetab.draws = s.draws + (sineTable s.params).length := rfl

/-! ## writeEntries -/

@[simp] theorem writeEntries_params (t : Tab) (f : Nat) (es : List Entry) : (s.writeEntries t f es).params = s.params := rfl
@[simp] theorem writeEntries_cmd (t : Tab) (f : Nat) (es : List Entry) : (s.writeEntries t f es).cmd = s.cmd := rfl
@[simp] theorem writeEntries_pending (t : Tab) (f : Nat) (es : List Entry) : (s.writeEntries t f es).pending = s.pending := rfl
@[simp] theorem writeEntries_status (t : Tab) (f : Nat) (es : List Entry) : (s.writeEntries t f es).status = s.status := rfl
@[simp] theorem writeEntries_nvoices (t : Tab) (f : Nat) (es : List Entry) : (s.writeEntries t f es).nvoices = s.nvoices := rfl
@[simp] theorem writeEntries_inLen (t : Tab) (f : Nat) (es : List Entry) : (s.writeEntries t f es).inLen = s.inLen := rfl
@[simp] theorem writeEntries_sr (t : Tab) (f : Nat) (es : List Entry) : (s.writeEntries t f es).sr = s.sr := rfl
@[simp] theorem writeEntries_s (t : Tab) (f : Nat) (es : List Entry) : (s.writeEntries t f es).s = s.s := rfl
@[simp] theorem writeEntries_outL (t : Tab) (f : Nat) (es : List Entry) : (s.writeEntries t f es).outL = s.outL := rfl
@[simp] theorem writeEntries_outR (t : Tab) (f : Nat) (es : List Entry) : (s.writeEntries t f es).outR = s.outR := rfl
@[simp] theorem writeEntries_normMax (t : Tab) (f : Nat) (es : List Entry) : (s.writeEntries t f es).normMax = s.normMax := rfl
@[simp] theorem writeEntries_peakCount (t : Tab) (f : Nat) (es : List Entry) : (s.writeEntries t f es).peakCount = s.peakCount := rfl
@[simp] theorem writeEntries_intT (t : Tab) (f : Nat) (es : List Entry) : (s.writeEntries t f es).intT = s.intT := rfl
@[simp] theorem writeEntries_intLow (t : Tab) (f : Nat) (es : List Entry) : (s.writeEntries t f es).intLow = s.intLow := rfl
@[simp] theorem writeEntries_intHigh (t : Tab) (f : Nat) (es : List Entry) : (s.writeEntries t f es).intHigh = s.intHigh := rfl
@[simp] theorem writeEntries_intUw (t : Tab) (f : Nat) (es : List Entry) : (s.writeEntries t f es).intUw = s.intUw := rfl
@[simp] theorem writeEntries_intLw (t : Tab) (f : Nat) (es : List Entry) : (s.writeEntries t f es).intLw = s.intLw := rfl
@[simp] theorem writeEntries_voices (t : Tab) (f : Nat) (es : List Entry) : (s.writeEntries t f es).voices = s.voices := rfl
@[simp] theorem writeEntries_mem (t : Tab) (f : Nat) (es : List Entry) : (s.writeEntries t f es).mem = s.mem.putWords (atabAddr s.params t f 0) (sealAll s.draws (flattenEntries es)) := rfl
@[simp] theorem writeEntries_inReset (t : Tab) (f : Nat) (es : List Entry) : (s.writeEntries t f es).inReset = s.inReset := rfl
@[simp] theorem writeEntries_inputs (t : Tab) (f : Nat) (es : List Entry) : (s.writeEntries t f es).inputs = s.inputs := rfl
@[simp] theorem writeEntries_replies (t : Tab) (f : Nat) (es : List Entry) : (s.writeEntries t f es).replies = s.replies := rfl
@[simp] theorem writeEntries_draws (t : Tab) (f : Nat) (es : List Entry) : (s.writeEntries t f es).draws = s.draws + (flattenEntries es).length := rfl

/-! ## setPeakCount -/

@[simp] theorem setPeakCount_params (c : Nat) : (s.setPeakCount c).params = s.params := rfl
@[simp] theorem setPeakCount_cmd (c : Nat) : (s.setPeakCount c).cmd = s.cmd := rfl
@[simp] theorem setPeakCount_pending (c : Nat) : (s.setPeakCount c).pending = s.pending := rfl
@[simp] theorem setPeakCount_status (c : Nat) : (s.setPeakCount c).status = s.status := rfl
@[simp] theorem setPeakCount_nvoices (c : Nat) : (s.setPeakCount c).nvoices = s.nvoices := rfl
@[simp] theorem setPeakCount_inLen (c : Nat) : (s.setPeakCount c).inLen = s.inLen := rfl
@[simp] theorem setPeakCount_sr (c : Nat) : (s.setPeakCount c).sr = s.sr := rfl
@[simp] theorem setPeakCount_s (c : Nat) : (s.setPeakCount c).s = s.s := rfl
@[simp] theorem setPeakCount_outL (c : Nat) : (s.setPeakCount c).outL = s.outL := rfl
@[simp] theorem setPeakCount_outR (c : Nat) : (s.setPeakCount c).outR = s.outR := rfl
@[simp] theorem setPeakCount_normMax (c : Nat) : (s.setPeakCount c).normMax = s.normMax := rfl
@[simp] theorem setPeakCount_peakCount (c : Nat) : (s.setPeakCount c).peakCount = BitVec.ofNat 64 c := rfl
@[simp] theorem setPeakCount_intT (c : Nat) : (s.setPeakCount c).intT = s.intT := rfl
@[simp] theorem setPeakCount_intLow (c : Nat) : (s.setPeakCount c).intLow = s.intLow := rfl
@[simp] theorem setPeakCount_intHigh (c : Nat) : (s.setPeakCount c).intHigh = s.intHigh := rfl
@[simp] theorem setPeakCount_intUw (c : Nat) : (s.setPeakCount c).intUw = s.intUw := rfl
@[simp] theorem setPeakCount_intLw (c : Nat) : (s.setPeakCount c).intLw = s.intLw := rfl
@[simp] theorem setPeakCount_voices (c : Nat) : (s.setPeakCount c).voices = s.voices := rfl
@[simp] theorem setPeakCount_mem (c : Nat) : (s.setPeakCount c).mem = s.mem := rfl
@[simp] theorem setPeakCount_inReset (c : Nat) : (s.setPeakCount c).inReset = s.inReset := rfl
@[simp] theorem setPeakCount_inputs (c : Nat) : (s.setPeakCount c).inputs = s.inputs := rfl
@[simp] theorem setPeakCount_replies (c : Nat) : (s.setPeakCount c).replies = s.replies := rfl
@[simp] theorem setPeakCount_draws (c : Nat) : (s.setPeakCount c).draws = s.draws := rfl

/-! ## setNorm -/

@[simp] theorem setNorm_params (t : Tab) (v : Bool) : (s.setNorm t v).params = s.params := rfl
@[simp] theorem setNorm_cmd (t : Tab) (v : Bool) : (s.setNorm t v).cmd = s.cmd := rfl
@[simp] theorem setNorm_pending (t : Tab) (v : Bool) : (s.setNorm t v).pending = s.pending := rfl
@[simp] theorem setNorm_status (t : Tab) (v : Bool) : (s.setNorm t v).status = s.status.setNorm t v := rfl
@[simp] theorem setNorm_nvoices (t : Tab) (v : Bool) : (s.setNorm t v).nvoices = s.nvoices := rfl
@[simp] theorem setNorm_inLen (t : Tab) (v : Bool) : (s.setNorm t v).inLen = s.inLen := rfl
@[simp] theorem setNorm_sr (t : Tab) (v : Bool) : (s.setNorm t v).sr = s.sr := rfl
@[simp] theorem setNorm_s (t : Tab) (v : Bool) : (s.setNorm t v).s = s.s := rfl
@[simp] theorem setNorm_outL (t : Tab) (v : Bool) : (s.setNorm t v).outL = s.outL := rfl
@[simp] theorem setNorm_outR (t : Tab) (v : Bool) : (s.setNorm t v).outR = s.outR := rfl
@[simp] theorem setNorm_normMax (t : Tab) (v : Bool) : (s.setNorm t v).normMax = s.normMax := rfl
@[simp] theorem setNorm_peakCount (t : Tab) (v : Bool) : (s.setNorm t v).peakCount = s.peakCount := rfl
@[simp] theorem setNorm_intT (t : Tab) (v : Bool) : (s.setNorm t v).intT = s.intT := rfl
@[simp] theorem setNorm_intLow (t : Tab) (v : Bool) : (s.setNorm t v).intLow = s.intLow := rfl
@[simp] theorem setNorm_intHigh (t : Tab) (v : Bool) : (s.setNorm t v).intHigh = s.intHigh := rfl
@[simp] theorem setNorm_intUw (t : Tab) (v : Bool) : (s.setNorm t v).intUw = s.intUw := rfl
@[simp] theorem setNorm_intLw (t : Tab) (v : Bool) : (s.setNorm t v).intLw = s.intLw := rfl
@[simp] theorem setNorm_voices (t : Tab) (v : Bool) : (s.setNorm t v).voices = s.voices := rfl
@[simp] theorem setNorm_mem (t : Tab) (v : Bool) : (s.setNorm t v).mem = s.mem := rfl
@[simp] theorem setNorm_inReset (t : Tab) (v : Bool) : (s.setNorm t v).inReset = s.inReset := rfl
@[simp] theorem setNorm_inputs (t : Tab) (v : Bool) : (s.setNorm t v).inputs = s.inputs := rfl
@[simp] theorem setNorm_replies (t : Tab) (v : Bool) : (s.setNorm t v).replies = s.replies := rfl
@[simp] theorem setNorm_draws (t : Tab) (v : Bool) : (s.setNorm t v).draws = s.draws := rfl

/-! ## setNormMax -/

@[simp] theorem setNormMax_params (t : Tab) (m : F64) : (s.setNormMax t m).params = s.params := rfl
@[simp] theorem setNormMax_cmd (t : Tab) (m : F64) : (s.setNormMax t m).cmd = s.cmd := rfl
@[simp] theorem setNormMax_pending (t : Tab) (m : F64) : (s.setNormMax t m).pending = s.pending := rfl
@[simp] theorem setNormMax_status (t : Tab) (m : F64) : (s.setNormMax t m).status = s.status := rfl
@[simp] theorem setNormMax_nvoices (t : Tab) (m : F64) : (s.setNormMax t m).nvoices = s.nvoices := rfl
@[simp] theorem setNormMax_inLen (t : Tab) (m : F64) : (s.setNormMax t m).inLen = s.inLen := rfl
@[simp] theorem setNormMax_sr (t : Tab) (m : F64) : (s.setNormMax t m).sr = s.sr := rfl
@[simp] theorem setNormMax_s (t : Tab) (m : F64) : (s.setNormMax t m).s = s.s := rfl
@[simp] theorem setNormMax_outL (t : Tab) (m : F64) : (s.setNormMax t m).outL = s.outL := rfl
@[simp] theorem setNormMax_outR (t : Tab) (m : F64) : (s.setNormMax t m).outR = s.outR := rfl
@[simp] theorem setNormMax_normMax (t : Tab) (m : F64) : (s.setNormMax t m).normMax = s.normMax.set t (s.seal1 m) := rfl
@[simp] theorem setNormMax_peakCount (t : Tab) (m : F64) : (s.setNormMax t m).peakCount = s.peakCount := rfl
@[simp] theorem setNormMax_intT (t : Tab) (m : F64) : (s.setNormMax t m).intT = s.intT := rfl
@[simp] theorem setNormMax_intLow (t : Tab) (m : F64) : (s.setNormMax t m).intLow = s.intLow := rfl
@[simp] theorem setNormMax_intHigh (t : Tab) (m : F64) : (s.setNormMax t m).intHigh = s.intHigh := rfl
@[simp] theorem setNormMax_intUw (t : Tab) (m : F64) : (s.setNormMax t m).intUw = s.intUw := rfl
@[simp] theorem setNormMax_intLw (t : Tab) (m : F64) : (s.setNormMax t m).intLw = s.intLw := rfl
@[simp] theorem setNormMax_voices (t : Tab) (m : F64) : (s.setNormMax t m).voices = s.voices := rfl
@[simp] theorem setNormMax_mem (t : Tab) (m : F64) : (s.setNormMax t m).mem = s.mem := rfl
@[simp] theorem setNormMax_inReset (t : Tab) (m : F64) : (s.setNormMax t m).inReset = s.inReset := rfl
@[simp] theorem setNormMax_inputs (t : Tab) (m : F64) : (s.setNormMax t m).inputs = s.inputs := rfl
@[simp] theorem setNormMax_replies (t : Tab) (m : F64) : (s.setNormMax t m).replies = s.replies := rfl
@[simp] theorem setNormMax_draws (t : Tab) (m : F64) : (s.setNormMax t m).draws = s.draws + 1 := rfl

/-! ## setVoiceField -/

@[simp] theorem setVoiceField_params (n : Nat) (f : VoiceField) (w : Word) : (s.setVoiceField n f w).params = s.params := rfl
@[simp] theorem setVoiceField_cmd (n : Nat) (f : VoiceField) (w : Word) : (s.setVoiceField n f w).cmd = s.cmd := rfl
@[simp] theorem setVoiceField_pending (n : Nat) (f : VoiceField) (w : Word) : (s.setVoiceField n f w).pending = s.pending := rfl
@[simp] theorem setVoiceField_status (n : Nat) (f : VoiceField) (w : Word) : (s.setVoiceField n f w).status = s.status := rfl
@[simp] theorem setVoiceField_nvoices (n : Nat) (f : VoiceField) (w : Word) : (s.setVoiceField n f w).nvoices = s.nvoices := rfl
@[simp] theorem setVoiceField_inLen (n : Nat) (f : VoiceField) (w : Word) : (s.setVoiceField n f w).inLen = s.inLen := rfl
@[simp] theorem setVoiceField_sr (n : Nat) (f : VoiceField) (w : Word) : (s.setVoiceField n f w).sr = s.sr := rfl
@[simp] theorem setVoiceField_s (n : Nat) (f : VoiceField) (w : Word) : (s.setVoiceField n f w).s = s.s := rfl
@[simp] theorem setVoiceField_outL (n : Nat) (f : VoiceField) (w : Word) : (s.setVoiceField n f w).outL = s.outL := rfl
@[simp] theorem setVoiceField_outR (n : Nat) (f : VoiceField) (w : Word) : (s.setVoiceField n f w).outR = s.outR := rfl
@[simp] theorem setVoiceField_normMax (n : Nat) (f : VoiceField) (w : Word) : (s.setVoiceField n f w).normMax = s.normMax := rfl
@[simp] theorem setVoiceField_peakCount (n : Nat) (f : VoiceField) (w : Word) : (s.setVoiceField n f w).peakCount = s.peakCount := rfl
@[simp] theorem setVoiceField_intT (n : Nat) (f : VoiceField) (w : Word) : (s.setVoiceField n f w).intT = s.intT := rfl
@[simp] theorem setVoiceField_intLow (n : Nat) (f : VoiceField) (w : Word) : (s.setVoiceField n f w).intLow = s.intLow := rfl
@[simp] theorem setVoiceField_intHigh (n : Nat) (f : VoiceField) (w : Word) : (s.setVoiceField n f w).intHigh = s.intHigh := rfl
@[simp] theorem setVoiceField_intUw (n : Nat) (f : VoiceField) (w : Word) : (s.setVoiceField n f w).intUw = s.intUw := rfl
@[simp] theorem setVoiceField_intLw (n : Nat) (f : VoiceField) (w : Word) : (s.setVoiceField n f w).intLw = s.intLw := rfl
@[simp] theorem setVoiceField_voices (n : Nat) (f : VoiceField) (w : Word) : (s.setVoiceField n f w).voices = s.voices.modify n (fun v => v.set w f) := rfl
@[simp] theorem setVoiceField_mem (n : Nat) (f : VoiceField) (w : Word) : (s.setVoiceField n f w).mem = s.mem := rfl
@[simp] theorem setVoiceField_inReset (n : Nat) (f : VoiceField) (w : Word) : (s.setVoiceField n f w).inReset = s.inReset := rfl
@[simp] theorem setVoiceField_inputs (n : Nat) (f : VoiceField) (w : Word) : (s.setVoiceField n f w).inputs = s.inputs := rfl
@[simp] theorem setVoiceField_replies (n : Nat) (f : VoiceField) (w : Word) : (s.setVoiceField n f w).replies = s.replies := rfl
@[simp] theorem setVoiceField_draws (n : Nat) (f : VoiceField) (w : Word) : (s.setVoiceField n f w).draws = s.draws := rfl

/-! ## commitOsc -/

@[simp] theorem commitOsc_params (o : OscOut) : (s.commitOsc o).params = s.params := rfl
@[simp] theorem commitOsc_cmd (o : OscOut) : (s.commitOsc o).cmd = s.cmd := rfl
@[simp] theorem commitOsc_pending (o : OscOut) : (s.commitOsc o).pending = s.pending := rfl
@[simp] theorem commitOsc_status (o : OscOut) : (s.commitOsc o).status = s.status := rfl
@[simp] theorem commitOsc_nvoices (o : OscOut) : (s.commitOsc o).nvoices = s.nvoices := rfl
@[simp] theorem commitOsc_inLen (o : OscOut) : (s.commitOsc o).inLen = s.inLen := rfl
@[simp] theorem commitOsc_sr (o : OscOut) : (s.commitOsc o).sr = s.sr := rfl
@[simp] theorem commitOsc_s (o : OscOut) : (s.commitOsc o).s = s.s := rfl
@[simp] theorem commitOsc_normMax (o : OscOut) : (s.commitOsc o).normMax = s.normMax := rfl
@[simp] theorem commitOsc_peakCount (o : OscOut) : (s.commitOsc o).peakCount = s.peakCount := rfl
@[simp] theorem commitOsc_intT (o : OscOut) : (s.commitOsc o).intT = s.intT := rfl
@[simp] theorem commitOsc_intLow (o : OscOut) : (s.commitOsc o).intLow = s.intLow := rfl
@[simp] theorem commitOsc_intHigh (o : OscOut) : (s.commitOsc o).intHigh = s.intHigh := rfl
@[simp] theorem commitOsc_intUw (o : OscOut) : (s.commitOsc o).intUw = s.intUw := rfl
@[simp] theorem commitOsc_intLw (o : OscOut) : (s.commitOsc o).intLw = s.intLw := rfl
@[simp] theorem commitOsc_mem (o : OscOut) : (s.commitOsc o).mem = s.mem := rfl
@[simp] theorem commitOsc_inReset (o : OscOut) : (s.commitOsc o).inReset = s.inReset := rfl
@[simp] theorem commitOsc_inputs (o : OscOut) : (s.commitOsc o).inputs = s.inputs := rfl
@[simp] theorem commitOsc_replies (o : OscOut) : (s.commitOsc o).replies = s.replies := rfl
@[simp] theorem commitOsc_draws (o : OscOut) : (s.commitOsc o).draws = s.draws + o.inc.length + o.phase.length + 1 := rfl

/-! ## commitInterp -/

@[simp] theorem commitInterp_params (o : InterpOut) : (s.commitInterp o).params = s.params := rfl
@[simp] theorem commitInterp_cmd (o : InterpOut) : (s.commitInterp o).cmd = s.cmd := rfl
@[simp] theorem commitInterp_pending (o : InterpOut) : (s.commitInterp o).pending = s.pending := rfl
@[simp] theorem commitInterp_status (o : InterpOut) : (s.commitInterp o).status = s.status := rfl
@[simp] theorem commitInterp_nvoices (o : InterpOut) : (s.commitInterp o).nvoices = s.nvoices := rfl
@[simp] theorem commitInterp_inLen (o : InterpOut) : (s.commitInterp o).inLen = s.inLen := rfl
@[simp] theorem commitInterp_sr (o : InterpOut) : (s.commitInterp o).sr = s.sr := rfl
@[simp] theorem commitInterp_s (o : InterpOut) : (s.commitInterp o).s = s.s := rfl
@[simp] theorem commitInterp_outL (o : InterpOut) : (s.commitInterp o).outL = s.outL := rfl
@[simp] theorem commitInterp_outR (o : InterpOut) : (s.commitInterp o).outR = s.outR := rfl
@[simp] theorem commitInterp_normMax (o : InterpOut) : (s.commitInterp o).normMax = s.normMax := rfl
@[simp] theorem commitInterp_peakCount (o : InterpOut) : (s.commitInterp o).peakCount = s.peakCount := rfl
@[simp] theorem commitInterp_intLow (o : InterpOut) : (s.commitInterp o).intLow = BitVec.ofNat 64 o.weights.low := rfl
@[simp] theorem commitInterp_intHigh (o : InterpOut) : (s.commitInterp o).intHigh = BitVec.ofNat 64 o.weights.high := rfl
@[simp] theorem commitInterp_mem (o : InterpOut) : (s.commitInterp o).mem = s.mem := rfl
@[simp] theorem commitInterp_inReset (o : InterpOut) : (s.commitInterp o).inReset = s.inReset := rfl
@[simp] theorem commitInterp_inputs (o : InterpOut) : (s.commitInterp o).inputs = s.inputs := rfl
@[simp] theorem commitInterp_replies (o : InterpOut) : (s.commitInterp o).replies = s.replies := rfl
@[simp] theorem commitInterp_draws (o : InterpOut) : (s.commitInterp o).draws = s.draws + o.freq.length + o.amp.length + 3 := rfl

variable (st : Status)


/-! ## STATUS: setBusy -/

@[simp] theorem status_setBusy_busy : st.setBusy.busy = true := rfl
@[simp] theorem status_setBusy_winReady : st.setBusy.winReady = st.winReady := rfl
@[simp] theorem status_setBusy_sineReady : st.setBusy.sineReady = st.sineReady := rfl
@[simp] theorem status_setBusy_norm : st.setBusy.norm = st.norm := rfl
@[simp] theorem status_setBusy_err : st.setBusy.err = st.err := rfl
@[simp] theorem status_setBusy_errMulti : st.setBusy.errMulti = st.errMulti := rfl
@[simp] theorem status_setBusy_berr : st.setBusy.berr = st.berr := rfl
@[simp] theorem status_setBusy_errcode : st.setBusy.errcode = st.errcode := rfl

/-! ## STATUS: clearBusy -/

@[simp] theorem status_clearBusy_busy : st.clearBusy.busy = false := rfl
@[simp] theorem status_clearBusy_winReady : st.clearBusy.winReady = st.winReady := rfl
@[simp] theorem status_clearBusy_sineReady : st.clearBusy.sineReady = st.sineReady := rfl
@[simp] theorem status_clearBusy_norm : st.clearBusy.norm = st.norm := rfl
@[simp] theorem status_clearBusy_err : st.clearBusy.err = st.err := rfl
@[simp] theorem status_clearBusy_errMulti : st.clearBusy.errMulti = st.errMulti := rfl
@[simp] theorem status_clearBusy_berr : st.clearBusy.berr = st.berr := rfl
@[simp] theorem status_clearBusy_errcode : st.clearBusy.errcode = st.errcode := rfl

/-! ## STATUS: setWinReady -/

@[simp] theorem status_setWinReady_busy : st.setWinReady.busy = st.busy := rfl
@[simp] theorem status_setWinReady_winReady : st.setWinReady.winReady = true := rfl
@[simp] theorem status_setWinReady_sineReady : st.setWinReady.sineReady = st.sineReady := rfl
@[simp] theorem status_setWinReady_norm : st.setWinReady.norm = st.norm := rfl
@[simp] theorem status_setWinReady_err : st.setWinReady.err = st.err := rfl
@[simp] theorem status_setWinReady_errMulti : st.setWinReady.errMulti = st.errMulti := rfl
@[simp] theorem status_setWinReady_berr : st.setWinReady.berr = st.berr := rfl
@[simp] theorem status_setWinReady_errcode : st.setWinReady.errcode = st.errcode := rfl

/-! ## STATUS: setSineReady -/

@[simp] theorem status_setSineReady_busy : st.setSineReady.busy = st.busy := rfl
@[simp] theorem status_setSineReady_winReady : st.setSineReady.winReady = st.winReady := rfl
@[simp] theorem status_setSineReady_sineReady : st.setSineReady.sineReady = true := rfl
@[simp] theorem status_setSineReady_norm : st.setSineReady.norm = st.norm := rfl
@[simp] theorem status_setSineReady_err : st.setSineReady.err = st.err := rfl
@[simp] theorem status_setSineReady_errMulti : st.setSineReady.errMulti = st.errMulti := rfl
@[simp] theorem status_setSineReady_berr : st.setSineReady.berr = st.berr := rfl
@[simp] theorem status_setSineReady_errcode : st.setSineReady.errcode = st.errcode := rfl

/-! ## STATUS: setNorm -/

@[simp] theorem status_setNorm_busy (t : Tab) (v : Bool) : (st.setNorm t v).busy = st.busy := rfl
@[simp] theorem status_setNorm_winReady (t : Tab) (v : Bool) : (st.setNorm t v).winReady = st.winReady := rfl
@[simp] theorem status_setNorm_sineReady (t : Tab) (v : Bool) : (st.setNorm t v).sineReady = st.sineReady := rfl
@[simp] theorem status_setNorm_norm (t : Tab) (v : Bool) : (st.setNorm t v).norm = st.norm.set t v := rfl
@[simp] theorem status_setNorm_err (t : Tab) (v : Bool) : (st.setNorm t v).err = st.err := rfl
@[simp] theorem status_setNorm_errMulti (t : Tab) (v : Bool) : (st.setNorm t v).errMulti = st.errMulti := rfl
@[simp] theorem status_setNorm_berr (t : Tab) (v : Bool) : (st.setNorm t v).berr = st.berr := rfl
@[simp] theorem status_setNorm_errcode (t : Tab) (v : Bool) : (st.setNorm t v).errcode = st.errcode := rfl

/-! ## STATUS: clearNorms -/

@[simp] theorem status_clearNorms_busy : st.clearNorms.busy = st.busy := rfl
@[simp] theorem status_clearNorms_winReady : st.clearNorms.winReady = st.winReady := rfl
@[simp] theorem status_clearNorms_sineReady : st.clearNorms.sineReady = st.sineReady := rfl
@[simp] theorem status_clearNorms_norm : st.clearNorms.norm = ⟨false, false⟩ := rfl
@[simp] theorem status_clearNorms_err : st.clearNorms.err = st.err := rfl
@[simp] theorem status_clearNorms_errMulti : st.clearNorms.errMulti = st.errMulti := rfl
@[simp] theorem status_clearNorms_berr : st.clearNorms.berr = st.berr := rfl
@[simp] theorem status_clearNorms_errcode : st.clearNorms.errcode = st.errcode := rfl

/-! ## STATUS: setBerr -/

@[simp] theorem status_setBerr_busy : st.setBerr.busy = st.busy := rfl
@[simp] theorem status_setBerr_winReady : st.setBerr.winReady = st.winReady := rfl
@[simp] theorem status_setBerr_sineReady : st.setBerr.sineReady = st.sineReady := rfl
@[simp] theorem status_setBerr_norm : st.setBerr.norm = st.norm := rfl
@[simp] theorem status_setBerr_err : st.setBerr.err = st.err := rfl
@[simp] theorem status_setBerr_errMulti : st.setBerr.errMulti = st.errMulti := rfl
@[simp] theorem status_setBerr_berr : st.setBerr.berr = true := rfl
@[simp] theorem status_setBerr_errcode : st.setBerr.errcode = st.errcode := rfl

/-! ## STATUS: clearErr -/

@[simp] theorem status_clearErr_busy : st.clearErr.busy = st.busy := rfl
@[simp] theorem status_clearErr_winReady : st.clearErr.winReady = st.winReady := rfl
@[simp] theorem status_clearErr_sineReady : st.clearErr.sineReady = st.sineReady := rfl
@[simp] theorem status_clearErr_norm : st.clearErr.norm = st.norm := rfl
@[simp] theorem status_clearErr_err : st.clearErr.err = false := rfl
@[simp] theorem status_clearErr_errMulti : st.clearErr.errMulti = false := rfl
@[simp] theorem status_clearErr_berr : st.clearErr.berr = st.berr := rfl
@[simp] theorem status_clearErr_errcode : st.clearErr.errcode = .none := rfl

/-! ## STATUS: clearBerr -/

@[simp] theorem status_clearBerr_busy : st.clearBerr.busy = st.busy := rfl
@[simp] theorem status_clearBerr_winReady : st.clearBerr.winReady = st.winReady := rfl
@[simp] theorem status_clearBerr_sineReady : st.clearBerr.sineReady = st.sineReady := rfl
@[simp] theorem status_clearBerr_norm : st.clearBerr.norm = st.norm := rfl
@[simp] theorem status_clearBerr_err : st.clearBerr.err = st.err := rfl
@[simp] theorem status_clearBerr_errMulti : st.clearBerr.errMulti = st.errMulti := rfl
@[simp] theorem status_clearBerr_berr : st.clearBerr.berr = false := rfl
@[simp] theorem status_clearBerr_errcode : st.clearBerr.errcode = st.errcode := rfl

/-! ## STATUS: recordError -/

@[simp] theorem status_recordError_winReady (c : ErrCode) : (st.recordError c).winReady = st.winReady := by
  unfold Status.recordError; split <;> rfl
@[simp] theorem status_recordError_sineReady (c : ErrCode) : (st.recordError c).sineReady = st.sineReady := by
  unfold Status.recordError; split <;> rfl
@[simp] theorem status_recordError_norm (c : ErrCode) : (st.recordError c).norm = st.norm := by
  unfold Status.recordError; split <;> rfl
@[simp] theorem status_recordError_berr (c : ErrCode) : (st.recordError c).berr = st.berr := by
  unfold Status.recordError; split <;> rfl
@[simp] theorem status_recordError_busy (c : ErrCode) : (st.recordError c).busy = false := by
  unfold Status.recordError; split <;> rfl
@[simp] theorem status_recordError_err (c : ErrCode) : (st.recordError c).err = true := by
  unfold Status.recordError; split
  · assumption
  · rfl
@[simp] theorem status_clear_busy (w : Word) : (st.clear w).busy = st.busy := by
  unfold Status.clear; dsimp only; split <;> split <;> rfl
@[simp] theorem status_clear_winReady (w : Word) : (st.clear w).winReady = st.winReady := by
  unfold Status.clear; dsimp only; split <;> split <;> rfl
@[simp] theorem status_clear_sineReady (w : Word) : (st.clear w).sineReady = st.sineReady := by
  unfold Status.clear; dsimp only; split <;> split <;> rfl
@[simp] theorem status_clear_norm (w : Word) : (st.clear w).norm = st.norm := by
  unfold Status.clear; dsimp only; split <;> split <;> rfl

/-! ## Voices -/

variable (v : Voice) (x y : Word)

@[simp] theorem voice_setFreqAmp_freq : (Voice.setFreqAmp x y v).freq = x := rfl
@[simp] theorem voice_setFreqAmp_amp : (Voice.setFreqAmp x y v).amp = y := rfl
@[simp] theorem voice_setFreqAmp_phase : (Voice.setFreqAmp x y v).phase = v.phase := rfl
@[simp] theorem voice_setFreqAmp_inc : (Voice.setFreqAmp x y v).inc = v.inc := rfl
@[simp] theorem voice_setIncPhase_freq : (Voice.setIncPhase x y v).freq = v.freq := rfl
@[simp] theorem voice_setIncPhase_amp : (Voice.setIncPhase x y v).amp = v.amp := rfl
@[simp] theorem voice_setIncPhase_phase : (Voice.setIncPhase x y v).phase = y := rfl
@[simp] theorem voice_setIncPhase_inc : (Voice.setIncPhase x y v).inc = x := rfl
@[simp] theorem voice_restart_freq : v.restart.freq = v.freq := rfl
@[simp] theorem voice_restart_amp : v.restart.amp = v.amp := rfl
@[simp] theorem voice_restart_phase : v.restart.phase = 0 := rfl
@[simp] theorem voice_restart_inc : v.restart.inc = 0 := rfl

/-! ## The pair of a recording's values -/

@[simp] theorem AB_get_set_same {α : Type} (p : AB α) (t : Tab) (v : α) : (p.set t v).get t = v := by cases t <;> rfl

theorem AB_get_set_other {α : Type} (p : AB α) {t u : Tab} (h : u ≠ t) (v : α) : (p.set t v).get u = p.get u := by
  cases t <;> cases u <;> first | rfl | exact absurd rfl h

end Sys2Proof.Machine
end

