-- ==== Sys2Proof/Laws/Elements.lean ====
section
/-! SUPPORT. Laws of the elements: what a command reads of what a command wrote, and of what it left alone. -/

namespace Sys2Proof.Machine

theorem allOk_eq_ok {α : Type} {os : List (Except Fault α)} {xs : List α} :
    allOk os = .ok xs ↔ os = xs.map .ok := by
  induction os generalizing xs with
  | nil => cases xs <;> simp [allOk]
  | cons o os ih =>
    cases o with
    | error e => cases xs <;> simp [allOk]
    | ok x =>
      cases xs with
      | nil =>
        simp only [allOk]
        cases h : allOk os <;> simp
      | cons y ys =>
        simp only [allOk, List.map_cons, List.cons.injEq, Except.ok.injEq]
        cases h : allOk os with
        | error e =>
          simp only [reduceCtorEq, false_iff, not_and]
          intro _ h2
          rw [ih.2 h2] at h
          cases h
        | ok zs =>
          rw [Except.ok.injEq, List.cons.injEq]
          constructor
          · rintro ⟨rfl, rfl⟩
            exact ⟨rfl, ih.1 h⟩
          · rintro ⟨rfl, h2⟩
            have := ih.2 h2
            rw [h] at this
            injection this with this
            exact ⟨rfl, this⟩

/-- Reads that all answer give the list of their answers. -/
theorem allOk_map_ok {α β : Type} {f : α → Except Fault β} {g : α → β} {l : List α} (h : ∀ x ∈ l, f x = .ok (g x)) :
    allOk (l.map f) = .ok (l.map g) := by
  rw [allOk_eq_ok, List.map_map]
  exact List.map_congr_left h

theorem allOk_length {α : Type} {os : List (Except Fault α)} {xs : List α} (h : allOk os = .ok xs) :
    xs.length = os.length := by
  rw [allOk_eq_ok.1 h, List.length_map]

/-! ## Sealed values -/

@[simp] theorem sealAll_length (k : Nat) (vs : List F64) : (sealAll k vs).length = vs.length := by
  induction vs generalizing k with
  | nil => rfl
  | cons v vs ih => simp [sealAll, ih]

theorem sealAll_getElem (k : Nat) (vs : List F64) (i : Nat) (h : i < (sealAll k vs).length) :
    (sealAll k vs)[i] = (vs[i]'(by simpa using h)).toWord (Config.freeNan (k + i)) := by
  induction vs generalizing k i with
  | nil => simp [sealAll] at h
  | cons v vs ih =>
    cases i with
    | zero => rfl
    | succ i =>
      simp only [sealAll, List.getElem_cons_succ]
      rw [ih]
      congr 2
      omega

theorem map_ofWord_sealAll (k : Nat) {vs : List F64} (h : ∀ v ∈ vs, v.valid) :
    (sealAll k vs).map F64.ofWord = vs := by
  induction vs generalizing k with
  | nil => rfl
  | cons v vs ih =>
    simp only [sealAll, List.map_cons]
    rw [ofWord_toWord (h v (by simp)), ih (k + 1) (fun x hx => h x (by simp [hx]))]

/-! ## Reads of what was written -/

theorem readF64_putF64s (s : State) (sp : Space) (a : Nat) (vs : List F64) (i : Nat) (h : i < vs.length)
    (hv : vs[i].valid) : (s.putF64s a vs).readF64 sp (a + 8 * i) = .ok vs[i] := by
  unfold State.readF64
  rw [putF64s_mem, word_put_inside (i := i) (by simpa using h), sealAll_getElem]
  simp [require, ofWord_toWord hv]

theorem readF64_congr {s s' : State} {sp : Space} {a : Nat}
    (h : ∀ x, a ≤ x → x < a + 8 → s.mem.get x = s'.mem.get x) : s.readF64 sp a = s'.readF64 sp a := by
  unfold State.readF64
  rw [word_congr h]

theorem readF64_putF64s_outside (s : State) (sp : Space) (a : Nat) (vs : List F64) (x : Nat)
    (h : x + 8 ≤ a ∨ a + 8 * vs.length ≤ x) : (s.putF64s a vs).readF64 sp x = s.readF64 sp x := by
  unfold State.readF64
  rw [putF64s_mem, word_put_outside (by simpa using h)]

theorem get_putF64s_outside (s : State) (a : Nat) (vs : List F64) (x : Nat) (h : x < a ∨ a + 8 * vs.length ≤ x) :
    (s.putF64s a vs).mem.get x = s.mem.get x := by
  rw [putF64s_mem, get_putWords_outside (by simpa using h)]

@[simp] theorem flattenCx_length (xs : List Cx) : (flattenCx xs).length = 2 * xs.length := by
  simp [flattenCx, List.length_flatMap, Nat.mul_comm]

@[simp] theorem flattenEntries_length (es : List Entry) : (flattenEntries es).length = 2 * es.length := by
  simp [flattenEntries, List.length_flatMap, Nat.mul_comm]

/-- A complex value whose parts are binary64 values. -/
def Cx.valid (x : Cx) : Prop := x.re.valid ∧ x.im.valid

theorem f64OfBytes_word (w : Word) : f64OfBytes (bytesOf 8 w.toNat) = F64.ofWord w := by
  unfold f64OfBytes
  rw [numberOf_word]

theorem cx_elements (k : Nat) (xs : List Cx) (h : ∀ x ∈ xs, x.valid) :
    (List.range xs.length).map (fun i =>
      cxOfBytes ((((sealAll k (flattenCx xs)).drop (2 * i)).take 2).flatMap (fun w => bytesOf 8 w.toNat))) = xs := by
  induction xs generalizing k with
  | nil => rfl
  | cons x xs ih =>
    rw [List.length_cons, List.range_succ_eq_map, List.map_cons, List.map_map]
    have hx := h x (by simp)
    have hs : sealAll k (flattenCx (x :: xs))
        = x.re.toWord (Config.freeNan k) :: x.im.toWord (Config.freeNan (k + 1)) :: sealAll (k + 2) (flattenCx xs) := rfl
    refine List.cons_eq_cons.2 ⟨?_, ?_⟩
    · rw [hs]
      simp only [Nat.mul_zero, List.drop_zero, List.take_succ_cons, List.take_zero, List.flatMap_cons,
        List.flatMap_nil, List.append_nil]
      unfold cxOfBytes
      rw [List.take_left' (length_bytesOf 8 _), List.drop_left' (length_bytesOf 8 _), f64OfBytes_word, f64OfBytes_word,
        ofWord_toWord hx.1, ofWord_toWord hx.2]
    · have ih' := ih (k + 2) (fun y hy => h y (by simp [hy]))
      conv_rhs => rw [← ih']
      apply List.map_congr_left
      intro i _
      simp only [Function.comp_apply]
      have h2 : 2 * (i + 1) = 2 * i + 2 := by omega
      rw [h2, hs, List.drop_succ_cons, List.drop_succ_cons]

/-- FFTBUF holds what was written to it. -/
theorem readFfts_writeFfts (s : State) (xs : List Cx) (h : ∀ x ∈ xs, x.valid) :
    (s.writeFfts xs).readFfts xs.length = .ok xs := by
  unfold State.readFfts
  rw [writeFfts_mem, elems_putWords s.mem (fftAddr 0) 2 xs.length (sealAll s.draws (flattenCx xs)) (by simp)]
  simp only [Option.map_some, List.map_map, require, Except.ok.injEq]
  exact cx_elements s.draws xs h

theorem readFfts_congr {s s' : State} {n : Nat}
    (h : ∀ x, fftAddr 0 ≤ x → x < fftAddr n → s.mem.get x = s'.mem.get x) : s.readFfts n = s'.readFfts n := by
  unfold State.readFfts
  rw [elems_congr (Nat.le_refl 16) (m' := s'.mem) (fun x h1 h2 => h x h1 (by unfold fftAddr at *; omega))]

theorem readFfts_valid {s : State} {n : Nat} {xs : List Cx} (h : s.readFfts n = .ok xs) : ∀ x ∈ xs, x.valid := by
  unfold State.readFfts at h
  cases he : s.mem.elems (fftAddr 0) 16 16 n with
  | none => rw [he] at h; cases h
  | some bs =>
    rw [he] at h
    simp only [Option.map_some, require, Except.ok.injEq] at h
    subst h
    intro x hx
    obtain ⟨b, _, rfl⟩ := List.mem_map.1 hx
    exact ⟨ofWord_valid _, ofWord_valid _⟩

theorem elems_length {m : Mem} {a stride width n : Nat} {bs : List (List Byte)} (h : m.elems a stride width n = some bs) :
    bs.length = n := by
  unfold Mem.elems at h
  have := congrArg List.length (allSome_eq_some.1 h)
  simpa using this.symm

theorem readFfts_length {s : State} {n : Nat} {xs : List Cx} (h : s.readFfts n = .ok xs) : xs.length = n := by
  unfold State.readFfts at h
  cases he : s.mem.elems (fftAddr 0) 16 16 n with
  | none => rw [he] at h; cases h
  | some bs =>
    rw [he] at h
    simp only [Option.map_some, require, Except.ok.injEq] at h
    subst h
    rw [List.length_map, elems_length he]

theorem word_elements (k : Nat) (vs : List F64) (h : ∀ v ∈ vs, v.valid) :
    (List.range vs.length).map (fun i =>
      f64OfBytes ((((sealAll k vs).drop (1 * i)).take 1).flatMap (fun w => bytesOf 8 w.toNat))) = vs := by
  induction vs generalizing k with
  | nil => rfl
  | cons v vs ih =>
    rw [List.length_cons, List.range_succ_eq_map, List.map_cons, List.map_map]
    have hs : sealAll k (v :: vs) = v.toWord (Config.freeNan k) :: sealAll (k + 1) vs := rfl
    refine List.cons_eq_cons.2 ⟨?_, ?_⟩
    · rw [hs]
      simp only [Nat.mul_zero, List.drop_zero, List.take_succ_cons, List.take_zero, List.flatMap_cons,
        List.flatMap_nil, List.append_nil]
      rw [f64OfBytes_word, ofWord_toWord (h v (by simp))]
    · have ih' := ih (k + 1) (fun y hy => h y (by simp [hy]))
      conv_rhs => rw [← ih']
      apply List.map_congr_left
      intro i _
      simp only [Function.comp_apply]
      have h2 : 1 * (i + 1) = 1 * i + 1 := by omega
      rw [h2, hs, List.drop_succ_cons]

/-- WINTAB holds the table that was written to it. -/
theorem readWintab_putF64s (s : State) (vs : List F64) (hl : vs.length = s.params.win) (h : ∀ v ∈ vs, v.valid) :
    (s.putF64s (wintabAddr 0) vs).readWintab = .ok vs := by
  unfold State.readWintab
  rw [putF64s_mem, putF64s_params, ← hl,
    elems_putWords s.mem (wintabAddr 0) 1 vs.length (sealAll s.draws vs) (by simp)]
  simp only [Option.map_some, List.map_map, require, Except.ok.injEq]
  exact word_elements s.draws vs h

theorem readWintab_congr {s s' : State} (hp : s.params = s'.params)
    (h : ∀ x, wintabAddr 0 ≤ x → x < wintabAddr s.params.win → s.mem.get x = s'.mem.get x) :
    s.readWintab = s'.readWintab := by
  unfold State.readWintab
  rw [← hp, elems_congr (Nat.le_refl 8) (m' := s'.mem) (fun x h1 h2 => h x h1 (by unfold wintabAddr at *; omega))]

theorem readWintab_length {s : State} {ws : List F64} (h : s.readWintab = .ok ws) : ws.length = s.params.win := by
  unfold State.readWintab at h
  cases he : s.mem.elems (wintabAddr 0) 8 8 s.params.win with
  | none => rw [he] at h; cases h
  | some bs =>
    rw [he] at h
    simp only [Option.map_some, require, Except.ok.injEq] at h
    subst h
    rw [List.length_map, elems_length he]

theorem readSamples_congr {s s' : State} {t : Tab} {i n : Nat}
    (h : ∀ x, inbufAddr t i ≤ x → x < inbufAddr t (i + n) → s.mem.get x = s'.mem.get x) :
    s.readSamples t i n = s'.readSamples t i n := by
  unfold State.readSamples
  rw [elems_congr (by omega) (m' := s'.mem) (fun x h1 h2 => h x h1 (by unfold inbufAddr at *; omega))]

theorem readSamples_length {s : State} {t : Tab} {i n : Nat} {xs : List F64} (h : s.readSamples t i n = .ok xs) :
    xs.length = n := by
  unfold State.readSamples at h
  cases he : s.mem.elems (inbufAddr t i) 8 4 n with
  | none => rw [he] at h; cases h
  | some bs =>
    rw [he] at h
    simp only [Option.map_some, require, Except.ok.injEq] at h
    subst h
    rw [List.length_map, elems_length he]

theorem readSamples_valid {s : State} {t : Tab} {i n : Nat} {xs : List F64} (h : s.readSamples t i n = .ok xs) :
    ∀ x ∈ xs, x.valid := by
  unfold State.readSamples at h
  cases he : s.mem.elems (inbufAddr t i) 8 4 n with
  | none => rw [he] at h; cases h
  | some bs =>
    rw [he] at h
    simp only [Option.map_some, require, Except.ok.injEq] at h
    subst h
    intro x hx
    obtain ⟨b, _, rfl⟩ := List.mem_map.1 hx
    exact ofBinary32_valid _

end Sys2Proof.Machine
end

