-- ==== Sys2Proof/Laws/Rounding.lean ====
section
/-! SUPPORT. Laws of rounding: the value of a magnitude pattern grows with the pattern, and a number that needs at most 53
significant bits is rounded to itself. -/

namespace Sys2Proof.Machine

set_option exponentiation.threshold 2200

/-- A larger pattern is a larger magnitude. -/
theorem magUnits_lt {m n : Nat} (h : m < n) : magUnits m < magUnits n := by
  have hm := Nat.div_add_mod m (2 ^ 52)
  have hn := Nat.div_add_mod n (2 ^ 52)
  have hm2 := Nat.mod_lt m (Nat.two_pow_pos 52)
  have hn2 := Nat.mod_lt n (Nat.two_pow_pos 52)
  unfold magUnits
  dsimp only
  generalize m / 2 ^ 52 = em at *
  generalize n / 2 ^ 52 = en at *
  generalize m % 2 ^ 52 = fm at *
  generalize n % 2 ^ 52 = fn at *
  rcases Nat.lt_or_ge em en with he | he
  · have hen : ¬ en = 0 := by omega
    rw [if_neg hen]
    split
    · have := Nat.le_mul_of_pos_right (2 ^ 52 + fn) (Nat.two_pow_pos (en - 1))
      omega
    · have h1 : (2 : Nat) ^ (em - 1) * 2 ≤ 2 ^ (en - 1) := by
        rw [← Nat.pow_succ]
        exact Nat.pow_le_pow_right (by omega) (by omega)
      have h2 : (2 ^ 52 + fm) * 2 ^ (em - 1) < 2 ^ 53 * 2 ^ (em - 1) :=
        Nat.mul_lt_mul_of_pos_right (by omega) (Nat.two_pow_pos _)
      have h3 : 2 ^ 52 * 2 ^ (en - 1) ≤ (2 ^ 52 + fn) * 2 ^ (en - 1) := Nat.mul_le_mul_right _ (by omega)
      have h4 : 2 ^ 52 * (2 ^ (em - 1) * 2) ≤ 2 ^ 52 * 2 ^ (en - 1) := Nat.mul_le_mul_left _ h1
      generalize 2 ^ (em - 1) = a at *
      generalize 2 ^ (en - 1) = b at *
      have h5 : 2 ^ 53 * a = 2 ^ 52 * (a * 2) := by omega
      omega
  · have he2 : em = en := by omega
    subst he2
    split
    · omega
    · exact Nat.mul_lt_mul_of_pos_right (by omega) (Nat.two_pow_pos _)

theorem magUnits_le {m n : Nat} (h : m ≤ n) : magUnits m ≤ magUnits n := by
  rcases Nat.lt_or_ge m n with h1 | h1
  · exact Nat.le_of_lt (magUnits_lt h1)
  · rw [Nat.le_antisymm h h1]

theorem magUnits_lt_iff {m n : Nat} : magUnits m < magUnits n ↔ m < n :=
  ⟨fun h => Nat.lt_of_not_le fun h1 => absurd (magUnits_le h1) (by omega), magUnits_lt⟩

@[simp] theorem magUnits_zero : magUnits 0 = 0 := by decide

/-- The magnitude of 1.0. -/
theorem magUnits_one : magUnits 0x3FF0000000000000 = 2 ^ 1074 := by decide +kernel

/-- Every magnitude is a significand of at most 53 bits times a power of two. -/
theorem magUnits_split (m : Nat) : ∃ f e, f < 2 ^ 53 ∧ magUnits m = f * 2 ^ e := by
  unfold magUnits
  dsimp only
  split
  · exact ⟨m % 2 ^ 52, 0, by omega, by omega⟩
  · exact ⟨2 ^ 52 + m % 2 ^ 52, m / 2 ^ 52 - 1, by omega, rfl⟩

/-- The magnitude of the pattern that `roundMag` builds from an exponent step and a significand. -/
theorem pattern_units {k m v : Nat} (hlt : m < 2 ^ 53) (hge : 0 < k → 2 ^ 52 ≤ m) (hk : k ≤ 2045) (hv : v = 2 ^ k * m) :
    magUnits (min (k * 2 ^ 52 + m) infMag) = v ∧ min (k * 2 ^ 52 + m) infMag < infMag := by
  have hi : k * 2 ^ 52 + m < infMag := by
    rw [infMag_eq]
    omega
  rw [Nat.min_eq_left (Nat.le_of_lt hi), hv]
  refine ⟨?_, hi⟩
  clear hi hv
  unfold magUnits
  dsimp only
  rcases Nat.lt_or_ge m (2 ^ 52) with h | h
  · have hk0 : k = 0 := by
      rcases Nat.eq_zero_or_pos k with h0 | h0
      · exact h0
      · exact absurd (hge h0) (by omega)
    subst hk0
    rw [Nat.zero_mul, Nat.zero_add, Nat.div_eq_of_lt h, Nat.mod_eq_of_lt h, if_pos rfl, Nat.pow_zero, Nat.one_mul]
  · have h1 : (k * 2 ^ 52 + m) / 2 ^ 52 = k + 1 := by omega
    have h2 : 2 ^ 52 + (k * 2 ^ 52 + m) % 2 ^ 52 = m := by omega
    rw [h1, h2, if_neg (Nat.succ_ne_zero k), Nat.add_sub_cancel, Nat.mul_comm]

/-- A quotient that is a whole number of at most 53 significant bits, in range, is rounded to itself. -/
theorem magUnits_roundMag {n d f e : Nat} (hd : 0 < d) (hf : f < 2 ^ 53) (hn : n = d * (f * 2 ^ e))
    (hb : f * 2 ^ e < 2 ^ 2098) : magUnits (roundMag n d) = f * 2 ^ e ∧ roundMag n d < infMag := by
  have hq : n / d = f * 2 ^ e := by rw [hn, Nat.mul_div_cancel_left _ hd]
  generalize hv : f * 2 ^ e = v at *
  have hve : v < 2 ^ (53 + e) := by
    rw [← hv, Nat.pow_add]
    exact Nat.mul_lt_mul_of_pos_right hf (Nat.two_pow_pos _)
  have hdvd : ∀ k, k ≤ e → 2 ^ k ∣ v := by
    intro k hk
    rw [← hv]
    exact Nat.dvd_mul_left_of_dvd (Nat.pow_dvd_pow 2 hk) f
  unfold roundMag
  rw [hq]
  generalize hk : v.log2 - 52 = k
  have hke : k ≤ e := by
    rcases Nat.eq_zero_or_pos v with h0 | h0
    · subst h0
      simp at hk
      omega
    · have := (Nat.log2_lt (by omega)).2 hve
      omega
  obtain ⟨m, hm⟩ := hdvd k hke
  have hpos : 0 < d * 2 ^ k := Nat.mul_pos hd (Nat.two_pow_pos _)
  have hdte : divTiesEven n (d * 2 ^ k) = m := by
    rw [hn, hm]
    unfold divTiesEven
    dsimp only
    rw [← Nat.mul_assoc, Nat.mul_mod_right, Nat.mul_div_cancel_left _ hpos, if_pos (by omega)]
  dsimp only
  rw [hdte]
  have hlt : m < 2 ^ 53 := by
    have h1 : v < 2 ^ (v.log2 + 1) := Nat.lt_log2_self
    have h2 : (2 : Nat) ^ (v.log2 + 1) ≤ 2 ^ (k + 53) := Nat.pow_le_pow_right (by omega) (by omega)
    have h3 : 2 ^ k * m < 2 ^ k * 2 ^ 53 := by
      rw [← hm, ← Nat.pow_add]
      omega
    exact Nat.lt_of_mul_lt_mul_left h3
  have hge : 0 < k → 2 ^ 52 ≤ m := by
    intro hk0
    have h0 : v ≠ 0 := by
      intro h0
      rw [h0] at hk
      simp at hk
      omega
    have h1 : 2 ^ v.log2 ≤ v := Nat.log2_self_le h0
    have h2 : v.log2 = k + 52 := by omega
    rw [h2, Nat.pow_add, hm] at h1
    exact Nat.le_of_mul_le_mul_left h1 (Nat.two_pow_pos _)
  have hk2 : k ≤ 2045 := by
    rcases Nat.eq_zero_or_pos v with h0 | h0
    · subst h0
      simp at hk
      omega
    · have := (Nat.log2_lt (by omega)).2 hb
      omega
  clear hb
  exact pattern_units hlt hge hk2 hm

/-- A finite value times a power of two is exact where it stays in range. -/
theorem mul_two_pow_exact {m j : Nat} (h : magUnits m * 2 ^ j < 2 ^ 2098) :
    magUnits (roundMag (magUnits m * (2 ^ j * 2 ^ 1074)) (2 ^ 1074)) = magUnits m * 2 ^ j
      ∧ roundMag (magUnits m * (2 ^ j * 2 ^ 1074)) (2 ^ 1074) < infMag := by
  obtain ⟨f, e, hf, he⟩ := magUnits_split m
  have h1 : magUnits m * 2 ^ j = f * 2 ^ (e + j) := by rw [he, Nat.pow_add, Nat.mul_assoc]
  rw [h1]
  refine magUnits_roundMag (Nat.two_pow_pos _) hf ?_ (h1 ▸ h)
  rw [he, Nat.pow_add]
  generalize (2 : Nat) ^ 1074 = c
  ac_rfl

theorem two_pow_1127 : (2 : Nat) ^ 53 * 2 ^ 1074 < 2 ^ 2098 := by
  rw [← Nat.pow_add]
  exact Nat.pow_lt_pow_right (by omega) (by omega)

/-- The pattern of a converted integer. -/
theorem ofNat_mag {k : Nat} (h : k < 2 ^ 53) :
    magUnits (roundMag (k * 2 ^ 1074) 1) = k * 2 ^ 1074 ∧ roundMag (k * 2 ^ 1074) 1 < infMag := by
  refine magUnits_roundMag (by omega) h (by rw [Nat.one_mul]) ?_
  have h1 := two_pow_1127
  have h2 : k * 2 ^ 1074 < 2 ^ 53 * 2 ^ 1074 := Nat.mul_lt_mul_of_pos_right h (Nat.two_pow_pos _)
  exact Nat.lt_trans h2 h1

end Sys2Proof.Machine
end

