-- ==== Sys2Proof/Laws/Commands.lean ====
section
/-! SUPPORT. What a command, a bus transaction and a step can do, said once: each answer with the checks that lead to it. -/

namespace Sys2Proof.Machine

/-! ## What each command that can fail answers -/

theorem execLoadFrame_next {t : Tab} {f : Nat} {s u : State} (h : execLoadFrame t f s = .next u) :
    (s.frames t ≤ f ∧ u = s.cmdError .frameRange)
      ∨ (f < s.frames t ∧ ∃ b, s.load t f = .ok b ∧ u = (s.writeFfts b).complete) := by
  unfold execLoadFrame at h
  split at h
  · cases h
    exact .inl ⟨‹_›, rfl⟩
  · split at h <;> cases h
    exact .inr ⟨by omega, _, ‹_›, rfl⟩

theorem execWindow_next {s u : State} (h : execWindow s = .next u) :
    (s.status.winReady = false ∧ u = s.cmdError .winNotReady)
      ∨ (s.status.winReady = true ∧ ∃ x w, s.readFfts s.params.win = .ok x ∧ s.readWintab = .ok w
          ∧ u = (s.writeFfts (applyWindow x w)).complete) := by
  unfold execWindow at h
  split at h
  · cases h
    exact .inl ⟨‹_›, rfl⟩
  · rename_i hr
    rw [Bool.not_eq_false] at hr
    split at h <;> cases h
    exact .inr ⟨hr, _, _, ‹_›, ‹_›, rfl⟩

theorem execFft_next {s u : State} (h : execFft s = .next u) :
    ∃ x, s.readFfts s.params.nfft = .ok x ∧ u = (s.writeFfts (fft s.params.trig x)).complete := by
  unfold execFft at h
  split at h <;> cases h
  exact ⟨_, ‹_›, rfl⟩

theorem execPeaks_next {t : Tab} {f : Nat} {s u : State} (h : execPeaks t f s = .next u) :
    (s.frames t ≤ f ∧ u = s.cmdError .frameRange)
      ∨ (f < s.frames t ∧ ∃ x, s.readFfts (s.params.nfft / 2 + 1) = .ok x
          ∧ u = (((s.writeEntries t f (extract s.params.nfft (F64.ofWord (s.sr.get t)) s.voiceCount x).1).setPeakCount
                (extract s.params.nfft (F64.ofWord (s.sr.get t)) s.voiceCount x).2).setNorm t false).complete) := by
  unfold execPeaks at h
  split at h
  · cases h
    exact .inl ⟨‹_›, rfl⟩
  · split at h <;> cases h
    exact .inr ⟨by omega, _, ‹_›, rfl⟩

theorem execAnalyze_next {t : Tab} {s u : State} (h : execAnalyze t s = .next u) :
    (s.status.winReady = false ∧ u = s.cmdError .winNotReady)
      ∨ (s.status.winReady = true ∧ ∃ rs, allOk ((List.range (s.frames t)).map (s.analyseFrame t)) = .ok rs
          ∧ u = (((State.writeFrames t 0 rs s).leaveLast rs.getLast?).setNorm t false).complete) := by
  unfold execAnalyze at h
  split at h
  · cases h
    exact .inl ⟨‹_›, rfl⟩
  · rename_i hr
    rw [Bool.not_eq_false] at hr
    split at h <;> cases h
    exact .inr ⟨hr, _, ‹_›, rfl⟩

/-- The amplitudes NORMALIZE scans. -/
def State.scannedAmps (s : State) (t : Tab) : Except Fault (List F64) :=
  allOk ((scanned (s.frames t) s.voiceCount).map (fun e => s.readAmp t e.1 e.2))

theorem execNormalize_next {t : Tab} {s u : State} (h : execNormalize t s = .next u) :
    ∃ amps, s.scannedAmps t = .ok amps
      ∧ ((F64.eq (scanMax F64.zero amps) F64.zero = true ∧ u = s.cmdError .zeroMax)
        ∨ (F64.eq (scanMax F64.zero amps) F64.zero = false ∧ F64.eq (scanMax F64.zero amps) (.num false infMag) = true
            ∧ u = s.cmdError .nonfinite)
        ∨ (F64.eq (scanMax F64.zero amps) F64.zero = false ∧ F64.eq (scanMax F64.zero amps) (.num false infMag) = false
            ∧ u = (s.commitNormalize t (scanned (s.frames t) s.voiceCount) amps (scanMax F64.zero amps)).complete)) := by
  unfold execNormalize at h
  dsimp only at h
  split at h
  · cases h
  · rename_i amps ha
    refine ⟨amps, ha, ?_⟩
    split at h
    · cases h
      exact .inl ⟨‹_›, rfl⟩
    · rename_i h1
      rw [Bool.not_eq_true] at h1
      split at h
      · cases h
        exact .inr (.inl ⟨h1, ‹_›, rfl⟩)
      · rename_i h2
        rw [Bool.not_eq_true] at h2
        cases h
        exact .inr (.inr ⟨h1, h2, rfl⟩)

theorem execInterp_next {s u : State} (h : execInterp s = .next u) :
    (s.frameLimit = 0 ∧ u = s.cmdError .empty)
      ∨ (s.frameLimit ≠ 0 ∧ ∃ o, s.interpolate = .ok o ∧ u = (s.commitInterp o).complete) := by
  unfold execInterp at h
  split at h
  · cases h
    exact .inl ⟨‹_›, rfl⟩
  · split at h <;> cases h
    exact .inr ⟨‹_›, _, ‹_›, rfl⟩

/-- The oscillator step that OSC takes: with the voices' own FREQ and AMP. -/
def State.voiceStep (s : State) : OscResult :=
  s.oscStep (s.activeVoices.map (fun v => F64.ofWord v.freq)) (s.activeVoices.map (fun v => F64.ofWord v.amp))
    s.activePhases

theorem execOsc_next {s u : State} (h : execOsc s = .next u) :
    (s.status.sineReady = false ∧ u = s.cmdError .sineNotReady)
      ∨ (s.status.sineReady = true ∧ s.voiceStep = .nonfinite ∧ u = s.cmdError .nonfinite)
      ∨ (s.status.sineReady = true ∧ ∃ o, s.voiceStep = .ok o ∧ u = (s.commitOsc o).complete) := by
  unfold execOsc at h
  split at h
  · cases h
    exact .inl ⟨‹_›, rfl⟩
  · rename_i hr
    rw [Bool.not_eq_false] at hr
    split at h <;> cases h
    · exact .inr (.inl ⟨hr, ‹_›, rfl⟩)
    · exact .inr (.inr ⟨hr, _, ‹_›, rfl⟩)

theorem execSynth_next {s u : State} (h : execSynth s = .next u) :
    (s.status.sineReady = false ∧ u = s.cmdError .sineNotReady)
      ∨ (s.status.sineReady = true ∧ s.frameLimit = 0 ∧ u = s.cmdError .empty)
      ∨ (s.status.sineReady = true ∧ s.frameLimit ≠ 0 ∧ ∃ o, s.interpolate = .ok o
          ∧ ((s.oscStep o.freq o.amp s.activePhases = .nonfinite ∧ u = s.cmdError .nonfinite)
            ∨ ∃ r, s.oscStep o.freq o.amp s.activePhases = .ok r
                ∧ u = { ((s.commitInterp o).commitOsc r) with s := s.nextSample }.complete)) := by
  unfold execSynth at h
  split at h
  · cases h
    exact .inl ⟨‹_›, rfl⟩
  · rename_i hr
    rw [Bool.not_eq_false] at hr
    split at h
    · cases h
      exact .inr (.inl ⟨hr, ‹_›, rfl⟩)
    · refine .inr (.inr ⟨hr, ‹_›, ?_⟩)
      split at h
      · cases h
      · refine ⟨_, ‹_›, ?_⟩
        split at h <;> cases h
        · exact .inl ⟨‹_›, rfl⟩
        · exact .inr ⟨_, ‹_›, rfl⟩

/-- An oscillator step that answers: every increment is finite, and every lookup succeeded. -/
theorem oscStep_ok {s : State} {freq amp phase : List F64} {o : OscOut} (h : s.oscStep freq amp phase = .ok o) :
    (∀ i ∈ s.increments freq, i.isFinite = true) ∧ ∃ ys, allOk (phase.map s.sineLookup) = .ok ys
      ∧ o = ⟨s.increments freq, advancePhases phase (s.increments freq),
          (mixSum F64.zero amp ys).div (F64.ofNat s.voiceCount)⟩ := by
  unfold State.oscStep at h
  dsimp only at h
  split at h
  · cases h
  · rename_i hf
    split at h <;> cases h
    refine ⟨fun i hi => ?_, _, ‹_›, rfl⟩
    by_contra hc
    exact hf (List.any_eq_true.2 ⟨i, hi, by simpa using hc⟩)

/-- An interpolation that answers. -/
theorem interpolate_ok {s : State} {o : InterpOut} (h : s.interpolate = .ok o) :
    o.weights = weightsAt s.s.toNat s.sLimit s.frameLimit
      ∧ allOk ((List.range s.voiceCount).map (s.interpFreq o.weights)) = .ok o.freq
      ∧ allOk ((List.range s.voiceCount).map (s.interpAmp o.weights)) = .ok o.amp := by
  unfold State.interpolate at h
  dsimp only at h
  split at h <;> cases h
  exact ⟨rfl, ‹_›, ‹_›⟩

/-! ## The bus -/

/-- A read changes nothing but the responses, the draws and BERR. -/
theorem busRead_eq (s : State) (addr : BitVec 32) :
    (∃ d k, s.busRead addr = { s with replies := .readOk d :: s.replies, draws := s.draws + k })
      ∨ (∃ c, s.busRead addr = s.readError c) ∨ s.busRead addr = s.reply (readRejected .inReset) := by
  have he : ∀ (v : Option Word) (f : Word → Word), ∃ d k,
      s.readElement v f = { s with replies := .readOk d :: s.replies, draws := s.draws + k } := by
    intro v f
    cases v with
    | some w => exact ⟨w, 0, rfl⟩
    | none => exact ⟨_, 1, rfl⟩
  unfold State.busRead
  split
  · exact .inr (.inr rfl)
  split
  · exact .inr (.inl ⟨_, rfl⟩)
  split
  · exact .inr (.inl ⟨_, rfl⟩)
  split
  · exact .inr (.inl ⟨_, rfl⟩)
  · rename_i g _
    left
    cases g with
    | reg r => exact ⟨_, 0, rfl⟩
    | voice n f => exact ⟨_, 0, rfl⟩
    | fft a => exact he _ _
    | wintab a => exact he _ _
    | sinetab a => exact he _ _
    | atab t a => exact he _ _
    | inbuf t a => exact he _ _

/-- A write is rejected, or reaches an aligned, mapped target of an idle block outside reset. -/
theorem busWrite_cases (s : State) (addr : BitVec 32) (w : Word) :
    s.busWrite addr w = s.reply (.writeErr .inReset) ∨ (∃ c, s.busWrite addr w = s.writeError c)
      ∨ ∃ g, s.inReset = false ∧ addr.toNat % 8 = 0 ∧ s.status.busy = false
          ∧ decodeAddr s.params addr.toNat = some g ∧ s.busWrite addr w = s.writeTarget w g := by
  unfold State.busWrite
  split
  · exact .inl rfl
  split
  · exact .inr (.inl ⟨_, rfl⟩)
  split
  · exact .inr (.inl ⟨_, rfl⟩)
  split
  · exact .inr (.inl ⟨_, rfl⟩)
  · exact .inr (.inr ⟨_, by simp_all, by simp_all, by simp_all, ‹_›, rfl⟩)

/-! ## The step -/

/-- Everything a step can answer: a command's end, a decoding error, an input taken, or nothing. -/
theorem step_next {s u : State} (h : step s = .next u) :
    s.params.legal = true ∧
      ((s.sequencerTurn = true ∧ ∃ i, decode s.pending = .ok i ∧ exec i s = .next u)
        ∨ (s.sequencerTurn = true ∧ ∃ e, decode s.pending = .error e ∧ u = s.cmdError (decodeErrCode e))
        ∨ (s.sequencerTurn = false ∧ s.inputs = [] ∧ u = s)
        ∨ (s.sequencerTurn = false ∧ ∃ i rest, s.inputs = i :: rest
            ∧ State.takeEvent { s with inputs := rest } i.event = .next u)) := by
  unfold step at h
  split at h
  · cases h
  rename_i hl
  refine ⟨by simpa using hl, ?_⟩
  split at h
  · rename_i ht
    unfold State.runPending at h
    split at h
    · exact .inl ⟨ht, _, ‹_›, h⟩
    · cases h
      exact .inr (.inl ⟨ht, _, ‹_›, rfl⟩)
  · rename_i ht
    rw [Bool.not_eq_true] at ht
    unfold State.takeInput at h
    split at h
    · cases h
      exact .inr (.inr (.inl ⟨ht, ‹_›, rfl⟩))
    · exact .inr (.inr (.inr ⟨ht, _, _, ‹_›, h⟩))

/-- Everything an input can do. -/
theorem takeEvent_next {s u : State} {e : HostEvent} (h : s.takeEvent e = .next u) :
    (∃ addr, u = s.busRead addr) ∨ (∃ addr w, u = s.busWrite addr w) ∨ u = s.assertReset ∨ u = s.releaseReset := by
  cases e with
  | read addr =>
    cases h
    exact .inl ⟨_, rfl⟩
  | write addr data =>
    cases h
    exact .inr (.inl ⟨_, _, rfl⟩)
  | narrow bits addr => cases h
  | assertReset =>
    cases h
    exact .inr (.inr (.inl rfl))
  | releaseReset =>
    cases h
    exact .inr (.inr (.inr rfl))

end Sys2Proof.Machine
end

