-- ==== Sys2Proof/Laws/Bus.lean ====
section
/-! SUPPORT. Where the target of a bus transaction lies. -/

namespace Sys2Proof.Machine

/-- What a target says of the offset it was decoded from (20_memory.md R64). -/
def Target.At (p : Params) (a : Nat) : Target → Prop
  | .reg r => a ≤ 0xFFF ∧ regAt a = some r
  | .voice n f => 0x1000 ≤ a ∧ a ≤ 0x1FFF ∧ n = (a - 0x1000) / 32 ∧ n < p.nmax ∧ f = voiceFieldAt ((a - 0x1000) % 32 / 8)
  | .fft b => b = a ∧ 0x00100000 ≤ a ∧ a ≤ 0x001FFFFF ∧ (a - 0x00100000) / 16 < p.nfft
  | .wintab b => b = a ∧ 0x00200000 ≤ a ∧ a ≤ 0x0027FFFF ∧ (a - 0x00200000) / 8 < p.win
  | .sinetab b => b = a ∧ 0x00280000 ≤ a ∧ a ≤ 0x002FFFFF ∧ (a - 0x00280000) / 8 < p.sine
  | .atab t b => b = a ∧ 0x01000000 * (1 + t.toNat) ≤ a ∧ a < 0x01000000 * (2 + t.toNat)
      ∧ (a - 0x01000000 * (1 + t.toNat)) / 16 / p.nmax < p.fmax
  | .inbuf t b => b = a ∧ 0x04000000 * (1 + t.toNat) ≤ a ∧ a < 0x04000000 * (2 + t.toNat)
      ∧ (a - 0x04000000 * (1 + t.toNat)) / 8 < p.inmax

/-- Decoding says where the target lies. -/
theorem decodeAddr_at {p : Params} {a : Nat} {g : Target} (h : decodeAddr p a = some g) : Target.At p a g := by
  unfold decodeAddr at h
  split at h
  · obtain ⟨r, hr, rfl⟩ := Option.map_eq_some_iff.1 h
    exact ⟨‹_›, hr⟩
  split at h
  · dsimp only at h
    split at h
    · cases h
    · cases h
      exact ⟨by omega, ‹_›, rfl, by omega, rfl⟩
  split at h
  · split at h
    · cases h
    · cases h
      exact ⟨rfl, by omega, by omega, by omega⟩
  split at h
  · split at h
    · cases h
    · cases h
      exact ⟨rfl, by omega, by omega, by omega⟩
  split at h
  · split at h
    · cases h
    · cases h
      exact ⟨rfl, by omega, by omega, by omega⟩
  split at h
  · dsimp only at h
    split at h <;> split at h <;> cases h <;> simp only [Target.At, Tab.toNat] at * <;>
      exact ⟨trivial, by omega, by omega, by omega⟩
  split at h
  · dsimp only at h
    split at h <;> split at h <;> cases h <;> simp only [Target.At, Tab.toNat] at * <;>
      exact ⟨trivial, by omega, by omega, by omega⟩
  · cases h

end Sys2Proof.Machine
end

