-- ==== Sys2Proof/Laws/Decode.lean ====
section
/-! SUPPORT. Laws of the command word: its fields by division, and the fields of a packed word. -/

namespace Sys2Proof

theorem opField_eq (w : Word) : opField w = w.toNat % 256 := by
  simp [opField, BitVec.extractLsb'_toNat]

theorem frameField_eq (w : Word) : frameField w = w.toNat / 2 ^ 9 % 2 ^ 23 := by
  simp [frameField, BitVec.extractLsb'_toNat, Nat.shiftRight_eq_div_pow]

theorem reservedBits_eq (w : Word) : reservedBits w = w.toNat / 2 ^ 32 := by
  have := w.isLt
  simp only [reservedBits, BitVec.extractLsb'_toNat, Nat.shiftRight_eq_div_pow]
  omega

theorem tabBit_eq (w : Word) : w.getLsbD 8 = decide (w.toNat / 2 ^ 8 % 2 = 1) := by
  rw [← BitVec.testBit_toNat, Nat.testBit_eq_decide_div_mod_eq]

theorem packWord_toNat {op f : Nat} (t : Tab) (h1 : op < 256) (h2 : f < 2 ^ 23) :
    (packWord op t f).toNat = op + 2 ^ 8 * t.toNat + 2 ^ 9 * f := by
  unfold packWord
  rw [BitVec.toNat_ofNat]
  cases t <;> simp only [Tab.toNat] <;> omega

/-- The fields of a packed word are those it was packed from. -/
theorem fields_packWord {op f : Nat} (t : Tab) (h1 : op < 256) (h2 : f < 2 ^ 23) :
    opField (packWord op t f) = op ∧ frameField (packWord op t f) = f ∧ reservedBits (packWord op t f) = 0
      ∧ tabField (packWord op t f) = t ∧ ((packWord op t f).getLsbD 8 = true ↔ t = .b) := by
  rw [opField_eq, frameField_eq, reservedBits_eq]
  unfold tabField
  rw [tabBit_eq, packWord_toNat t h1 h2]
  cases t <;> simp [Tab.toNat] <;> omega

end Sys2Proof
end

