-- ==== Sys2Proof/Laws/Frames.lean ====
section
/-! SUPPORT. The frames of the shared writes, the lengths of what is written, and what a legal parameter set bounds. -/

namespace Sys2Proof.Machine

/-! ## Legal parameters (00_scope.md R5) -/

/-- The bounds of a legal parameter set, as propositions. -/
structure Bounds (p : Params) : Prop where
  nfft_pow : ∃ k, 1 ≤ k ∧ k ≤ 16 ∧ p.nfft = 2 ^ k
  win_pos : 1 ≤ p.win
  win_lt : p.win < p.nfft
  hop_pos : 1 ≤ p.hop
  hop_le : p.hop ≤ p.nfft
  sine_pow : ∃ k, 1 ≤ k ∧ k ≤ 16 ∧ p.sine = 2 ^ k
  rate_finite : (F64.ofWord p.engineSr).isFinite = true
  rate_ge : F64.le F64.one (F64.ofWord p.engineSr) = true
  nmax_pos : 1 ≤ p.nmax
  nmax_le : p.nmax ≤ 128
  inmax_pos : 1 ≤ p.inmax
  inmax_le : p.inmax ≤ 2 ^ 23
  table_le : p.fmax * p.nmax ≤ 2 ^ 20

theorem log2_bounds {n : Nat} (h1 : 2 ≤ n) (h2 : n ≤ 65536) : 1 ≤ n.log2 ∧ n.log2 ≤ 16 := by
  have h3 : n.log2 < 17 := (Nat.log2_lt (by omega)).2 (by omega)
  have h4 : 1 ≤ n.log2 := (Nat.le_log2 (by omega)).2 (by omega)
  omega

theorem bounds_of_legal {p : Params} (h : p.legal = true) : Bounds p := by
  simp only [Params.legal, isPowerOfTwo, Bool.and_eq_true, decide_eq_true_eq] at h
  obtain ⟨⟨⟨⟨⟨⟨⟨⟨⟨⟨h1, h2⟩, h3⟩, h4⟩, h5⟩, h6⟩, h7⟩, h8⟩, h9⟩, h10⟩, h11⟩ := h
  have l1 := log2_bounds h2.1 h2.2
  have l2 := log2_bounds h6.1 h6.2
  exact ⟨⟨_, l1.1, l1.2, h1.symm⟩, h3.1, h3.2, h4.1, h4.2, ⟨_, l2.1, l2.2, h5.symm⟩, h7, h8, h9.1, h9.2, h10.1, h10.2, h11⟩

theorem Bounds.nfft_le {p : Params} (h : Bounds p) : p.nfft ≤ 65536 := by
  obtain ⟨k, _, h2, h3⟩ := h.nfft_pow
  rw [h3]
  exact Nat.pow_le_pow_right (by omega) h2

theorem Bounds.sine_le {p : Params} (h : Bounds p) : p.sine ≤ 65536 := by
  obtain ⟨k, _, h2, h3⟩ := h.sine_pow
  rw [h3]
  exact Nat.pow_le_pow_right (by omega) h2

theorem Bounds.sine_pos {p : Params} (h : Bounds p) : 0 < p.sine := by
  obtain ⟨k, _, _, h3⟩ := h.sine_pow
  rw [h3]
  exact Nat.two_pow_pos k

theorem ceilDiv_mono {m n d : Nat} (h : m ≤ n) : ceilDiv m d ≤ ceilDiv n d := by
  unfold ceilDiv
  exact Nat.div_le_div_right (by omega)

/-- A frame of a recording of legal length lies inside the analysis table (00_scope.md R6). -/
theorem frames_le_fmax {s : State} {t : Tab} (h : (s.inLen.get t).toNat ≤ s.params.inmax) : s.frames t ≤ s.params.fmax :=
  ceilDiv_mono h

/-- The entries of a table end inside its window. -/
theorem entry_lt {p : Params} (h : Bounds p) {f n : Nat} (hf : f < p.fmax) (hn : n < p.nmax) :
    f * p.nmax + n < 2 ^ 20 := by
  have h1 : f * p.nmax + p.nmax ≤ p.fmax * p.nmax := by
    rw [← Nat.succ_mul]
    exact Nat.mul_le_mul_right _ hf
  have := h.table_le
  omega

/-! ## Lengths -/

theorem evens_length {α : Type} : ∀ x : List α, (evens x).length = (x.length + 1) / 2
  | [] => by simp [evens]
  | [_] => by simp [evens]
  | _ :: _ :: x => by
    simp only [evens, List.length_cons, evens_length x]
    omega

theorem odds_length {α : Type} : ∀ x : List α, (odds x).length = x.length / 2
  | [] => by simp [odds]
  | [_] => by simp [odds]
  | _ :: _ :: x => by
    simp only [odds, List.length_cons, odds_length x]
    omega

theorem twiddled_length (tr : Trig) (m k : Nat) (os : List Cx) : (twiddled tr m k os).length = os.length := by
  induction os generalizing k with
  | nil => rfl
  | cons o os ih => simp [twiddled, ih]

theorem fftLevels_length (tr : Trig) : ∀ (l : Nat) (x : List Cx), x.length = 2 ^ l → (fftLevels tr l x).length = 2 ^ l
  | 0, x, h => h
  | l + 1, x, h => by
    rw [Nat.pow_succ] at h
    have he := fftLevels_length tr l (evens x) (by rw [evens_length]; omega)
    have ho := fftLevels_length tr l (odds x) (by rw [odds_length]; omega)
    simp only [fftLevels, butterfly, List.length_append, List.length_zipWith, twiddled_length, he, ho, Nat.min_self,
      Nat.pow_succ]
    omega

/-- A transform has as many elements as its input. -/
theorem fft_length (tr : Trig) {x : List Cx} {l : Nat} (h : x.length = 2 ^ l) : (fft tr x).length = x.length := by
  unfold fft
  rw [h, Nat.log2_two_pow]
  exact fftLevels_length tr l x h

theorem applyWindow_length (x : List Cx) (w : List F64) : (applyWindow x w).length = x.length := by
  induction x generalizing w with
  | nil => cases w <;> rfl
  | cons x xs ih => cases w <;> simp [applyWindow, ih]

theorem applyWindow_eq (x : List Cx) (w : List F64) :
    applyWindow x w = List.zipWith Cx.scale x w ++ x.drop w.length := by
  induction x generalizing w with
  | nil => cases w <;> rfl
  | cons x xs ih => cases w <;> simp [applyWindow, ih]

theorem load_ok {s : State} {t : Tab} {f : Nat} {b : List Cx} (h : s.load t f = .ok b) :
    ∃ xs, s.readSamples t (f * s.params.hop) (s.frameLen t f) = .ok xs
      ∧ b = xs.map (fun x => ⟨x, F64.zero⟩) ++ List.replicate (s.params.nfft - s.frameLen t f) ⟨F64.zero, F64.zero⟩ := by
  unfold State.load at h
  split at h <;> cases h
  exact ⟨_, ‹_›, rfl⟩

theorem load_length {s : State} (hb : s.params.hop ≤ s.params.nfft) {t : Tab} {f : Nat} {b : List Cx}
    (h : s.load t f = .ok b) : b.length = s.params.nfft := by
  obtain ⟨xs, h1, rfl⟩ := load_ok h
  have h2 := readSamples_length h1
  have h3 : s.frameLen t f ≤ s.params.hop := Nat.min_le_left _ _
  simp [h2]
  omega

theorem chooseEntries_length (sr : F64) (nfft n : Nat) (mag : List F64) (rank : List Nat) :
    (chooseEntries sr nfft n mag rank).length = n := by
  simp [chooseEntries]
  omega

/-- The extractor returns N entries (43_peaks.md R113). -/
theorem extract_length (nfft : Nat) (sr : F64) (n : Nat) (x : List Cx) : (extract nfft sr n x).1.length = n := by
  simp [extract, sortByFreq, List.length_insertionSort, chooseEntries_length]

/-! ## Every written value is a binary64 value -/

theorem cx_add_valid (x y : Cx) : (x.add y).valid := ⟨add_valid _ _, add_valid _ _⟩

theorem cx_sub_valid (x y : Cx) : (x.sub y).valid := ⟨sub_valid _ _, sub_valid _ _⟩

theorem cx_scale_valid (x : Cx) (w : F64) : (x.scale w).valid := ⟨mul_valid _ _, mul_valid _ _⟩

theorem mem_zipWith {α β γ : Type} {f : α → β → γ} {xs : List α} {ys : List β} {z : γ}
    (h : z ∈ List.zipWith f xs ys) : ∃ x ∈ xs, ∃ y ∈ ys, z = f x y := by
  obtain ⟨i, hi, rfl⟩ := List.mem_iff_getElem.1 h
  rw [List.length_zipWith] at hi
  exact ⟨_, List.getElem_mem (by omega), _, List.getElem_mem (by omega), List.getElem_zipWith⟩

theorem fft_valid (tr : Trig) {x : List Cx} (h : ∀ z ∈ x, z.valid) : ∀ z ∈ fft tr x, z.valid := by
  unfold fft
  cases x.length.log2 with
  | zero => exact h
  | succ l =>
    intro z hz
    simp only [fftLevels, butterfly, List.mem_append] at hz
    rcases hz with hz | hz
    · obtain ⟨_, _, _, _, rfl⟩ := mem_zipWith hz
      exact cx_add_valid _ _
    · obtain ⟨_, _, _, _, rfl⟩ := mem_zipWith hz
      exact cx_sub_valid _ _

theorem applyWindow_valid {x : List Cx} (w : List F64) (h : ∀ z ∈ x, z.valid) : ∀ z ∈ applyWindow x w, z.valid := by
  rw [applyWindow_eq]
  intro z hz
  rcases List.mem_append.1 hz with hz | hz
  · obtain ⟨_, _, _, _, rfl⟩ := mem_zipWith hz
    exact cx_scale_valid _ _
  · exact h z (List.mem_of_mem_drop hz)

theorem load_valid {s : State} {t : Tab} {f : Nat} {b : List Cx} (h : s.load t f = .ok b) : ∀ z ∈ b, z.valid := by
  obtain ⟨xs, h1, rfl⟩ := load_ok h
  intro z hz
  rcases List.mem_append.1 hz with hz | hz
  · obtain ⟨x, hx, rfl⟩ := List.mem_map.1 hz
    exact ⟨readSamples_valid h1 x hx, zero_valid⟩
  · rw [(List.mem_replicate.1 hz).2]
    exact ⟨zero_valid, zero_valid⟩

/-- The fields of the extractor's entries are binary64 values. -/
theorem extract_valid (nfft : Nat) (sr : F64) (n : Nat) (x : List Cx) :
    ∀ e ∈ (extract nfft sr n x).1, e.freq.valid ∧ e.amp.valid := by
  intro e he
  simp only [extract, sortByFreq, List.mem_insertionSort, chooseEntries, List.mem_append, List.mem_map,
    List.mem_replicate] at he
  rcases he with ⟨j, _, rfl⟩ | ⟨_, rfl⟩
  · refine ⟨div_valid _ _, ?_⟩
    show (magAt _ j).valid
    unfold magAt
    rw [List.getD_eq_getElem?_getD]
    cases hj : ((x.take (nfft / 2 + 1)).map binMag)[j]? with
    | none => exact valid_nan
    | some v =>
      obtain ⟨y, _, rfl⟩ := List.mem_map.1 (List.mem_of_getElem? hj)
      exact sqrt_valid _
  · exact ⟨div_valid _ _, zero_valid⟩

theorem windowTable_valid (p : Params) : ∀ v ∈ windowTable p, v.valid := by
  intro v hv
  obtain ⟨i, _, rfl⟩ := List.mem_map.1 hv
  exact mul_valid _ _

theorem sineTable_valid (p : Params) : ∀ v ∈ sineTable p, v.valid := by
  intro v hv
  obtain ⟨i, _, rfl⟩ := List.mem_map.1 hv
  exact fsin_valid _ _

/-! ## Frames of the writes -/

theorem get_writeFfts {s : State} {xs : List Cx} {a : Nat} (h : a < fftAddr 0 ∨ fftAddr xs.length ≤ a) :
    (s.writeFfts xs).mem.get a = s.mem.get a :=
  get_putF64s_outside s _ _ a (by rw [flattenCx_length]; unfold fftAddr at *; omega)

theorem get_writeEntries {s : State} {t : Tab} {f : Nat} {es : List Entry} {a : Nat}
    (h : a < atabAddr s.params t f 0 ∨ atabAddr s.params t f es.length ≤ a) :
    (s.writeEntries t f es).mem.get a = s.mem.get a :=
  get_putF64s_outside s _ _ a (by rw [flattenEntries_length]; unfold atabAddr at *; omega)

/-- Writing frames changes only the cells and the draws. -/
theorem writeFrames_eq (t : Tab) (rs : List FrameResult) (f : Nat) (s : State) :
    State.writeFrames t f rs s
      = { s with mem := (State.writeFrames t f rs s).mem, draws := (State.writeFrames t f rs s).draws } := by
  induction rs generalizing f s with
  | nil => rfl
  | cons r rs ih =>
    rw [State.writeFrames, ih]
    rfl

@[simp] theorem writeFrames_params (t : Tab) (rs : List FrameResult) (f : Nat) (s : State) :
    (State.writeFrames t f rs s).params = s.params := by
  rw [writeFrames_eq]

theorem get_writeFrames {t : Tab} {n a : Nat} (rs : List FrameResult) (f : Nat) (s : State)
    (hl : ∀ r ∈ rs, r.entries.length = n)
    (h : ∀ g, f ≤ g → g < f + rs.length → a < atabAddr s.params t g 0 ∨ atabAddr s.params t g n ≤ a) :
    (State.writeFrames t f rs s).mem.get a = s.mem.get a := by
  induction rs generalizing f s with
  | nil => rfl
  | cons r rs ih =>
    rw [State.writeFrames, ih (f + 1) _ (fun q hq => hl q (by simp [hq]))]
    · refine get_writeEntries ?_
      rw [hl r (by simp)]
      exact h f (Nat.le_refl _) (by simp)
    · intro g h1 h2
      exact h g (by omega) (by rw [List.length_cons]; omega)

/-- Writing amplitudes changes only the cells and the draws. -/
theorem writeAmps_eq (t : Tab) (es : List ((Nat × Nat) × F64)) (s : State) :
    State.writeAmps t es s
      = { s with mem := (State.writeAmps t es s).mem, draws := (State.writeAmps t es s).draws } := by
  induction es generalizing s with
  | nil => rfl
  | cons e es ih =>
    obtain ⟨p, a⟩ := e
    rw [State.writeAmps, ih]
    rfl

theorem get_writeAmps {t : Tab} {a : Nat} (es : List ((Nat × Nat) × F64)) (s : State)
    (h : ∀ e ∈ es, a < atabAddr s.params t e.1.1 e.1.2 + 8 ∨ atabAddr s.params t e.1.1 e.1.2 + 16 ≤ a) :
    (State.writeAmps t es s).mem.get a = s.mem.get a := by
  induction es generalizing s with
  | nil => rfl
  | cons e es ih =>
    obtain ⟨p, v⟩ := e
    rw [State.writeAmps, ih (s.putF64s _ _) (fun q hq => h q (by simp [hq]))]
    refine get_putF64s_outside s _ _ a ?_
    have := h (p, v) (by simp)
    simp only [List.length_cons, List.length_nil] at *
    omega

/-- Everything one frame's analysis answers. -/
theorem analyseFrame_ok {s : State} {t : Tab} {f : Nat} {r : FrameResult} (h : s.analyseFrame t f = .ok r) :
    ∃ b w, s.load t f = .ok b ∧ s.readWintab = .ok w ∧ r = ⟨fft s.params.trig (applyWindow b w),
      (extract s.params.nfft (F64.ofWord (s.sr.get t)) s.voiceCount (fft s.params.trig (applyWindow b w))).1,
      (extract s.params.nfft (F64.ofWord (s.sr.get t)) s.voiceCount (fft s.params.trig (applyWindow b w))).2⟩ := by
  unfold State.analyseFrame at h
  split at h <;> cases h
  exact ⟨_, _, ‹_›, ‹_›, rfl⟩

theorem mem_allOk {α β : Type} {f : α → Except Fault β} {l : List α} {ys : List β} (h : allOk (l.map f) = .ok ys) :
    ∀ y ∈ ys, ∃ x ∈ l, f x = .ok y := by
  intro y hy
  have h1 := allOk_eq_ok.1 h
  have : Except.ok y ∈ l.map f := by rw [h1]; exact List.mem_map.2 ⟨y, hy, rfl⟩
  obtain ⟨x, hx, hf⟩ := List.mem_map.1 this
  exact ⟨x, hx, hf⟩

/-- The transform of a whole buffer fills the buffer. -/
theorem fft_buffer_length {s : State} (hl : s.params.legal = true) {x : List Cx} (h : x.length = s.params.nfft) :
    (fft s.params.trig x).length = s.params.nfft := by
  obtain ⟨k, _, _, hk⟩ := (bounds_of_legal hl).nfft_pow
  rw [fft_length s.params.trig (h.trans hk), h]

/-- The tables lie above everything but the input memories. -/
theorem atab_ge (p : Params) (t : Tab) (f n : Nat) : 0x01000000 ≤ atabAddr p t f n := by
  unfold atabAddr; cases t <;> simp only [Tab.toNat] <;> omega

/-! ## Canonical form -/

theorem wf_putF64s {s : State} (h : Mem.wf s.mem) (a : Nat) (vs : List F64) : Mem.wf (s.putF64s a vs).mem :=
  wf_putWords h a _

theorem wf_writeFrames (t : Tab) (rs : List FrameResult) (f : Nat) (s : State) (h : Mem.wf s.mem) :
    Mem.wf (State.writeFrames t f rs s).mem := by
  induction rs generalizing f s with
  | nil => exact h
  | cons r rs ih => exact ih (f + 1) _ (wf_putF64s h _ _)

theorem wf_writeAmps (t : Tab) (es : List ((Nat × Nat) × F64)) (s : State) (h : Mem.wf s.mem) :
    Mem.wf (State.writeAmps t es s).mem := by
  induction es generalizing s with
  | nil => exact h
  | cons e es ih => exact ih _ (wf_putF64s h _ _)

/-! ## The voices -/

@[simp] theorem updateVoices_length (fs : List (Voice → Voice)) (vs : List Voice) :
    (updateVoices fs vs).length = vs.length := by
  induction fs generalizing vs with
  | nil => cases vs <;> rfl
  | cons f fs ih => cases vs <;> simp [updateVoices, ih]

/-- A voice after the first voices are changed. -/
theorem updateVoices_getElem? (fs : List (Voice → Voice)) (vs : List Voice) (n : Nat) :
    (updateVoices fs vs)[n]? = (vs[n]?).map ((fs[n]?).getD id) := by
  induction fs generalizing vs n with
  | nil => cases vs <;> simp [updateVoices]
  | cons f fs ih =>
    cases vs with
    | nil => simp [updateVoices]
    | cons v vs => cases n <;> simp [updateVoices, ih]

theorem mem_updateVoices {P : Voice → Prop} {fs : List (Voice → Voice)} {vs : List Voice} (hv : ∀ v ∈ vs, P v)
    (hf : ∀ f ∈ fs, ∀ v, P v → P (f v)) : ∀ v ∈ updateVoices fs vs, P v := by
  induction fs generalizing vs with
  | nil => cases vs <;> exact hv
  | cons f fs ih =>
    cases vs with
    | nil => exact hv
    | cons v vs =>
      intro x hx
      rcases List.mem_cons.1 hx with rfl | hx
      · exact hf f (by simp) v (hv v (by simp))
      · exact ih (fun y hy => hv y (by simp [hy])) (fun g hg => hf g (by simp [hg])) x hx

theorem mem_sealAll {k : Nat} {vs : List F64} {w : Word} (h : w ∈ sealAll k vs) : ∃ v ∈ vs, ∃ b, w = v.toWord b := by
  induction vs generalizing k with
  | nil => cases h
  | cons v vs ih =>
    rcases List.mem_cons.1 h with rfl | h
    · exact ⟨v, by simp, _, rfl⟩
    · obtain ⟨x, hx, b, hb⟩ := ih h
      exact ⟨x, by simp [hx], b, hb⟩

end Sys2Proof.Machine
end

