-- ==== Sys2Proof/Laws/Sound.lean ====
section
/-! SUPPORT. Laws of the phase: the wrap, a legal phase, its position in the sine table, and the integer part of a value. -/

namespace Sys2Proof.Machine

set_option exponentiation.threshold 2200

/-- A wrapped phase is +0.0 or a positive value below 1.0. -/
theorem wrapPhase_cases (p : F64) : wrapPhase p = F64.zero ∨ ∃ m, m < 0x3FF0000000000000 ∧ wrapPhase p = .num false m := by
  unfold wrapPhase
  dsimp only
  have hc : (0:Int) < ((2 ^ 1074 : Nat) : Int) := by exact_mod_cast Nat.two_pow_pos 1074
  have h1 : p.units - p.floor * ((2 ^ 1074 : Nat) : Int) = p.units % ((2 ^ 1074 : Nat) : Int) := by
    unfold F64.floor
    rw [Int.emod_def, Int.mul_comm]
  rw [h1]
  have h2 := Int.emod_nonneg p.units (ne_of_gt hc)
  have h3 := Int.emod_lt_of_pos p.units hc
  generalize p.units % ((2 ^ 1074 : Nat) : Int) = r at *
  unfold F64.ofUnits
  by_cases hr : r = 0
  · left
    rw [if_pos hr]
    decide
  · rw [if_neg hr]
    have hneg : decide (r < 0) = false := by simpa using h2
    rw [hneg]
    have hle : roundMag r.natAbs 1 ≤ 0x3FF0000000000000 := by
      apply roundMag_le_one (by omega)
      rw [Nat.one_mul]
      generalize (2:Nat)^1074 = c at *
      omega
    rcases Nat.lt_or_ge (roundMag r.natAbs 1) 0x3FF0000000000000 with h | h
    · right
      refine ⟨_, h, if_neg ?_⟩
      simp [F64.eq, F64.one, F64.key]
      omega
    · left
      have : roundMag r.natAbs 1 = 0x3FF0000000000000 := Nat.le_antisymm hle h
      rw [this]
      decide

/-- A legal phase is a magnitude below 1.0. -/
theorem legal_phase_num {w : Word} (h : legalPhase w = true) :
    ∃ m, F64.ofWord w = .num false m ∧ m < 0x3FF0000000000000 := by
  unfold legalPhase at h
  rw [Bool.and_eq_true] at h
  obtain ⟨h1, h2⟩ := h
  have h1 : w.msb = false := by simpa using h1
  unfold F64.ofWord at *
  dsimp only at *
  split at h2
  · simp [F64.lt] at h2
  · rename_i hn
    rw [h1] at h2
    rw [if_neg hn, h1]
    refine ⟨_, rfl, ?_⟩
    simp [F64.lt, F64.one, F64.key] at h2
    omega

/-- The table position of a legal phase is exact. -/
theorem phase_mul {m k : Nat} (hm : m < 0x3FF0000000000000) (hk : k ≤ 16) :
    ∃ x, (F64.num false m).mul (F64.ofNat (2 ^ k)) = .num false x ∧ magUnits x = magUnits m * 2 ^ k
      ∧ x < infMag := by
  have h53 : 2 ^ k < 2 ^ 53 := Nat.pow_lt_pow_right (by omega) (by omega)
  obtain ⟨h1, h2⟩ := ofNat_mag h53
  have hu : magUnits m < 2 ^ 1074 := by
    rw [← magUnits_one]
    exact magUnits_lt hm
  have hb : magUnits m * 2 ^ k < 2 ^ 2098 := by
    have h3 : magUnits m * 2 ^ k < 2 ^ 1074 * 2 ^ 1024 :=
      Nat.mul_lt_mul_of_lt_of_le hu (Nat.pow_le_pow_right (by omega) (by omega)) (Nat.two_pow_pos _)
    rw [← Nat.pow_add] at h3
    exact h3
  obtain ⟨h4, h5⟩ := mul_two_pow_exact hb
  have hne : m ≠ infMag := by unfold infMag; omega
  refine ⟨_, ?_, h4, h5⟩
  unfold F64.ofNat F64.mul
  dsimp only
  rw [if_neg hne, if_neg (Nat.ne_of_lt h2), h1]
  rfl

theorem magUnits_infMag : magUnits infMag = 2 ^ 2098 := by decide +kernel

/-- An integer next to a finite magnitude, or equal to it where the magnitude is integral, is a binary64 value. -/
theorem ofNat_mag_of_le {m k : Nat} (hm : m < infMag) (h : k * 2 ^ 1074 ≤ magUnits m ∨ k * 2 ^ 1074 < magUnits m + 2 ^ 1074)
    (hk : ∀ f e, magUnits m = f * 2 ^ e → 1074 ≤ e → k = f * 2 ^ (e - 1074)) :
    magUnits (roundMag (k * 2 ^ 1074) 1) = k * 2 ^ 1074 ∧ roundMag (k * 2 ^ 1074) 1 < infMag := by
  obtain ⟨f, e, hf, he⟩ := magUnits_split m
  rcases Nat.lt_or_ge e 1074 with h1 | h1
  · apply ofNat_mag
    have h2 : magUnits m < 2 ^ 53 * 2 ^ 1073 := by
      rw [he]
      exact Nat.lt_of_lt_of_le (Nat.mul_lt_mul_of_pos_right hf (Nat.two_pow_pos _))
        (Nat.mul_le_mul_left _ (Nat.pow_le_pow_right (by omega) (by omega)))
    have h3 : (2:Nat) ^ 1074 = 2 * 2 ^ 1073 := by rw [← Nat.pow_succ']
    have hp := Nat.two_pow_pos 1073
    rw [h3] at h
    generalize (2:Nat) ^ 1073 = c at *
    by_contra hc
    have : 2 ^ 53 * (2 * c) ≤ k * (2 * c) := Nat.mul_le_mul_right _ (by omega)
    omega
  · have h2 := hk f e he h1
    have h3 : k * 2 ^ 1074 = f * 2 ^ e := by
      rw [h2, Nat.mul_assoc, ← Nat.pow_add, Nat.sub_add_cancel h1]
    rw [h3]
    refine magUnits_roundMag (by omega) hf (by rw [Nat.one_mul]) ?_
    rw [← he, ← magUnits_infMag]
    exact magUnits_lt hm

/-- The integer part of a finite value is a binary64 value (46_oscillator.md R140). -/
theorem ofInt_floor {neg : Bool} {m : Nat} (hm : m < infMag) :
    ∃ m', F64.ofInt (F64.num neg m).floor = .num (decide ((F64.num neg m).floor < 0)) m' ∧ m' < infMag
      ∧ magUnits m' = (F64.num neg m).floor.natAbs * 2 ^ 1074 := by
  have hc : (0:Int) < ((2 ^ 1074 : Nat) : Int) := by exact_mod_cast Nat.two_pow_pos 1074
  have hfl : (F64.num neg m).floor = (F64.num neg m).units / ((2 ^ 1074 : Nat) : Int) := rfl
  have h1 := Int.mul_ediv_add_emod (F64.num neg m).units ((2 ^ 1074 : Nat) : Int)
  have h2 := Int.emod_nonneg (F64.num neg m).units (ne_of_gt hc)
  have h3 := Int.emod_lt_of_pos (F64.num neg m).units hc
  rw [← hfl] at h1
  have hu : (F64.num neg m).units = if neg then -(magUnits m : Int) else magUnits m := rfl
  generalize (F64.num neg m).floor = z at *
  have hz : (z * ((2 ^ 1074 : Nat) : Int)).natAbs = z.natAbs * 2 ^ 1074 := by rw [Int.natAbs_mul, Int.natAbs_natCast]
  have hzz : ((2 ^ 1074 : Nat) : Int) * z = z * ((2 ^ 1074 : Nat) : Int) := Int.mul_comm _ _
  have key := ofNat_mag_of_le (k := z.natAbs) hm
    (by
      right
      rw [← hz]
      generalize (2:Nat) ^ 1074 = c at *
      rw [hzz] at h1
      generalize z * (c : Int) = y at *
      generalize (F64.num neg m).units % (c : Int) = r at *
      split at hu <;> omega)
    (by
      intro f e he hle
      have h4 : (F64.num neg m).units = (if neg then -(f * 2 ^ (e - 1074) : Nat) else (f * 2 ^ (e - 1074) : Nat) : Int)
          * ((2 ^ 1074 : Nat) : Int) := by
        have : magUnits m = (f * 2 ^ (e - 1074)) * 2 ^ 1074 := by
          rw [he, Nat.mul_assoc, ← Nat.pow_add, Nat.sub_add_cancel hle]
        rw [hu, this]
        split <;> push_cast <;> ring
      have h5 : z = (if neg then -(f * 2 ^ (e - 1074) : Nat) else (f * 2 ^ (e - 1074) : Nat) : Int) := by
        rw [hfl, h4, Int.mul_ediv_cancel _ (ne_of_gt hc)]
      rw [h5]
      split
      · rw [Int.natAbs_neg, Int.natAbs_natCast]
      · rw [Int.natAbs_natCast])
  unfold F64.ofInt F64.ofUnits
  by_cases h0 : z = 0
  · subst h0
    refine ⟨0, by simp, by decide, by simp⟩
  · have hne : z * ((2 ^ 1074 : Nat) : Int) ≠ 0 := mul_ne_zero h0 (ne_of_gt hc)
    rw [if_neg hne, hz]
    refine ⟨_, ?_, key.2, key.1⟩
    congr 1
    apply decide_eq_decide.2
    refine ⟨fun h => ?_, fun h => Int.mul_neg_of_neg_of_pos h hc⟩
    by_contra hh
    have := Int.mul_nonneg (Int.not_lt.1 hh) hc.le
    exact absurd h (Int.not_lt.2 this)

/-- The wrap of R140 in the operations of binary64. -/
theorem wrapPhase_eq_sub {x : F64} (hf : x.isFinite = true) : wrapPhase x =
    (if x = .num true 0 ∨ F64.eq (x.sub (F64.ofInt x.floor)) F64.one = true then F64.zero else x.sub (F64.ofInt x.floor)) := by
  cases x with
  | nan => cases hf
  | num neg m =>
    have hm : m < infMag := by simpa [F64.isFinite] using hf
    obtain ⟨m', h1, h2, h3⟩ := ofInt_floor (neg := neg) hm
    by_cases hz : F64.num neg m = .num true 0
    · rw [if_pos (.inl hz), hz]
      decide +kernel
    · have hs : (F64.num neg m).sub (F64.ofInt (F64.num neg m).floor)
          = F64.ofUnits ((F64.num neg m).units - (F64.num neg m).floor * ((2 ^ 1074 : Nat) : Int)) false := by
        have hc : (0:Int) < ((2 ^ 1074 : Nat) : Int) := by exact_mod_cast Nat.two_pow_pos 1074
        have hfl : (F64.num neg m).floor = (F64.num neg m).units / ((2 ^ 1074 : Nat) : Int) := rfl
        have hu : (F64.num neg m).units = if neg then -(magUnits m : Int) else magUnits m := rfl
        rw [h1]
        unfold F64.sub F64.neg F64.add
        dsimp only
        rw [if_neg (Nat.ne_of_lt hm), if_neg (Nat.ne_of_lt h2)]
        have hk : (F64.num (!decide ((F64.num neg m).floor < 0)) m').units = -((F64.num neg m).floor * ((2 ^ 1074 : Nat) : Int)) := by
          have hun : ∀ b k, (F64.num b k).units = if b then -(magUnits k : Int) else magUnits k := fun _ _ => rfl
          rw [hun, h3]
          generalize (F64.num neg m).floor = z
          rcases lt_or_ge z 0 with hlt | hge
          · rw [decide_eq_true hlt]
            simp only [Bool.not_true, Bool.false_eq_true, if_false]
            rw [Nat.cast_mul, Int.ofNat_natAbs_of_nonpos hlt.le, Int.neg_mul]
          · rw [decide_eq_false (Int.not_lt.2 hge)]
            simp only [Bool.not_false, if_true]
            rw [Nat.cast_mul, Int.natAbs_of_nonneg hge]
        rw [hk, ← Int.sub_eq_add_neg]
        have hn : neg = true → m ≠ 0 → (F64.num neg m).floor < 0 := by
          intro hn hm0
          rw [hfl, hu, if_pos hn]
          apply Int.ediv_neg_of_neg_of_pos _ hc
          have : 0 < magUnits m := by
            have := magUnits_lt (Nat.pos_of_ne_zero hm0)
            simpa using this
          omega
        congr 1
        cases neg with
        | false => rfl
        | true =>
          have hm0 : m ≠ 0 := fun h => hz (by rw [h])
          simp [hn rfl hm0]
      rw [hs]
      simp only [hz, false_or]
      rfl

end Sys2Proof.Machine
end

