-- ==== Sys2Proof/Laws/Voices.lean ====
section
/-! SUPPORT. The voices as functions of their number: what the interpolation and the oscillator step answer (45_resynthesis.md
R131, 46_oscillator.md R141), and what their commits leave in each voice. -/

namespace Sys2Proof.Machine

/-! ## The weights of R131 -/

theorem weightsAt_t (pos sl fl : Nat) :
    (weightsAt pos sl fl).t = ((F64.ofNat pos).div (F64.ofNat sl)).mul (F64.ofNat fl) := by
  simp only [weightsAt]

theorem weightsAt_low (pos sl fl : Nat) :
    (weightsAt pos sl fl).low = (min (weightsAt pos sl fl).t.floor ((fl : Int) - 1)).toNat := by
  simp only [weightsAt]

theorem weightsAt_high (pos sl fl : Nat) :
    (weightsAt pos sl fl).high = (min ((weightsAt pos sl fl).t.floor + 1) ((fl : Int) - 1)).toNat := by
  simp only [weightsAt]

theorem weightsAt_uw (pos sl fl : Nat) :
    (weightsAt pos sl fl).uw = (weightsAt pos sl fl).t.sub (F64.ofNat (weightsAt pos sl fl).low) := by
  simp only [weightsAt]

theorem weightsAt_lw (pos sl fl : Nat) : (weightsAt pos sl fl).lw = F64.one.sub (weightsAt pos sl fl).uw := by
  simp only [weightsAt]

theorem weightsAt_valid (pos sl fl : Nat) :
    (weightsAt pos sl fl).t.valid ∧ (weightsAt pos sl fl).uw.valid ∧ (weightsAt pos sl fl).lw.valid := by
  rw [weightsAt_lw, weightsAt_uw, weightsAt_t]
  exact ⟨mul_valid _ _, sub_valid _ _, sub_valid _ _⟩

/-- `interp(S)` where the entries it reads are written. -/
theorem interpolate_eq {s : State} {fl fh al ah : Nat → F64} {w : Weights} (hw : weightsAt s.s.toNat s.sLimit s.frameLimit = w)
    (h : ∀ n, n < s.nvoices.toNat → s.readFreq .a w.low n = .ok (fl n) ∧ s.readFreq .a w.high n = .ok (fh n)
      ∧ s.readAmp .a w.low n = .ok (al n) ∧ s.readAmp .a w.high n = .ok (ah n)) :
    s.interpolate = .ok ⟨w, (List.range s.nvoices.toNat).map (fun n => blend w (fl n) (fh n)),
      (List.range s.nvoices.toNat).map (fun n => blend w (al n) (ah n))⟩ := by
  have hf : ∀ n ∈ List.range s.voiceCount, s.interpFreq w n = .ok (blend w (fl n) (fh n)) := by
    intro n hn
    have := h n (List.mem_range.1 hn)
    simp [State.interpFreq, this.1, this.2.1]
  have ha : ∀ n ∈ List.range s.voiceCount, s.interpAmp w n = .ok (blend w (al n) (ah n)) := by
    intro n hn
    have := h n (List.mem_range.1 hn)
    simp [State.interpAmp, this.2.2.1, this.2.2.2]
  unfold State.interpolate
  dsimp only
  rw [hw, allOk_map_ok hf, allOk_map_ok ha]
  rfl

/-! ## The oscillator step of R141 -/

theorem mixSum_from (amp y : Nat → F64) (n k : Nat) (hk : k ≤ n) :
    mixSum (mixedSum amp y k) ((List.range' k (n - k)).map amp) ((List.range' k (n - k)).map y) = mixedSum amp y n := by
  induction h : n - k generalizing k with
  | zero =>
    have : k = n := by omega
    subst this
    rfl
  | succ m ih =>
    rw [List.range'_succ, List.map_cons, List.map_cons, mixSum]
    exact ih (k + 1) (by omega) (by omega)

/-- The running sum over the voices, in increasing order. -/
theorem mixSum_range (amp y : Nat → F64) (n : Nat) :
    mixSum F64.zero ((List.range n).map amp) ((List.range n).map y) = mixedSum amp y n := by
  have := mixSum_from amp y n 0 (by omega)
  rw [Nat.sub_zero, ← List.range_eq_range'] at this
  exact this

/-- A list over the first N voices is a list over their numbers. -/
theorem activeVoices_map {α : Type} (g : Voice → α) (s : State) (h : s.nvoices.toNat ≤ s.voices.length) :
    s.activeVoices.map g = (List.range s.nvoices.toNat).map (fun n => g (s.voices.getD n Voice.zero)) := by
  apply List.ext_getElem
  · simp [State.activeVoices, State.voiceCount, h]
  · intro i h1 h2
    have : i < s.voices.length := by
      simp at h2
      omega
    simp [State.activeVoices, State.voiceCount, List.getD, this]

/-- `osc_step` where every increment is finite and every lookup answers. -/
theorem oscStep_eq {s : State} {freq amp ph y : Nat → F64}
    (hf : ∀ n, n < s.nvoices.toNat → ((freq n).div (F64.ofWord s.params.engineSr)).isFinite = true)
    (hy : ∀ n, n < s.nvoices.toNat → s.sineLookup (ph n) = .ok (y n)) :
    s.oscStep ((List.range s.nvoices.toNat).map freq) ((List.range s.nvoices.toNat).map amp)
        ((List.range s.nvoices.toNat).map ph)
      = .ok ⟨(List.range s.nvoices.toNat).map (fun n => (freq n).div (F64.ofWord s.params.engineSr)),
          (List.range s.nvoices.toNat).map
            (fun n => wrapPhase ((ph n).add ((freq n).div (F64.ofWord s.params.engineSr)))),
          (mixedSum amp y s.nvoices.toNat).div (F64.ofNat s.nvoices.toNat)⟩ := by
  have e : s.increments ((List.range s.nvoices.toNat).map freq)
      = (List.range s.nvoices.toNat).map (fun n => (freq n).div (F64.ofWord s.params.engineSr)) := by
    simp [State.increments]
  unfold State.oscStep
  dsimp only
  rw [e, if_neg, List.map_map,
    allOk_map_ok (f := s.sineLookup ∘ ph) (g := y) (fun n hn => hy n (List.mem_range.1 hn))]
  · dsimp only
    rw [mixSum_range]
    simp only [advancePhases, List.zipWith_map, List.zipWith_self, State.voiceCount]
  · rw [List.any_eq_true]
    rintro ⟨x, hx, hx2⟩
    obtain ⟨n, hn, rfl⟩ := List.mem_map.1 hx
    rw [hf n (List.mem_range.1 hn)] at hx2
    cases hx2

theorem wrapPhase_valid (p : F64) : (wrapPhase p).valid := by
  rcases wrapPhase_cases p with h | ⟨m, h1, h2⟩
  · rw [h]
    exact zero_valid
  · rw [h2]
    exact valid_num (by unfold infMag; omega)

/-- The phase of a voice that a command reads is legal. -/
theorem activePhase_legal {s : State} (hc : s.configLegal) (hv : s.voicesSound) {n : Nat} (hn : n < s.nvoices.toNat) :
    legalPhase (s.voices.getD n Voice.zero).phase = true := by
  have : n < s.voices.length := by
    rw [hv.1]
    have := hc.2.2.1
    omega
  apply hv.2
  simp [List.getD, this]

/-! ## What a commit leaves in each voice -/

/-- A voice n < N takes the patterns of its two values. -/
theorem updateVoices_sealed (g : Word → Word → Voice → Voice) (a b : Nat → F64) (k k' : Nat) {m n : Nat} {vs : List Voice}
    (hn : n < m) (hv : n < vs.length) :
    (updateVoices (List.zipWith g (sealAll k ((List.range m).map a)) (sealAll k' ((List.range m).map b))) vs).getD n Voice.zero
      = g ((a n).toWord (Config.freeNan (k + n))) ((b n).toWord (Config.freeNan (k' + n))) (vs.getD n Voice.zero) := by
  have hs : ∀ (c : Nat → F64) (j : Nat), (sealAll j ((List.range m).map c))[n]? = some ((c n).toWord (Config.freeNan (j + n))) := by
    intro c j
    rw [List.getElem?_eq_getElem (by simpa using hn), sealAll_getElem]
    simp
  rw [List.getD, updateVoices_getElem?, List.getElem?_zipWith, hs, hs]
  simp [List.getD, hv]

/-- A voice n >= N is as it was. -/
theorem updateVoices_rest (g : Word → Word → Voice → Voice) (a b : Nat → F64) (k k' : Nat) {m n : Nat} {vs : List Voice}
    (hn : m ≤ n) :
    (updateVoices (List.zipWith g (sealAll k ((List.range m).map a)) (sealAll k' ((List.range m).map b))) vs).getD n Voice.zero
      = vs.getD n Voice.zero := by
  rw [List.getD, updateVoices_getElem?, List.getElem?_eq_none (by simp; omega)]
  simp [List.getD]

/-! ## Everything a commit changes -/

theorem commitInterp_frame (s : State) (o : InterpOut) :
    (s.commitInterp o).complete = { s with
      voices := (s.commitInterp o).complete.voices, intT := (s.commitInterp o).complete.intT
      intLow := (s.commitInterp o).complete.intLow, intHigh := (s.commitInterp o).complete.intHigh
      intUw := (s.commitInterp o).complete.intUw, intLw := (s.commitInterp o).complete.intLw
      draws := (s.commitInterp o).complete.draws, status := { s.status with busy := false } } := rfl

theorem commitInterp_frames_read (s : State) (o : InterpOut) :
    (s.commitInterp o).complete.intLow = BitVec.ofNat 64 o.weights.low
      ∧ (s.commitInterp o).complete.intHigh = BitVec.ofNat 64 o.weights.high := ⟨rfl, rfl⟩

theorem commitOsc_frame (s : State) (o : OscOut) :
    (s.commitOsc o).complete = { s with
      voices := (s.commitOsc o).complete.voices, outL := (s.commitOsc o).complete.outL
      outR := (s.commitOsc o).complete.outR, draws := (s.commitOsc o).complete.draws
      status := { s.status with busy := false } } := rfl

/-- The commit of SYNTH. -/
def State.commitSynth (s : State) (o : InterpOut) (r : OscOut) : State :=
  { ((s.commitInterp o).commitOsc r) with s := s.nextSample }.complete

theorem commitSynth_frame (s : State) (o : InterpOut) (r : OscOut) :
    s.commitSynth o r = { s with
      voices := (s.commitSynth o r).voices, outL := (s.commitSynth o r).outL, outR := (s.commitSynth o r).outR
      intT := (s.commitSynth o r).intT, intLow := (s.commitSynth o r).intLow, intHigh := (s.commitSynth o r).intHigh
      intUw := (s.commitSynth o r).intUw, intLw := (s.commitSynth o r).intLw, s := s.nextSample
      draws := (s.commitSynth o r).draws, status := { s.status with busy := false } } := rfl

theorem exec_interp_ok {s : State} {o : InterpOut} (hf : s.frameLimit ≠ 0) (hi : s.interpolate = .ok o) :
    execInterp s = .next (s.commitInterp o).complete := by
  unfold execInterp
  rw [if_neg hf, hi]

theorem exec_osc_ok {s : State} {o : OscOut} (hr : s.status.sineReady = true) (h : s.voiceStep = .ok o) :
    execOsc s = .next (s.commitOsc o).complete := by
  unfold State.voiceStep at h
  unfold execOsc
  rw [if_neg (by rw [hr]; decide), h]

theorem exec_synth_ok {s : State} {o : InterpOut} {r : OscOut} (hr : s.status.sineReady = true) (hf : s.frameLimit ≠ 0)
    (hi : s.interpolate = .ok o) (h : s.oscStep o.freq o.amp s.activePhases = .ok r) :
    execSynth s = .next (s.commitSynth o r) := by
  unfold execSynth
  rw [if_neg (by rw [hr]; decide), if_neg hf, hi]
  dsimp only
  rw [h]
  rfl

end Sys2Proof.Machine
end

