-- ==== Sys2Proof/Laws/Gaps.lean ====
section
/-! SUPPORT. When a read of a command answers the fault `unwritten`: exactly where a byte of what it reads is unwritten
(10_state.md R51). -/

namespace Sys2Proof.Machine

/-! ## The cells -/

theorem allSome_eq_none {α : Type} {os : List (Option α)} : allSome os = none ↔ none ∈ os := by
  induction os with
  | nil => simp [allSome]
  | cons o os ih => cases o <;> simp [allSome, ih]

theorem bytes_eq_none {m : Mem} {a n : Nat} : m.bytes a n = none ↔ ∃ x, a ≤ x ∧ x < a + n ∧ m.get x = none := by
  unfold Mem.bytes
  rw [allSome_eq_none, List.mem_map]
  constructor
  · rintro ⟨k, hk, h⟩
    have := List.mem_range.1 hk
    exact ⟨a + k, by omega, by omega, h⟩
  · rintro ⟨x, h1, h2, h⟩
    refine ⟨x - a, List.mem_range.2 (by omega), ?_⟩
    rwa [Nat.add_sub_cancel' h1]

theorem elems_eq_none {m : Mem} {a st w n : Nat} :
    m.elems a st w n = none ↔ ∃ i, i < n ∧ ∃ x, a + st * i ≤ x ∧ x < a + st * i + w ∧ m.get x = none := by
  unfold Mem.elems
  rw [allSome_eq_none, List.mem_map]
  simp only [List.mem_range, bytes_eq_none]

theorem require_error {α : Type} {sp : Space} {o : Option α} {e : Fault} :
    require sp o = .error e ↔ e = .unwritten sp ∧ o = none := by
  cases o with
  | none =>
    simp only [require, Except.error.injEq, and_true]
    exact eq_comm
  | some x => simp [require]

/-- Reads that can only fail in one way fail together in that way, and exactly if one of them does. -/
theorem allOk_error {α β : Type} {f : α → Except Fault β} {l : List α} {e0 : Fault} (h : ∀ x ∈ l, ∀ e, f x = .error e → e = e0)
    {e : Fault} : allOk (l.map f) = .error e ↔ e = e0 ∧ ∃ x ∈ l, f x = .error e0 := by
  induction l with
  | nil => simp [allOk]
  | cons a l ih =>
    have ih := ih (fun x hx => h x (by simp [hx]))
    cases ha : f a with
    | error e1 =>
      have := h a (by simp) e1 ha
      subst this
      simp only [List.map_cons, ha, allOk, Except.error.injEq, List.mem_cons, exists_eq_or_imp, true_or, and_true]
      exact eq_comm
    | ok y =>
      simp only [List.map_cons, ha, allOk, List.mem_cons, exists_eq_or_imp, reduceCtorEq, false_or]
      rw [← ih]
      cases allOk (l.map f) <;> simp

/-! ## The reads of a command -/

variable {s : State} {e : Fault}

theorem readF64_error {sp : Space} {a : Nat} : s.readF64 sp a = .error e ↔ e = .unwritten sp ∧ s.gap a 8 := by
  unfold State.readF64 Mem.word
  rw [require_error, Option.map_eq_none_iff, Option.map_eq_none_iff, bytes_eq_none]

theorem readFfts_error {n : Nat} : s.readFfts n = .error e ↔ e = .unwritten .fftbuf ∧ s.gap (fftAddr 0) (16 * n) := by
  unfold State.readFfts
  rw [require_error, Option.map_eq_none_iff, elems_eq_none]
  refine and_congr_right fun _ => ⟨?_, ?_⟩
  · rintro ⟨i, hi, x, h1, h2, h⟩
    exact ⟨x, by omega, by omega, h⟩
  · rintro ⟨x, h1, h2, h⟩
    exact ⟨(x - fftAddr 0) / 16, by omega, x, by omega, by omega, h⟩

theorem load_error {t : Tab} {f : Nat} : s.load t f = .error e ↔ e = .unwritten (inbufSpace t) ∧ s.frameGap t f := by
  have key : s.load t f = .error e ↔ s.readSamples t (f * s.params.hop) (s.frameLen t f) = .error e := by
    unfold State.load
    cases s.readSamples t (f * s.params.hop) (s.frameLen t f) <;> simp
  rw [key, State.readSamples, require_error, Option.map_eq_none_iff, elems_eq_none]
  refine and_congr_right fun _ => exists_congr fun i => and_congr_right fun _ => ?_
  have : inbufAddr t (f * s.params.hop) + 8 * i = inbufAddr t (f * s.params.hop + i) := by
    unfold inbufAddr
    omega
  rw [this]

/-- A gap in sixteen bytes is one in the first or the last eight. -/
theorem gap_split {a : Nat} : s.gap a 16 ↔ s.gap a 8 ∨ s.gap (a + 8) 8 := by
  constructor
  · rintro ⟨x, h1, h2, h⟩
    rcases Nat.lt_or_ge x (a + 8) with h3 | h3
    · exact .inl ⟨x, h1, h3, h⟩
    · exact .inr ⟨x, h3, by omega, h⟩
  · rintro (⟨x, h1, h2, h⟩ | ⟨x, h1, h2, h⟩) <;> exact ⟨x, by omega, by omega, h⟩

theorem interpFreq_error {w : Weights} {n : Nat} : s.interpFreq w n = .error e ↔
    e = .unwritten .atabA ∧ (s.gap (atabAddr s.params .a w.low n) 8 ∨ s.gap (atabAddr s.params .a w.high n) 8) := by
  have h1 := readF64_error (s := s) (e := e) (sp := .atabA) (a := atabAddr s.params .a w.low n)
  have h2 := readF64_error (s := s) (e := e) (sp := .atabA) (a := atabAddr s.params .a w.high n)
  rw [and_or_left, ← h1, ← h2]
  unfold State.interpFreq State.readFreq atabSpace
  cases hx : s.readF64 .atabA (atabAddr s.params .a w.low n) with
  | ok x => cases s.readF64 .atabA (atabAddr s.params .a w.high n) <;> simp
  | error e1 =>
    have hd := (readF64_error.1 hx).1
    cases hy : s.readF64 .atabA (atabAddr s.params .a w.high n) with
    | ok y => simp
    | error e2 =>
      have := (readF64_error.1 hy).1
      simp [hd, this]

theorem interpAmp_error {w : Weights} {n : Nat} : s.interpAmp w n = .error e ↔
    e = .unwritten .atabA ∧ (s.gap (atabAddr s.params .a w.low n + 8) 8 ∨ s.gap (atabAddr s.params .a w.high n + 8) 8) := by
  have h1 := readF64_error (s := s) (e := e) (sp := .atabA) (a := atabAddr s.params .a w.low n + 8)
  have h2 := readF64_error (s := s) (e := e) (sp := .atabA) (a := atabAddr s.params .a w.high n + 8)
  rw [and_or_left, ← h1, ← h2]
  unfold State.interpAmp State.readAmp atabSpace
  cases hx : s.readF64 .atabA (atabAddr s.params .a w.low n + 8) with
  | ok x => cases s.readF64 .atabA (atabAddr s.params .a w.high n + 8) <;> simp
  | error e1 =>
    have hd := (readF64_error.1 hx).1
    cases hy : s.readF64 .atabA (atabAddr s.params .a w.high n + 8) with
    | ok y => simp
    | error e2 =>
      have := (readF64_error.1 hy).1
      simp [hd, this]

theorem interpFreqs_error {w : Weights} : allOk ((List.range s.voiceCount).map (s.interpFreq w)) = .error e ↔
    e = .unwritten .atabA ∧ ∃ n, n < s.nvoices.toNat
      ∧ (s.gap (atabAddr s.params .a w.low n) 8 ∨ s.gap (atabAddr s.params .a w.high n) 8) := by
  rw [allOk_error (e0 := .unwritten .atabA) (fun n _ e h => (interpFreq_error.1 h).1)]
  refine and_congr_right fun _ => exists_congr fun n => ?_
  rw [List.mem_range, interpFreq_error]
  exact and_congr_right fun _ => and_iff_right rfl

theorem interpAmps_error {w : Weights} : allOk ((List.range s.voiceCount).map (s.interpAmp w)) = .error e ↔
    e = .unwritten .atabA ∧ ∃ n, n < s.nvoices.toNat
      ∧ (s.gap (atabAddr s.params .a w.low n + 8) 8 ∨ s.gap (atabAddr s.params .a w.high n + 8) 8) := by
  rw [allOk_error (e0 := .unwritten .atabA) (fun n _ e h => (interpAmp_error.1 h).1)]
  refine and_congr_right fun _ => exists_congr fun n => ?_
  rw [List.mem_range, interpAmp_error]
  exact and_congr_right fun _ => and_iff_right rfl

theorem interpolate_error : s.interpolate = .error e ↔ e = .unwritten .atabA ∧ s.interpGap := by
  unfold State.interpolate State.interpGap
  dsimp only
  generalize weightsAt s.s.toNat s.sLimit s.frameLimit = w
  have hf : ∀ e, _ ↔ _ := fun e => interpFreqs_error (s := s) (e := e) (w := w)
  have ha : ∀ e, _ ↔ _ := fun e => interpAmps_error (s := s) (e := e) (w := w)
  have hg : (∃ n, n < s.nvoices.toNat ∧ (s.gap (atabAddr s.params .a w.low n) 16 ∨ s.gap (atabAddr s.params .a w.high n) 16))
      ↔ (∃ n, n < s.nvoices.toNat ∧ (s.gap (atabAddr s.params .a w.low n) 8 ∨ s.gap (atabAddr s.params .a w.high n) 8))
        ∨ ∃ n, n < s.nvoices.toNat
          ∧ (s.gap (atabAddr s.params .a w.low n + 8) 8 ∨ s.gap (atabAddr s.params .a w.high n + 8) 8) := by
    rw [← exists_or]
    refine exists_congr fun n => ?_
    rw [gap_split, gap_split, ← and_or_left]
    exact and_congr_right fun _ => or_or_or_comm ..
  rw [hg]
  generalize allOk ((List.range s.voiceCount).map (s.interpFreq w)) = x at hf
  generalize allOk ((List.range s.voiceCount).map (s.interpAmp w)) = y at ha
  generalize (∃ n, n < s.nvoices.toNat ∧ _) = P at hf
  generalize (∃ n, n < s.nvoices.toNat ∧ _) = Q at ha
  cases x with
  | error e1 =>
    obtain ⟨rfl, hp⟩ := (hf e1).1 rfl
    simp only [Except.error.injEq, hp, true_or, and_true]
    exact eq_comm
  | ok f =>
    have hp : ¬ P := fun hp => by simpa using (hf _).2 ⟨rfl, hp⟩
    cases y with
    | error e2 =>
      obtain ⟨rfl, hq⟩ := (ha e2).1 rfl
      simp only [Except.error.injEq, hq, or_true, and_true]
      exact eq_comm
    | ok a =>
      have hq : ¬ Q := fun hq => by simpa using (ha _).2 ⟨rfl, hq⟩
      simp [hp, hq]

end Sys2Proof.Machine
end

