-- ==== Sys2Proof/Laws/PerInstr.lean ====
section
/-! SUPPORT. The statement of the family TableRow, one lemma per constructor: the word of a well-formed command has the OP of
its row of spec/opcode_table.json, and zeros wherever the row's mask asks for them. -/

namespace Sys2Proof.Laws

/-- The OP byte of a command's row (30_encoding.md R78). -/
def opOf : Instr → Nat
  | .nop => 0x00
  | .buildWindow => 0x01
  | .buildSine => 0x02
  | .loadFrame _ _ => 0x10
  | .window => 0x11
  | .fft => 0x12
  | .peaks _ _ => 0x13
  | .analyze _ => 0x14
  | .normalize _ => 0x15
  | .synthReset => 0x20
  | .interp => 0x21
  | .osc => 0x22
  | .synth => 0x23

/-- Whether the command uses FRAME (R78). -/
def usesFrame (i : Instr) : Bool := opOf i == 0x10 || opOf i == 0x13

/-- Whether the command uses T (R78). -/
def usesTab (i : Instr) : Bool := usesFrame i || opOf i == 0x14 || opOf i == 0x15

/-- The word of `i` matches the row of `i`: OP, RSV = 0, and every field the row does not use 0 (R79). -/
def TableRow.Statement (i : Instr) : Prop :=
  i.wellFormed = true →
    opField (encode i) = opOf i ∧ reservedBits (encode i) = 0
      ∧ (usesFrame i = false → frameField (encode i) = 0) ∧ (usesTab i = false → (encode i).getLsbD 8 = false)

theorem TableRow.nop : TableRow.Statement .nop := by unfold TableRow.Statement; decide

theorem TableRow.buildWindow : TableRow.Statement .buildWindow := by unfold TableRow.Statement; decide

theorem TableRow.buildSine : TableRow.Statement .buildSine := by unfold TableRow.Statement; decide

theorem TableRow.loadFrame (t : Tab) (f : Nat) : TableRow.Statement (.loadFrame t f) := by
  intro h
  have hp := fields_packWord (op := 0x10) t (by omega) (of_decide_eq_true h)
  exact ⟨hp.1, hp.2.2.1, fun hu => by simp [usesFrame, opOf] at hu,
    fun hu => by simp [usesFrame, usesTab, opOf] at hu⟩

theorem TableRow.window : TableRow.Statement .window := by unfold TableRow.Statement; decide

theorem TableRow.fft : TableRow.Statement .fft := by unfold TableRow.Statement; decide

theorem TableRow.peaks (t : Tab) (f : Nat) : TableRow.Statement (.peaks t f) := by
  intro h
  have hp := fields_packWord (op := 0x13) t (by omega) (of_decide_eq_true h)
  exact ⟨hp.1, hp.2.2.1, fun hu => by simp [usesFrame, opOf] at hu,
    fun hu => by simp [usesFrame, usesTab, opOf] at hu⟩

theorem TableRow.analyze (t : Tab) : TableRow.Statement (.analyze t) := by
  unfold TableRow.Statement
  cases t <;> decide

theorem TableRow.normalize (t : Tab) : TableRow.Statement (.normalize t) := by
  unfold TableRow.Statement
  cases t <;> decide

theorem TableRow.synthReset : TableRow.Statement .synthReset := by unfold TableRow.Statement; decide

theorem TableRow.interp : TableRow.Statement .interp := by unfold TableRow.Statement; decide

theorem TableRow.osc : TableRow.Statement .osc := by unfold TableRow.Statement; decide

theorem TableRow.synth : TableRow.Statement .synth := by unfold TableRow.Statement; decide

end Sys2Proof.Laws
end

