-- ==== Sys2Proof/Laws/Tables.lean ====
section
/-! SUPPORT. What the analysis tables and the samples read as: after an entry, a frame or an amplitude is written (43_peaks.md
R116, 44_analysis.md R126, R128), and the recording's samples as one list (R120). -/

namespace Sys2Proof.Machine

theorem require_eq_ok {α : Type} {sp : Space} {o : Option α} {x : α} (h : require sp o = .ok x) : o = some x := by
  cases o with
  | none => cases h
  | some y =>
    cases h
    rfl

/-! ## Entries and frames -/

/-- Two entries of different frames do not overlap. -/
theorem atabAddr_mono {p : Params} {t : Tab} {f n f' n' : Nat} (hn : n < p.nmax) (h : f < f') :
    atabAddr p t f n + 16 ≤ atabAddr p t f' n' := by
  have : (f + 1) * p.nmax ≤ f' * p.nmax := Nat.mul_le_mul_right _ h
  unfold atabAddr
  rw [Nat.add_mul] at this
  omega

/-- Two different entries of one table do not overlap. -/
theorem atabAddr_apart {p : Params} {t : Tab} {f n f' n' : Nat} (hn : n < p.nmax) (hn' : n' < p.nmax)
    (h : (f, n) ≠ (f', n')) :
    atabAddr p t f n + 16 ≤ atabAddr p t f' n' ∨ atabAddr p t f' n' + 16 ≤ atabAddr p t f n := by
  rcases Nat.lt_trichotomy f f' with h1 | h1 | h1
  · exact .inl (atabAddr_mono hn h1)
  · subst h1
    have : n ≠ n' := fun hc => h (by rw [hc])
    unfold atabAddr
    omega
  · exact .inr (atabAddr_mono hn' h1)

theorem flattenEntries_getElem? (es : List Entry) (n : Nat) (h : n < es.length) :
    (flattenEntries es)[2 * n]? = some es[n].freq ∧ (flattenEntries es)[2 * n + 1]? = some es[n].amp := by
  induction es generalizing n with
  | nil => simp at h
  | cons e es ih =>
    cases n with
    | zero => exact ⟨rfl, rfl⟩
    | succ n =>
      have := ih n (by simpa using h)
      simp only [flattenEntries] at this ⊢
      simp only [List.flatMap_cons, List.getElem_cons_succ]
      rw [show 2 * (n + 1) = 2 * n + 1 + 1 from by omega]
      simpa using this

/-- An entry written to a frame reads back. -/
theorem read_writeEntries (s : State) (t : Tab) (f n : Nat) (es : List Entry) (h : n < es.length)
    (hv : ∀ e ∈ es, e.freq.valid ∧ e.amp.valid) :
    (s.writeEntries t f es).readFreq t f n = .ok es[n].freq ∧ (s.writeEntries t f es).readAmp t f n = .ok es[n].amp := by
  have hg := flattenEntries_getElem? es n h
  have hl : (flattenEntries es).length = 2 * es.length := flattenEntries_length es
  have h1 : 2 * n < (flattenEntries es).length := by omega
  have h2 : 2 * n + 1 < (flattenEntries es).length := by omega
  rw [List.getElem?_eq_getElem h1, List.getElem?_eq_getElem h2] at hg
  have e1 : (flattenEntries es)[2 * n] = es[n].freq := by simpa using hg.1
  have e2 : (flattenEntries es)[2 * n + 1] = es[n].amp := by simpa using hg.2
  have hv' := hv _ (List.getElem_mem h)
  constructor
  · have := readF64_putF64s s (atabSpace t) (atabAddr s.params t f 0) (flattenEntries es) (2 * n) h1
      (by rw [e1]; exact hv'.1)
    rw [e1] at this
    unfold State.readFreq
    rw [show atabAddr (s.writeEntries t f es).params t f n = atabAddr s.params t f 0 + 8 * (2 * n) from by
      show atabAddr s.params t f n = _
      unfold atabAddr
      omega]
    exact this
  · have := readF64_putF64s s (atabSpace t) (atabAddr s.params t f 0) (flattenEntries es) (2 * n + 1) h2
      (by rw [e2]; exact hv'.2)
    rw [e2] at this
    unfold State.readAmp
    rw [show atabAddr (s.writeEntries t f es).params t f n + 8 = atabAddr s.params t f 0 + 8 * (2 * n + 1) from by
      show atabAddr s.params t f n + 8 = _
      unfold atabAddr
      omega]
    exact this

/-- Writing one frame leaves the entries of the others. -/
theorem read_writeEntries_other (s : State) (t : Tab) (f g n : Nat) (es : List Entry) (h : es.length ≤ s.params.nmax)
    (hn : n < s.params.nmax) (hfg : f ≠ g) :
    (s.writeEntries t g es).readFreq t f n = s.readFreq t f n
      ∧ (s.writeEntries t g es).readAmp t f n = s.readAmp t f n := by
  have key : ∀ d, d = 0 ∨ d = 8 → ∀ sp, (s.writeEntries t g es).readF64 sp (atabAddr s.params t f n + d)
      = s.readF64 sp (atabAddr s.params t f n + d) := by
    intro d hd sp
    apply readF64_putF64s_outside
    rw [flattenEntries_length]
    rcases Nat.lt_or_gt_of_ne hfg with h1 | h1
    · have := atabAddr_mono (p := s.params) (t := t) (n := n) (n' := 0) hn h1
      left
      omega
    · right
      rcases Nat.eq_zero_or_pos es.length with h0 | h0
      · have := atabAddr_mono (p := s.params) (t := t) (n := 0) (n' := n) (by omega) h1
        omega
      · have := atabAddr_mono (p := s.params) (t := t) (n := es.length - 1) (n' := n) (by omega) h1
        unfold atabAddr at *
        omega
  exact ⟨key 0 (.inl rfl) _, key 8 (.inr rfl) _⟩

/-- Frames g, g + 1, … written to a table read back, and the frames before them are as they were. -/
theorem read_writeFrames (t : Tab) (m : Nat) (rs : List FrameResult) (g : Nat) (s : State) (hm : m ≤ s.params.nmax)
    (hr : ∀ r ∈ rs, r.entries.length = m ∧ ∀ e ∈ r.entries, e.freq.valid ∧ e.amp.valid) (f n : Nat) (hn : n < m) :
    (f < g → (State.writeFrames t g rs s).readFreq t f n = s.readFreq t f n
        ∧ (State.writeFrames t g rs s).readAmp t f n = s.readAmp t f n)
      ∧ ∀ r, rs[f - g]? = some r → g ≤ f →
        ∃ e, r.entries[n]? = some e ∧ (State.writeFrames t g rs s).readFreq t f n = .ok e.freq
          ∧ (State.writeFrames t g rs s).readAmp t f n = .ok e.amp := by
  induction rs generalizing g s with
  | nil => exact ⟨fun _ => ⟨rfl, rfl⟩, fun r h => by simp at h⟩
  | cons r rs ih =>
    have ih := ih (g + 1) (s.writeEntries t g r.entries) hm (fun q hq => hr q (by simp [hq]))
    have hr0 := hr r (by simp)
    refine ⟨fun h => ?_, fun q hq hg => ?_⟩
    · have := read_writeEntries_other s t f g n r.entries (by omega) (by omega) (by omega)
      rw [State.writeFrames, (ih.1 (by omega)).1, (ih.1 (by omega)).2]
      exact this
    · rcases Nat.eq_or_lt_of_le hg with rfl | h
      · rw [Nat.sub_self] at hq
        have : q = r := by simpa using hq.symm
        subst this
        have := read_writeEntries s t g n q.entries (by omega) hr0.2
        refine ⟨_, List.getElem?_eq_getElem (by omega), ?_⟩
        rw [State.writeFrames, (ih.1 (by omega)).1, (ih.1 (by omega)).2]
        exact this
      · rw [State.writeFrames]
        apply ih.2 q _ h
        rw [show f - g = f - (g + 1) + 1 from by omega] at hq
        simpa using hq

/-! ## Amplitudes -/

/-- Writing amplitudes leaves those of other entries. -/
theorem readAmp_writeAmps_other (t : Tab) (es : List ((Nat × Nat) × F64)) (s : State) (f n : Nat) (hn : n < s.params.nmax)
    (h : ∀ e ∈ es, e.1 ≠ (f, n) ∧ e.1.2 < s.params.nmax) :
    (State.writeAmps t es s).readAmp t f n = s.readAmp t f n := by
  induction es generalizing s with
  | nil => rfl
  | cons e es ih =>
    obtain ⟨⟨g, k⟩, a⟩ := e
    have h0 := h ((g, k), a) (by simp)
    rw [State.writeAmps, ih (s.putF64s _ _) hn (fun q hq => h q (by simp [hq]))]
    have := atabAddr_apart (p := s.params) (t := t) h0.2 hn h0.1
    exact readF64_putF64s_outside s (atabSpace t) _ [a] (atabAddr s.params t f n + 8) (by
      simp only [List.length_cons, List.length_nil] at *
      omega)

/-- An amplitude written to an entry of a list without repeats reads back. -/
theorem readAmp_writeAmps (t : Tab) (es : List ((Nat × Nat) × F64)) (s : State) (f n : Nat) (a : F64)
    (hd : (es.map (fun e => e.1)).Nodup) (hm : ∀ e ∈ es, e.1.2 < s.params.nmax) (hv : a.valid)
    (h : ((f, n), a) ∈ es) : (State.writeAmps t es s).readAmp t f n = .ok a := by
  induction es generalizing s with
  | nil => simp at h
  | cons e es ih =>
    rw [List.map_cons, List.nodup_cons] at hd
    rcases List.mem_cons.1 h with rfl | h1
    · rw [State.writeAmps, readAmp_writeAmps_other t es (s.putF64s _ _) f n (hm ((f, n), a) (by simp)) (fun q hq =>
        ⟨fun hc => hd.1 (List.mem_map.2 ⟨q, hq, hc⟩), hm q (by simp [hq])⟩)]
      exact readF64_putF64s s (atabSpace t) (atabAddr s.params t f n + 8) [a] 0 (by simp) hv
    · obtain ⟨⟨g, k⟩, b⟩ := e
      exact ih _ hd.2 (fun q hq => hm q (by simp [hq])) h1

theorem mem_scanned {frames voices f n : Nat} : (f, n) ∈ scanned frames voices ↔ f < frames ∧ n < voices := by
  simp [scanned]

theorem scanned_nodup (frames voices : Nat) : (scanned frames voices).Nodup := by
  unfold scanned
  rw [List.nodup_flatMap]
  refine ⟨fun f _ => List.Nodup.map (fun a b h => by simpa using h) List.nodup_range, ?_⟩
  refine List.Pairwise.imp (fun {a b} hab => ?_) List.nodup_range
  intro x hx hy
  simp only [List.mem_map] at hx hy
  obtain ⟨i, _, rfl⟩ := hx
  obtain ⟨j, _, hj⟩ := hy
  exact hab (by cases hj; rfl)

/-- The amplitudes NORMALIZE scans, where they are written. -/
theorem scannedAmps_eq {s : State} {t : Tab} {amp : Nat → Nat → F64}
    (h : ∀ f n, f < s.frames t → n < s.nvoices.toNat → s.readAmp t f n = .ok (amp f n)) :
    s.scannedAmps t = .ok ((scanned (s.frames t) s.nvoices.toNat).map (fun e => amp e.1 e.2)) := by
  refine allOk_map_ok (fun e he => ?_)
  obtain ⟨f, n⟩ := e
  have := mem_scanned.1 he
  exact h f n this.1 this.2

/-! ## Samples -/

/-- The samples of a frame, where they are written. -/
theorem readSamples_eq {s : State} {t : Tab} {i n : Nat} {x : Nat → BitVec 32}
    (h : ∀ k, k < n → s.mem.half (inbufAddr t (i + k)) = some (x k)) :
    s.readSamples t i n = .ok ((List.range n).map (fun k => F64.ofBinary32 (x k))) := by
  have ea : ∀ k, inbufAddr t i + 8 * k = inbufAddr t (i + k) := by
    intro k
    unfold inbufAddr
    omega
  have hb : ∀ k, k < n → ∃ bs, s.mem.bytes (inbufAddr t (i + k)) 4 = some bs ∧ BitVec.ofNat 32 (numberOf bs) = x k := by
    intro k hk
    have := h k hk
    unfold Mem.half at this
    exact Option.map_eq_some_iff.1 this
  have he : s.mem.elems (inbufAddr t i) 8 4 n
      = some ((List.range n).map (fun k => (s.mem.bytes (inbufAddr t (i + k)) 4).getD [])) := by
    unfold Mem.elems
    rw [allSome_eq_some, List.map_map]
    apply List.map_congr_left
    intro k hk
    obtain ⟨bs, h1, _⟩ := hb k (List.mem_range.1 hk)
    simp [ea, h1]
  unfold State.readSamples
  rw [he]
  simp only [Option.map_some, require, List.map_map, Except.ok.injEq]
  apply List.map_congr_left
  intro k hk
  obtain ⟨bs, h1, h2⟩ := hb k (List.mem_range.1 hk)
  simp [h1, h2]

end Sys2Proof.Machine
end

