-- ==== Sys2Proof/Tests/Slice0.lean ====
section
/-! SUPPORT. The model's own tests: expected values from 95_test_vectors.md and the rules' examples, and for each statement
with hypotheses a state and operands that meet them (its witness). -/

namespace Sys2Proof.Tests

-- One kernel evaluation at a time: each takes a thread of its own, and together they would exhaust the memory limit.
set_option Elab.async false

open Sys2Proof Sys2Proof.Machine

/-! ## Helpers -/

/-- The next state of an outcome; the reset state where there is none. -/
def after : Out → State
  | .next t => t
  | .fault _ => State.reset
  | .refused _ => State.reset

/-- Whether an outcome is a next state. -/
def isNext : Out → Bool
  | .next _ => true
  | .fault _ => false
  | .refused _ => false

theorem eq_after {o : Out} (h : isNext o = true) : o = .next (after o) := by
  cases o with
  | next t => rfl
  | fault f => cases h
  | refused r => cases h

/-- Whether an outcome is the fault `f`. -/
def faultsWith (f : Fault) : Out → Bool
  | .next _ => false
  | .fault g => g == f
  | .refused _ => false

theorem eq_fault {o : Out} {f : Fault} (h : faultsWith f o = true) : o = .fault f := by
  cases o with
  | next t => cases h
  | fault g => exact congrArg Host.Outcome.fault (beq_iff_eq.1 h)
  | refused r => cases h

/-- A command word from its four fields (R76). -/
def fields (rsv : BitVec 32) (frame : BitVec 23) (t : BitVec 1) (op : BitVec 8) : Word := rsv ++ frame ++ t ++ op

/-- Host writes, in order. -/
def writes (s : State) (l : List (BitVec 32 × Word)) : State := l.foldl (fun s p => s.busWrite p.1 p.2) s

/-- A real number as a complex value with imaginary part +0.0. -/
def real (w : Word) : Cx := ⟨F64.ofWord w, F64.zero⟩

/-- 1.0. -/
def one64 : Word := 0x3FF0000000000000#64

/-- -1.0. -/
def negOne64 : Word := 0xBFF0000000000000#64

/-- The instance of 95_test_vectors.md 9.1. -/
def smallParams : Params where
  nfft := 8
  win := 4
  hop := 4
  sine := 8
  engineSr := 0x4020000000000000#64
  nmax := 2
  inmax := 16
  trig := .correctlyRounded

/-- The reset state of that instance. -/
def small : State := State.resetOf smallParams

/-- The recording of program 1 (9.2). -/
def recorded : State :=
  writes small
    [(0x048, 2), (0x060, 0x4020000000000000#64), (0x04000000, 0), (0x04000008, 0x3F800000), (0x04000010, 0),
      (0x04000018, 0xBF800000), (0x04000020, 0), (0x04000028, 0x3F800000), (0x050, 6)]

/-- The row L = 4 of section 3. -/
def windowRow : List Word := [0x3FD61C8864680B58#64, 0x3FECF1BBCDCBFA54#64, 0x3FECF1BBCDCBFA54#64, 0x3FD61C8864680B5A#64]

/-- The row TS = 8 of 7.1. -/
def sineRow : List Word :=
  [0, 0x3FE6A09E667F3BCC#64, one64, 0x3FE6A09E667F3BCD#64, 0x3CA1A62633145C07#64, 0xBFE6A09E667F3BCC#64, negOne64,
    0xBFE6A09E667F3BCE#64]

/-- `s` with both tables as the rows give them. -/
def withTables (s : State) : State :=
  { s with
    mem := (s.mem.putWords 0x00200000 windowRow).putWords 0x00280000 sineRow
    status := { s.status with winReady := true, sineReady := true } }

/-- Entry `i` of `sineRow`. -/
def rowEntry (i : Nat) : F64 := F64.ofWord (sineRow.getD i 0)

/-- Program 1 after BOOT. -/
def booted : State := withTables recorded

/-- Program 1 after ANALYZE A. -/
def analyzed : State := after (exec (.analyze .a) booted)

/-- Program 3 (9.4) before its SYNTH commands. -/
def player : State :=
  withTables
    (writes small
      [(0x01000000, one64), (0x01000008, one64), (0x01000020, 0x4008000000000000#64), (0x01000028, 0x3FE0000000000000#64),
        (0x050, 8), (0x058, 8)])

/-- The table of section 6, FREQ 100, 200, 400 and AMP 1, 0.5, 0.25 of frames 0 to 2 of voice 0, at S = 6. -/
def blending : State :=
  { writes small
      [(0x01000000, 0x4059000000000000#64), (0x01000008, one64), (0x01000020, 0x4069000000000000#64),
        (0x01000028, 0x3FE0000000000000#64), (0x01000040, 0x4079000000000000#64), (0x01000048, 0x3FD0000000000000#64),
        (0x050, 12), (0x058, 12)] with s := 6 }

/-- Vector O1 (7.4): one voice at 1.0 Hz, phase 0.125. -/
def sounding : State :=
  writes player [(0x1000, one64), (0x1008, one64), (0x1010, 0x3FC0000000000000#64)]

/-- An instance with P_NFFT = 16 and three voices. -/
def wideParams : Params := { smallParams with nfft := 16, nmax := 3 }

/-- Vector P14: the bins 9, 1, 5, 5, 5, 2, 7, 3, 4, SR_A = 16.0, N = 3 and one frame. -/
def spectrum : State :=
  writes (State.resetOf wideParams)
    [(0x00100000, 0x4022000000000000#64), (0x00100008, 0), (0x00100010, one64), (0x00100018, 0),
      (0x00100020, 0x4014000000000000#64), (0x00100028, 0), (0x00100030, 0x4014000000000000#64), (0x00100038, 0),
      (0x00100040, 0x4014000000000000#64), (0x00100048, 0), (0x00100050, 0x4000000000000000#64), (0x00100058, 0),
      (0x00100060, 0x401C000000000000#64), (0x00100068, 0), (0x00100070, 0x4008000000000000#64), (0x00100078, 0),
      (0x00100080, 0x4010000000000000#64), (0x00100088, 0), (0x048, 3), (0x060, 0x4030000000000000#64), (0x050, 1)]

/-- A table of one voice and two frames with the amplitudes `x` and `y`. -/
def table (x y : Word) : State :=
  writes small [(0x01000000, one64), (0x01000008, x), (0x01000020, one64), (0x01000028, y), (0x050, 8)]

/-- A smallest instance: P_NFFT = 2 and one voice. -/
def tinyParams : Params where
  nfft := 2
  win := 1
  hop := 2
  sine := 2
  engineSr := one64
  nmax := 1
  inmax := 4
  trig := .correctlyRounded

/-- That instance after BOOT, with a recording of three samples, two frames. -/
def tiny : State :=
  after (exec .buildSine (after (exec .buildWindow
    (writes (State.resetOf tinyParams)
      [(0x04000000, 0x3F800000), (0x04000008, 0x3F800000), (0x04000010, 0x3F800000), (0x050, 3)]))))

/-- `tiny` after ANALYZE A. -/
def tinyAnalyzed : State := after (exec (.analyze .a) tiny)

/-! ## Well-formedness and encoding -/

theorem test_wellFormed_load_frame : (Instr.loadFrame .a (2 ^ 23)).wellFormed = false
    ∧ (Instr.loadFrame .a (2 ^ 23 - 1)).wellFormed = true := by decide

theorem test_wellFormed_peaks : (Instr.peaks .b (2 ^ 23)).wellFormed = false
    ∧ (Instr.peaks .b (2 ^ 23 - 1)).wellFormed = true := by decide

-- The fields of each row of 30_encoding.md R78, RSV, FRAME, T and OP, written out.

theorem test_decode_nop : decode (fields 0 0 0 0b00000000) = .ok .nop := by decide

theorem test_decode_build_window : decode (fields 0 0 0 0b00000001) = .ok .buildWindow := by decide

theorem test_decode_build_sine : decode (fields 0 0 0 0b00000010) = .ok .buildSine := by decide

theorem test_decode_load_frame : decode (fields 0 0b101 0 0b00010000) = .ok (.loadFrame .a 5)
    ∧ decode (fields 0 0 1 0b00010000) = .ok (.loadFrame .b 0) := by decide

theorem test_decode_window : decode (fields 0 0 0 0b00010001) = .ok .window := by decide

theorem test_decode_fft : decode (fields 0 0 0 0b00010010) = .ok .fft := by decide

theorem test_decode_peaks : decode (fields 0 0b11 1 0b00010011) = .ok (.peaks .b 3)
    ∧ decode (fields 0 0x7FFFFF 0 0b00010011) = .ok (.peaks .a 0x7FFFFF) := by decide

theorem test_decode_analyze : decode (fields 0 0 0 0b00010100) = .ok (.analyze .a)
    ∧ decode (fields 0 0 1 0b00010100) = .ok (.analyze .b) := by decide

theorem test_decode_normalize : decode (fields 0 0 0 0b00010101) = .ok (.normalize .a)
    ∧ decode (fields 0 0 1 0b00010101) = .ok (.normalize .b) := by decide

theorem test_decode_synth_reset : decode (fields 0 0 0 0b00100000) = .ok .synthReset := by decide

theorem test_decode_interp : decode (fields 0 0 0 0b00100001) = .ok .interp := by decide

theorem test_decode_osc : decode (fields 0 0 0 0b00100010) = .ok .osc := by decide

theorem test_decode_synth : decode (fields 0 0 0 0b00100011) = .ok .synth := by decide

/-- The corner cases of 95_test_vectors.md 8.2. -/
theorem test_decode_errors : decode 0xFF#64 = .error .illegalOpcode ∧ decode 0x100000003#64 = .error .illegalOpcode
    ∧ decode 0x100000012#64 = .error .reservedField ∧ decode 0x112#64 = .error .reservedField
    ∧ decode 0x214#64 = .error .reservedField ∧ decode 0x100#64 = .error .reservedField
    ∧ decode 0x10000000A13#64 = .error .reservedField ∧ decode 0xFFFFFF13#64 = .ok (.peaks .b 0x7FFFFF) := by decide

theorem test_decode_table_word : decodeTableWord 64 0x713 = some (.peaks .b 3) ∧ decodeTableWord 64 0x112 = none := by
  decide

/-! ## Arithmetic -/

/-- 95_test_vectors.md 7.3. -/
theorem test_wrap : wrapPhase (F64.ofWord 0xBFD0000000000000#64) = F64.ofWord 0x3FE8000000000000#64
    ∧ wrapPhase (F64.ofWord 0xBBC79CA10C924223#64) = F64.zero
    ∧ wrapPhase (F64.ofWord 0x400B333333333333#64) = F64.ofWord 0x3FD9999999999998#64 := by decide +kernel

/-- Vector A7: the widening keeps a signed zero and a subnormal. -/
theorem test_binary32 : F64.ofBinary32 0x80000000#32 = F64.ofWord 0x8000000000000000#64
    ∧ F64.ofBinary32 0x00000001#32 = F64.ofWord 0x36A0000000000000#64
    ∧ F64.ofBinary32 0x7FC00000#32 = .nan := by decide +kernel

/-- Vectors F6 and Z2. -/
theorem test_fft_function :
    fft .correctlyRounded [real 0, real one64, real 0, real 0]
        = [real one64, ⟨F64.ofWord 0x3C91A62633145C07#64, F64.ofWord negOne64⟩, real negOne64,
          ⟨F64.ofWord 0xBC91A62633145C07#64, F64.ofWord one64⟩]
      ∧ fft .correctlyRounded [⟨.num true 0, .num true 0⟩, ⟨.num true 0, .num true 0⟩]
        = [⟨.num true 0, .num false 0⟩, ⟨.num false 0, .num true 0⟩] := by decide +kernel

/-- Vectors I8 and I10: weights of the full-size scenario. -/
theorem test_weights :
    (weightsAt 3072 48128 47).low = 2 ∧ (weightsAt 3072 48128 47).high = 3
      ∧ (weightsAt 3072 48128 47).t = F64.ofWord 0x4007FFFFFFFFFFFF#64
      ∧ (weightsAt 48127 48128 47).low = 46 ∧ (weightsAt 48127 48128 47).high = 46 := by decide +kernel

/-! ## Each command -/

/-- Example of R88. -/
theorem test_nop : (after (exec .nop (small.issued 0))).status = Status.zero := by decide

/-- Example of R98, P_WIN = 4. -/
theorem test_build_window :
    (List.range 4).map (fun i => (after (exec .buildWindow small)).mem.word (0x00200000 + 8 * i)) = windowRow.map some := by
  decide +kernel

/-- The row TS = 8 of 7.1. -/
theorem test_build_sine :
    (List.range 8).map (fun i => (after (exec .buildSine small)).mem.word (0x00280000 + 8 * i)) = sineRow.map some := by
  decide +kernel

/-- Vectors A2 and A3. -/
theorem test_load_frame :
    (after (exec (.loadFrame .a 1) recorded)).readFfts 8
        = .ok [real 0, real one64, real 0, real 0, real 0, real 0, real 0, real 0]
      ∧ (after (exec (.loadFrame .a 2) recorded)).status.errcode = .frameRange := by decide +kernel

/-- Vectors W1 and W2, from the buffer of A1. -/
theorem test_window :
    (after (exec .window (after (exec (.loadFrame .a 0) booted)))).readFfts 5
        = .ok [real 0, real 0x3FECF1BBCDCBFA54#64, real 0, real 0xBFD61C8864680B5A#64, real 0]
      ∧ (after (exec .window recorded)).status.errcode = .winNotReady := by decide +kernel

/-- Program 1: the spectrum of frame 1 that ANALYZE leaves in FFTBUF (9.2). -/
theorem test_fft :
    (after (exec .fft (after (exec .window (after (exec (.loadFrame .a 1) booted)))))).readFfts 3
        = .ok [real 0x3FECF1BBCDCBFA54#64, ⟨F64.ofWord 0x3FE477790EC61C35#64, F64.ofWord 0xBFE477790EC61C34#64⟩,
          ⟨F64.ofWord 0x3C8FED68A1A54248#64, F64.ofWord 0xBFECF1BBCDCBFA54#64⟩] := by decide +kernel

/-- Vector F11: an unwritten buffer. -/
theorem test_fft_unwritten : exec .fft small = .fault (.unwritten .fftbuf) := eq_fault (by decide +kernel)

/-- Vector P14. -/
theorem test_peaks :
    (after (exec (.peaks .a 0) spectrum)).readFreq .a 0 0 = .ok (F64.ofWord 0x4000000000000000#64)
      ∧ (after (exec (.peaks .a 0) spectrum)).readAmp .a 0 0 = .ok (F64.ofWord 0x4014000000000000#64)
      ∧ (after (exec (.peaks .a 0) spectrum)).readFreq .a 0 1 = .ok (F64.ofWord 0x4018000000000000#64)
      ∧ (after (exec (.peaks .a 0) spectrum)).readAmp .a 0 1 = .ok (F64.ofWord 0x401C000000000000#64)
      ∧ (after (exec (.peaks .a 0) spectrum)).readFreq .a 0 2 = .ok (F64.ofWord 0x4020000000000000#64)
      ∧ (after (exec (.peaks .a 0) spectrum)).readAmp .a 0 2 = .ok F64.zero
      ∧ (after (exec (.peaks .a 0) spectrum)).peakCount = 2 := by decide +kernel

/-- Vectors P15 and P16. -/
theorem test_peaks_range : (after (exec (.peaks .a 1) spectrum)).status.errcode = .frameRange
    ∧ (after (exec (.peaks .b 0) spectrum)).status.errcode = .frameRange := by decide +kernel

/-- Program 1's end state (9.2): the table, and PEAK_COUNT of the last frame. -/
theorem test_analyze :
    ((List.range 8).map (fun i => analyzed.mem.word (0x01000000 + 8 * i)), analyzed.peakCount)
      = ([0x4000000000000000#64, 0x3FF4000000000000#64, 0x4010000000000000#64, 0, 0x4010000000000000#64, 0,
          0x4010000000000000#64, 0].map some, 0) := by decide +kernel

/-- Program 2 (9.3), of one voice: NORMALIZE A of the amplitudes 1.25 and 0, then NORMALIZE B of an empty recording. -/
def normalized : State := after (exec (.normalize .a) (table 0x3FF4000000000000#64 0))

theorem test_normalize :
    normalized.mem.word 0x01000008 = some one64 ∧ normalized.normMax.a = 0x3FF4000000000000#64
      ∧ (after (exec (.normalize .b) normalized)).status.toWord = 0x728 := by decide +kernel

/-- Vector N8. -/
theorem test_normalize_infinite :
    (after (exec (.normalize .a) (table 0x7FF0000000000000#64 one64))).status.errcode = .nonfinite := by decide +kernel

/-- Example of R130. -/
theorem test_synth_reset :
    (after (exec .synthReset sounding)).voices = [⟨one64, one64, 0, 0⟩, ⟨0, 0, 0, 0⟩]
      ∧ (after (exec .synthReset { sounding with s := 3 })).s = 0 := by decide +kernel

/-- Vector I4. -/
theorem test_interp :
    (after (exec .interp blending)).voices = [⟨0x4072C00000000000#64, 0x3FD8000000000000#64, 0, 0⟩, ⟨0, 0, 0, 0⟩]
      ∧ (after (exec .interp blending)).intT = 0x3FF8000000000000#64
      ∧ (after (exec .interp blending)).intLow = 1 ∧ (after (exec .interp blending)).intHigh = 2
      ∧ (after (exec .interp blending)).intUw = 0x3FE0000000000000#64 := by decide +kernel

/-- Vector O1. -/
theorem test_osc :
    (after (exec .osc sounding)).voices
        = [⟨one64, one64, 0x3FD0000000000000#64, 0x3FC0000000000000#64⟩, ⟨0, 0, 0, 0⟩]
      ∧ (after (exec .osc sounding)).outL = 0x3FE6A09E667F3BCC#64
      ∧ (after (exec .osc sounding)).outR = 0x3FE6A09E667F3BCC#64 := by decide +kernel

/-- Vector O5: an increment that is NaN. -/
theorem test_osc_nonfinite :
    (after (exec .osc (writes sounding [(0x1000, 0x7FF8000000000000#64)]))).status.errcode = .nonfinite := by decide +kernel

/-- Row 2 of program 3 (9.4). -/
theorem test_synth :
    (after (exec .synth (after (exec .synth player)))).outL = 0x3FE3CC8A99AF5452#64
      ∧ (after (exec .synth (after (exec .synth player)))).s = 2
      ∧ (after (exec .synth (after (exec .synth player)))).voices
        = [⟨0x3FF8000000000000#64, 0x3FEC000000000000#64, 0x3FD4000000000000#64, 0x3FC8000000000000#64⟩, ⟨0, 0, 0, 0⟩] := by
  decide +kernel

/-- Row 8 of program 3: the counter wraps at S_LIMIT = 8. -/
theorem test_synth_wraps : (after (exec .synth { player with s := 7 })).s = 0 := by decide +kernel

/-! ## The bus (95_test_vectors.md 8.3) and the step -/

/-- The response to the last transaction. -/
def lastReply (s : State) : Option Reply := s.replies.head?

/-- B1 to B5. -/
theorem test_bus_registers :
    lastReply (State.reset.busRead 0x004) = some (.readErr .misaligned 0)
      ∧ (State.reset.busRead 0x004).status.toWord = 0x80
      ∧ lastReply (State.reset.busWrite 0x038 0) = some (.writeErr .writeRo)
      ∧ lastReply (State.reset.busRead 0x0E8) = some (.readErr .unmapped 0)
      ∧ lastReply (State.reset.busWrite 0x048 0) = some (.writeErr .illegalValue)
      ∧ lastReply (State.reset.busWrite 0x048 65) = some (.writeErr .illegalValue)
      ∧ lastReply (State.reset.busWrite 0x048 64) = some .writeOk
      ∧ lastReply (State.reset.busWrite 0x060 0x3FE0000000000000#64) = some (.writeErr .illegalValue)
      ∧ lastReply (State.reset.busWrite 0x060 0x8000000000000000#64) = some (.writeErr .illegalValue) := by decide +kernel

/-- B6 to B11, B13 and B14. -/
theorem test_bus_elements :
    lastReply (State.reset.busWrite 0x1010 one64) = some (.writeErr .illegalValue)
      ∧ lastReply (State.reset.busWrite 0x1010 0x3FE0000000000000#64) = some .writeOk
      ∧ lastReply (State.reset.busWrite 0x1800 0) = some (.writeErr .unmapped)
      ∧ lastReply (State.reset.busWrite 0x00200000 0) = some (.writeErr .writeRo)
      ∧ lastReply (State.reset.busRead 0x00120000) = some (.readErr .unmapped 0)
      ∧ lastReply ((State.reset.busWrite 0x04000000 0xFFFFFFFF3F800000#64).busRead 0x04000000) = some (.readOk 0x3F800000#64)
      ∧ lastReply (State.reset.busRead 0x040) = some (.readOk 0)
      ∧ lastReply (State.reset.busWrite 0x0C000000 0) = some (.writeErr .unmapped) := by decide +kernel

/-- The constants of R23, R24 and R25, with the defaults. -/
theorem test_bus_constants :
    lastReply (State.reset.busRead 0x000) = some (.readOk 0x4953545000070001#64)
      ∧ lastReply (State.reset.busRead 0x008) = some (.readOk 0x0000080000002000#64)
      ∧ lastReply (State.reset.busRead 0x010) = some (.readOk 0x0000400000000400#64)
      ∧ lastReply (State.reset.busRead 0x018) = some (.readOk 0x0040000000000040#64)
      ∧ lastReply (State.reset.busRead 0x020) = some (.readOk 0x0000000000001000#64)
      ∧ lastReply (State.reset.busRead 0x028) = some (.readOk 0x40E7700000000000#64) := by decide +kernel

/-- A host program after at most `n` transactions; its start where it stops. -/
def runOf (n : Nat) (r : HostRun) : HostRun :=
  match r.run n with
  | .next t => t
  | .fault _ => r
  | .refused _ => r

/-- B12: a read at once after ISSUE is rejected if it arrives while BUSY = 1, and else answered. -/
theorem test_program_issue_read :
    lastReply (runOf 2 (.start [.issue .synthReset, .rd 0x048] [false, true] small)).state = some (.readErr .busy 0)
      ∧ lastReply (runOf 2 (.start [.issue .synthReset, .rd 0x048] [false, false] small)).state = some (.readOk 1) := by
  decide +kernel

/-- POLL reads STATUS until BUSY is 0: one read where the first comes after completion, three where two come before. -/
theorem test_program_poll :
    (runOf 9 (.start [.cmd .synthReset, .rd 0x000] [] small)).state.replies.length = small.replies.length + 3
      ∧ (runOf 9 (.start [.cmd .synthReset, .rd 0x000] [false, true, true] small)).state.replies.length
        = small.replies.length + 5
      ∧ (runOf 9 (.start [.poll, .rd 0x000] [true, true] small)).state.replies.length = small.replies.length + 2 := by
  decide +kernel

/-- CHECK fails the program after INTERP without frames (EMPTY), and not after SYNTH_RESET. -/
theorem test_program_check : (runOf 9 (.start [.cmd .interp, .check] [] small)).failed = true
    ∧ (runOf 9 (.start [.cmd .synthReset, .check] [] small)).failed = false
    ∧ (runOf 9 (.start [.cmd .synthReset, .check] [] small)).ended = true := by decide +kernel

/-- Program 4 (9.5): an undefined word, then OSC without its table. -/
theorem test_step_errors : (after (step (small.issued 0xFF))).status.toWord = 0x120
    ∧ (after (step ((after (step (small.issued 0xFF))).issued 0x22))).status.toWord = 0x160 := by decide +kernel

/-- `withFetchWord` issues the word: the next step runs it. -/
theorem test_fetch_word : (after (step (State.reset.withFetchWord 64 0x20))).status.busy = false
    ∧ (State.reset.withFetchWord 64 0x20).sequencerTurn = true := by decide +kernel

/-! ## Witnesses: for each statement with hypotheses, a state and operands that meet them -/

/-- DecodeOfEncodeIsTheCommand, ACommandWrittenToCmdRuns (the command) and the frames: the largest frame index. -/
theorem test_witness_wellFormed : (Instr.loadFrame .b 0x7FFFFF).wellFormed = true := by decide

/-- EncodeOfDecodeIsTheWord. -/
theorem test_witness_decoded : decode 0x713#64 = .ok (.peaks .b 3) := by decide

/-- DecodingChecksInOrder: a word for each of its five branches, at the boundary of each field. -/
theorem test_witness_decoding :
    ((0x24#64).toNat % 256 ∉ definedOps ∧ decode 0x24#64 = .error .illegalOpcode)
      ∧ ((0x100000013#64).toNat / 2 ^ 32 ≠ 0 ∧ decode 0x100000013#64 = .error .reservedField)
      ∧ ((0x214#64).toNat / 2 ^ 9 % 2 ^ 23 ≠ 0 ∧ decode 0x214#64 = .error .reservedField)
      ∧ ((0x123#64).toNat / 2 ^ 8 % 2 ≠ 0 ∧ decode 0x123#64 = .error .reservedField)
      ∧ decode 0xFFFFFF10#64 = .ok (.loadFrame .b 0x7FFFFF) := by decide

/-- StepRunsTheDecodedCommand. -/
theorem test_witness_turn : (small.issued 0x20).params.legal = true ∧ (small.issued 0x20).sequencerTurn = true
    ∧ decode (small.issued 0x20).pending = .ok .synthReset := by decide +kernel

/-- StepRecordsADecodingError, both errors. -/
theorem test_witness_bad_word : small.params.legal = true ∧ (small.issued 0xFF).sequencerTurn = true
    ∧ decode (small.issued 0xFF).pending = .error .illegalOpcode
    ∧ decode (small.issued 0x112).pending = .error .reservedField := by decide +kernel

/-- ACommandWrittenToCmdRuns. -/
theorem test_witness_issue : small.params.legal = true ∧ Instr.synth.wellFormed = true ∧ small.inReset = false
    ∧ small.status.busy = false
    ∧ { small with inputs := [⟨.write 0x030 (encode .synth), true⟩] }.inputs = [⟨.write 0x030 (encode .synth), true⟩] := by
  decide +kernel

/-- CommandErrorIsRecorded: ERR = 0 and ERR = 1. -/
theorem test_witness_error : (small.cmdError .empty).status.errcode = .empty
    ∧ ((small.cmdError .empty).cmdError .zeroMax).status.errcode = .empty
    ∧ ((small.cmdError .empty).cmdError .zeroMax).status.errMulti = true := by decide

/-- CommandsAreAtomic: each of its three ends. -/
theorem test_witness_ends : exec .fft small = .fault (.unwritten .fftbuf)
    ∧ exec .interp small = .next (small.cmdError .empty) ∧ exec .nop small = .next (after (exec .nop small)) :=
  ⟨eq_fault (by decide +kernel), rfl, rfl⟩

/-- CommandsLeaveTheHostsRegistersAndInputs. -/
theorem test_witness_success : tiny.configLegal ∧ (Instr.analyze .a).wellFormed = true
    ∧ exec (.analyze .a) tiny = .next tinyAnalyzed :=
  ⟨by decide +kernel, rfl, eq_after (by decide +kernel)⟩

/-- NopOnlyCompletes: a word with OP 0 and a bit set, at each end of bits 8 to 63. -/
theorem test_witness_nop_words : (0x100#64).toNat % 256 = 0 ∧ decode 0x100#64 = .error .reservedField
    ∧ (0x8000000000000000#64).toNat % 256 = 0 ∧ decode 0x8000000000000000#64 = .error .reservedField := by decide

/-- SynthResetRestartsTheSession: words of its OP. -/
theorem test_witness_reset_words : (0x20#64).toNat % 256 = 0x20 ∧ decode 0x20#64 = .ok .synthReset
    ∧ (0x120#64).toNat % 256 = 0x20 ∧ decode 0x120#64 = .error .reservedField
    ∧ decode 0x8000000000000020#64 = .error .reservedField := by decide

/-- BuildWindowBuildsTheHannTable, BuildSineBuildsTheSineTable: the first and last elements, and an address beyond. -/
theorem test_witness_tables : 0 < smallParams.win ∧ 3 < smallParams.win ∧ 7 < smallParams.sine
    ∧ wintabAddr smallParams.win ≤ sinetabAddr 0 := by decide

/-- LoadFrameLoadsTheSamples: the last frame, of two samples, and the frame index that is out of range. -/
theorem test_witness_load : recorded.params.legal = true ∧ recorded.frames .a ≤ 2 ∧ 1 < recorded.frames .a
    ∧ ∀ i, i < min recorded.params.hop ((recorded.inLen.get .a).toNat - 1 * recorded.params.hop) →
      recorded.mem.half (inbufAddr .a (1 * recorded.params.hop + i)) = some (if i = 0 then 0 else 0x3F800000#32) := by
  decide +kernel

/-- WindowScalesTheFirstElements: WIN_READY = 0, and WIN_READY = 1 with both operands written. -/
theorem test_witness_window : recorded.status.winReady = false
    ∧ (after (exec (.loadFrame .a 1) booted)).status.winReady = true
    ∧ (after (exec (.loadFrame .a 1) booted)).readFfts smallParams.win = .ok [real 0, real one64, real 0, real 0]
    ∧ (after (exec (.loadFrame .a 1) booted)).readWintab = .ok (windowRow.map F64.ofWord) := by decide +kernel

/-- FftTransformsTheBuffer. -/
theorem test_witness_fft : (after (exec (.loadFrame .a 1) recorded)).params.legal = true
    ∧ (after (exec (.loadFrame .a 1) recorded)).readFfts smallParams.nfft
        = .ok [real 0, real one64, real 0, real 0, real 0, real 0, real 0, real 0] := by decide +kernel

/-- FftIsTheRadixTwoRecursion: two elements (m = 1) and four (m = 2). -/
theorem test_witness_recursion : [real 0, real one64].length = 2 * 2 ^ 0
    ∧ [real 0, real one64, real 0, real 0].length = 2 * 2 ^ 1 := by decide

/-- PeaksWritesTheExtractedEntries: frame 0 in range, frame 1 out of it. -/
theorem test_witness_peaks : spectrum.frames .a ≤ 1 ∧ 0 < spectrum.frames .a
    ∧ spectrum.readFfts (spectrum.params.nfft / 2 + 1)
        = .ok [real 0x4022000000000000#64, real one64, real 0x4014000000000000#64, real 0x4014000000000000#64,
          real 0x4014000000000000#64, real 0x4000000000000000#64, real 0x401C000000000000#64, real 0x4008000000000000#64,
          real 0x4010000000000000#64] := by decide +kernel

/-- The magnitudes of vector P1. -/
def magsP1 : List F64 :=
  [0x4022000000000000#64, one64, 0x4014000000000000#64, 0x4014000000000000#64, 0x4014000000000000#64,
    0x4000000000000000#64, 0x401C000000000000#64, 0x4008000000000000#64, 0x4010000000000000#64].map F64.ofWord

/-- PeaksAreTheAsymmetricLocalMaxima and PeaksAreRankedByMagnitudeThenBin, on vector P1. -/
theorem test_witness_magnitudes : magsP1.length = 8 + 1 ∧ peakBins 8 magsP1 = [2, 6]
    ∧ rankPeaks magsP1 (peakBins 8 magsP1) = [6, 2] := by decide +kernel

/-- APlateauHasOnePeak: the plateau 2 to 4 of vector P1. -/
theorem test_witness_plateau : magsP1.length = 8 + 1 ∧ F64.lt (magAt magsP1 (2 - 1)) (magAt magsP1 2) = true
    ∧ ∀ j, j < 4 → 2 ≤ j → F64.eq (magAt magsP1 j) (magAt magsP1 (j + 1)) = true := by decide +kernel

/-- ExtractReturnsNSortedEntries: a legal instance, a legal rate and a spectrum of K + 1 bins. -/
theorem test_witness_extract : wideParams.legal = true ∧ legalRate 0x4030000000000000#64 = true
    ∧ (magsP1.map (fun m => (⟨m, F64.zero⟩ : Cx))).length = wideParams.nfft / 2 + 1 := by decide +kernel

/-- AnalyzeAnalysesEveryFrame: two frames; and WIN_READY = 0. -/
theorem test_witness_analyze : booted.configLegal ∧ recorded.status.winReady = false ∧ booted.status.winReady = true
    ∧ booted.readWintab = .ok (windowRow.map F64.ofWord)
    ∧ ∀ f, f < booted.frames .a → booted.load .a f
        = .ok [real 0, real one64, real 0, if f = 0 then real negOne64 else real 0, real 0, real 0, real 0, real 0] := by
  decide +kernel

/-- The amplitudes 2 and 4 of `table`. -/
def amps24 (f _ : Nat) : F64 := F64.ofWord (if f = 0 then 0x4000000000000000#64 else 0x4010000000000000#64)

/-- NormalizeDividesByTheMaximum. -/
theorem test_witness_normalize : (table 0x4000000000000000#64 0x4010000000000000#64).configLegal
    ∧ (∀ f n, f < (table 0x4000000000000000#64 0x4010000000000000#64).frames .a →
        n < (table 0x4000000000000000#64 0x4010000000000000#64).nvoices.toNat →
        (table 0x4000000000000000#64 0x4010000000000000#64).readAmp .a f n = .ok (amps24 f n))
    ∧ scanMax F64.zero ((scanned 2 1).map (fun e => amps24 e.1 e.2)) = F64.ofWord 0x4010000000000000#64 := by
  have h : ∀ f, f < (table 0x4000000000000000#64 0x4010000000000000#64).frames .a →
      ∀ n, n < (table 0x4000000000000000#64 0x4010000000000000#64).nvoices.toNat →
      (table 0x4000000000000000#64 0x4010000000000000#64).readAmp .a f n = .ok (amps24 f n) := by decide +kernel
  exact ⟨by decide +kernel, fun f n hf hn => h f hf n hn, by decide +kernel⟩

/-- TheScanFindsTheMaximum: a NaN, a negative value and two positive ones. -/
theorem test_witness_scan :
    scanMax F64.zero [.nan, F64.ofWord negOne64, F64.ofWord one64, F64.half] = F64.one
      ∧ F64.eq F64.one F64.zero = false ∧ F64.eq F64.one (.num false infMag) = false := by decide +kernel

/-- InterpInterpolatesTheVoices: S = 6 of vector I4, so low = 1 and high = 2. -/
theorem test_witness_interp : blending.configLegal ∧ blending.voices.length = blending.params.nmax
    ∧ blending.frameLimit ≠ 0
    ∧ ∀ n, n < blending.nvoices.toNat →
      blending.readFreq .a 1 n = .ok (F64.ofWord 0x4069000000000000#64)
        ∧ blending.readFreq .a 2 n = .ok (F64.ofWord 0x4079000000000000#64)
        ∧ blending.readAmp .a 1 n = .ok F64.half ∧ blending.readAmp .a 2 n = .ok (F64.ofWord 0x3FD0000000000000#64) := by
  decide +kernel

/-- SineLookupInterpolatesTheTable: the table of TS = 8 and the largest legal phase. -/
theorem test_witness_lookup : player.params.legal = true ∧ legalPhase 0x3FEFFFFFFFFFFFFF#64 = true
    ∧ ∀ i, i < player.params.sine → player.readSine i = .ok (rowEntry i) := by decide +kernel

/-- OscSoundsTheBank. -/
theorem test_witness_osc : sounding.configLegal ∧ sounding.voicesSound ∧ sounding.status.sineReady = true
    ∧ (∀ i, i < sounding.params.sine → sounding.readSine i = .ok (rowEntry i))
    ∧ ∀ n, n < sounding.nvoices.toNat →
      ((F64.ofWord (sounding.voices.getD n Voice.zero).freq).div (F64.ofWord sounding.params.engineSr)).isFinite = true := by
  decide +kernel

/-- SynthProducesOneSample: the first sample of program 3. -/
theorem test_witness_synth : player.configLegal ∧ player.voicesSound ∧ player.status.sineReady = true
    ∧ player.frameLimit ≠ 0
    ∧ (∀ i, i < player.params.sine → player.readSine i = .ok (rowEntry i))
    ∧ (∀ n, n < player.nvoices.toNat →
      player.readFreq .a (weightsAt player.s.toNat player.sLimit player.frameLimit).low n = .ok F64.one
        ∧ player.readFreq .a (weightsAt player.s.toNat player.sLimit player.frameLimit).high n
          = .ok (F64.ofWord 0x4008000000000000#64)
        ∧ player.readAmp .a (weightsAt player.s.toNat player.sLimit player.frameLimit).low n = .ok F64.one
        ∧ player.readAmp .a (weightsAt player.s.toNat player.sLimit player.frameLimit).high n = .ok F64.half)
    ∧ (F64.div
        (F64.add ((weightsAt player.s.toNat player.sLimit player.frameLimit).lw.mul F64.one)
          ((weightsAt player.s.toNat player.sLimit player.frameLimit).uw.mul (F64.ofWord 0x4008000000000000#64)))
        (F64.ofWord player.params.engineSr)).isFinite = true := by decide +kernel

/-- `player` with one entry of table B written. -/
def playerB : State := { player with mem := player.mem.putWords 0x02000000 [one64] }

/-- TableBHasNoAudibleEffect: both commands answer, and table B differs. -/
theorem test_witness_table_b : player.configLegal ∧ player.voicesSound ∧ playerB = { player with mem := playerB.mem }
    ∧ (∀ a, (a < 0x02000000 ∨ 0x03000000 ≤ a) → playerB.mem.get a = player.mem.get a)
    ∧ playerB.mem.get 0x02000007 ≠ player.mem.get 0x02000007
    ∧ exec .interp player = .next (after (exec .interp player))
    ∧ exec .synth player = .next (after (exec .synth player)) :=
  ⟨by decide +kernel, by decide +kernel, rfl,
    fun a h => get_putWords_outside (h.imp_right fun h => Nat.le_trans (by decide) h), by decide +kernel,
    eq_after (by decide +kernel), eq_after (by decide +kernel)⟩

/-- BufferCommandsChangeOnlyFftbuf: each of its commands answers a next state. -/
theorem test_witness_buffer_commands : tinyAnalyzed.params.legal = true
    ∧ exec .window tinyAnalyzed = .next (after (exec .window tinyAnalyzed))
    ∧ exec .fft tinyAnalyzed = .next (after (exec .fft tinyAnalyzed))
    ∧ exec (.loadFrame .a 0) tinyAnalyzed = .next (after (exec (.loadFrame .a 0) tinyAnalyzed)) :=
  ⟨by decide +kernel, eq_after (by decide +kernel), eq_after (by decide +kernel), eq_after (by decide +kernel)⟩

/-- TableCommandsChangeOnlyTheirTable. -/
theorem test_witness_table_commands : tinyAnalyzed.params.legal = true
    ∧ exec (.peaks .a 1) tinyAnalyzed = .next (after (exec (.peaks .a 1) tinyAnalyzed))
    ∧ exec (.analyze .a) tinyAnalyzed = .next (after (exec (.analyze .a) tinyAnalyzed))
    ∧ exec (.normalize .a) tinyAnalyzed = .next (after (exec (.normalize .a) tinyAnalyzed)) :=
  ⟨by decide +kernel, eq_after (by decide +kernel), eq_after (by decide +kernel), eq_after (by decide +kernel)⟩

/-- SoundCommandsChangeNoMemory. -/
theorem test_witness_sound_commands : exec .interp sounding = .next (after (exec .interp sounding))
    ∧ exec .osc sounding = .next (after (exec .osc sounding))
    ∧ exec .synth sounding = .next (after (exec .synth sounding)) :=
  ⟨eq_after (by decide +kernel), eq_after (by decide +kernel), eq_after (by decide +kernel)⟩

/-- UnreadyCommandsAreErrors: each premise. -/
theorem test_witness_unready : small.frameLimit = 0 ∧ small.status.sineReady = false
    ∧ booted.status.sineReady = true ∧ booted.frameLimit = 0 := by decide +kernel

/-- NormalizeWithoutAUsableMaximumIsAnError: no positive amplitude (-1.0 and +0.0), and an infinite one. -/
theorem test_witness_no_maximum :
    (∀ f n, f < (table negOne64 0).frames .a → n < (table negOne64 0).nvoices.toNat →
        (table negOne64 0).readAmp .a f n = .ok (F64.ofWord (if f = 0 then negOne64 else 0)))
      ∧ F64.lt F64.zero (F64.ofWord negOne64) = false ∧ F64.lt F64.zero (F64.ofWord 0) = false
      ∧ (∀ f n, f < (table one64 0x7FF0000000000000#64).frames .a → n < (table one64 0x7FF0000000000000#64).nvoices.toNat →
        (table one64 0x7FF0000000000000#64).readAmp .a f n
          = .ok (F64.ofWord (if f = 0 then one64 else 0x7FF0000000000000#64)))
      ∧ 1 < (table one64 0x7FF0000000000000#64).frames .a ∧ 0 < (table one64 0x7FF0000000000000#64).nvoices.toNat
      ∧ F64.ofWord 0x7FF0000000000000#64 = .num false infMag := by
  have h : ∀ f, f < (table negOne64 0).frames .a → ∀ n, n < (table negOne64 0).nvoices.toNat →
      (table negOne64 0).readAmp .a f n = .ok (F64.ofWord (if f = 0 then negOne64 else 0)) := by decide +kernel
  have k : ∀ f, f < (table one64 0x7FF0000000000000#64).frames .a →
      ∀ n, n < (table one64 0x7FF0000000000000#64).nvoices.toNat →
      (table one64 0x7FF0000000000000#64).readAmp .a f n
        = .ok (F64.ofWord (if f = 0 then one64 else 0x7FF0000000000000#64)) := by decide +kernel
  exact ⟨fun f n hf hn => h f hf n hn, by decide +kernel, by decide +kernel, fun f n hf hn => k f hf n hn,
    by decide +kernel, by decide +kernel, by decide +kernel⟩

/-- ANonfiniteIncrementIsAnError. -/
theorem test_witness_nonfinite :
    (writes sounding [(0x1000, 0x7FF0000000000000#64)]).status.sineReady = true
      ∧ ∃ v ∈ (writes sounding [(0x1000, 0x7FF0000000000000#64)]).voices.take
          (writes sounding [(0x1000, 0x7FF0000000000000#64)]).nvoices.toNat,
        ((F64.ofWord v.freq).div
          (F64.ofWord (writes sounding [(0x1000, 0x7FF0000000000000#64)]).params.engineSr)).isFinite = false := by
  decide +kernel

/-- `player` with FREQ of entry (0, 0) infinite: the increment of voice 0 is infinite. -/
def unplayable : State := writes player [(0x01000000, 0x7FF0000000000000#64)]

/-- ANonfiniteIncrementIsAnError, the clause of SYNTH. -/
theorem test_witness_nonfinite_synth : unplayable.status.sineReady = true ∧ unplayable.frameLimit ≠ 0
    ∧ (∀ n, n < unplayable.nvoices.toNat →
      unplayable.readFreq .a (weightsAt unplayable.s.toNat unplayable.sLimit unplayable.frameLimit).low n
          = .ok (.num false infMag)
        ∧ unplayable.readFreq .a (weightsAt unplayable.s.toNat unplayable.sLimit unplayable.frameLimit).high n
          = .ok (F64.ofWord 0x4008000000000000#64)
        ∧ unplayable.readAmp .a (weightsAt unplayable.s.toNat unplayable.sLimit unplayable.frameLimit).low n = .ok F64.one
        ∧ unplayable.readAmp .a (weightsAt unplayable.s.toNat unplayable.sLimit unplayable.frameLimit).high n = .ok F64.half)
    ∧ 0 < unplayable.nvoices.toNat
    ∧ (F64.div
        (F64.add ((weightsAt unplayable.s.toNat unplayable.sLimit unplayable.frameLimit).lw.mul (.num false infMag))
          ((weightsAt unplayable.s.toNat unplayable.sLimit unplayable.frameLimit).uw.mul (F64.ofWord 0x4008000000000000#64)))
        (F64.ofWord unplayable.params.engineSr)).isFinite = false
    ∧ exec .synth unplayable = .next (unplayable.cmdError .nonfinite) :=
  ⟨by decide +kernel, by decide +kernel, by decide +kernel, by decide +kernel, by decide +kernel,
    (eq_after (by decide +kernel)).trans (congrArg _ (by decide +kernel))⟩

/-- `tiny` with a recording B of one sample that nothing has written. -/
def tinyB : State := writes tiny [(0x058, 1)]

/-- CommandsFaultOnlyOnUnwrittenElements: both tables built. -/
theorem test_witness_faults : tinyB.configLegal ∧ tinyB.voicesSound ∧ tinyB.windowBuilt ∧ tinyB.sineBuilt :=
  ⟨by decide +kernel, by decide +kernel, fun _ => by decide +kernel, fun _ => by decide +kernel⟩

/-- There every command that reads an element that may be unwritten faults. -/
theorem test_witness_each_fault : exec (.loadFrame .b 0) tinyB = .fault (.unwritten .inbufB)
    ∧ exec .window tinyB = .fault (.unwritten .fftbuf) ∧ exec .fft tinyB = .fault (.unwritten .fftbuf)
    ∧ exec (.peaks .a 0) tinyB = .fault (.unwritten .fftbuf) ∧ exec (.analyze .b) tinyB = .fault (.unwritten .inbufB)
    ∧ exec (.normalize .a) tinyB = .fault (.unwritten .atabA) ∧ exec .interp tinyB = .fault (.unwritten .atabA)
    ∧ exec .synth tinyB = .fault (.unwritten .atabA) ∧ isNext (exec (.analyze .a) tinyB) = true
    ∧ isNext (exec .osc tinyB) = true :=
  ⟨eq_fault (by decide +kernel), eq_fault (by decide +kernel), eq_fault (by decide +kernel), eq_fault (by decide +kernel),
    eq_fault (by decide +kernel), eq_fault (by decide +kernel), eq_fault (by decide +kernel), eq_fault (by decide +kernel),
    by decide +kernel, by decide +kernel⟩

/-- BusyMisalignedAndUnmappedAreRejected: each clause, at the first and the last reserved register offset. -/
theorem test_witness_rejected : small.inReset = false ∧ small.status.busy = false
    ∧ (small.issued 0).inReset = false ∧ (small.issued 0).status.busy = true
    ∧ (0x001#32).toNat % 8 ≠ 0 ∧ (0x0E8#32).toNat % 8 = 0 ∧ (0xFF8#32).toNat % 8 = 0
    ∧ decodeAddr small.params 0x0E8 = none ∧ decodeAddr small.params 0xFF8 = none
    ∧ decodeAddr small.params 0x0C000000 = none := by decide +kernel

/-- RejectedTransactionsOnlySetBerr: a rejected read, a rejected write and an accepted read. -/
theorem test_witness_berr : (small.busRead 0x004).replies = .readErr .misaligned 0 :: small.replies
    ∧ (small.busWrite 0x000 1).replies = .writeErr .writeRo :: small.replies
    ∧ (small.busRead 0x048).replies = .readOk 1 :: small.replies := by decide +kernel

/-- RejectedTransactionsOnlySetBerr, the step: an idle block, and a busy one that a transaction reaches first. -/
theorem test_witness_transactions :
    { small with inputs := [⟨.read 0x048, false⟩] }.sequencerTurn = false ∧ small.params.legal = true
      ∧ { small.issued 0x20 with inputs := [⟨.write 0x048 1, true⟩] }.sequencerTurn = false
      ∧ { small.issued 0x20 with inputs := [⟨.write 0x048 1, true⟩] }.inputs = [⟨.write 0x048 1, true⟩] := by
  decide +kernel

/-- ElementsLieWhereTheMapSays: the last element of each region, and the offset after it. -/
theorem test_witness_map : smallParams.legal = true
    ∧ decodeAddr smallParams 0x1038 = some (.voice 1 .inc) ∧ decodeAddr smallParams 0x1040 = none
    ∧ decodeAddr smallParams 0x00100078 = some (.fft 0x00100078) ∧ decodeAddr smallParams 0x00100080 = none
    ∧ decodeAddr smallParams 0x00200018 = some (.wintab 0x00200018) ∧ decodeAddr smallParams 0x00200020 = none
    ∧ decodeAddr smallParams 0x00280038 = some (.sinetab 0x00280038) ∧ decodeAddr smallParams 0x00280040 = none
    ∧ decodeAddr smallParams 0x01000078 = some (.atab .a 0x01000078) ∧ decodeAddr smallParams 0x01000080 = none
    ∧ decodeAddr smallParams 0x02000078 = some (.atab .b 0x02000078) ∧ decodeAddr smallParams 0x02000080 = none
    ∧ decodeAddr smallParams 0x04000078 = some (.inbuf .a 0x04000078) ∧ decodeAddr smallParams 0x04000080 = none
    ∧ decodeAddr smallParams 0x08000078 = some (.inbuf .b 0x08000078) ∧ decodeAddr smallParams 0x08000080 = none := by
  decide +kernel

/-- CmdIssuesAndClearClears: busy and not, and a CLEAR of each bit. -/
theorem test_witness_clear :
    (small.issued 0).status.busy = true ∧ small.status.busy = false ∧ small.inReset = false
      ∧ ((small.cmdError .empty).busWrite 0x040 1).status.toWord = 0
      ∧ ((small.busRead 0x004).busWrite 0x040 2).status.toWord = 0
      ∧ ((small.cmdError .empty).busWrite 0x040 0).status.toWord = 0x620 := by decide +kernel

/-- ConfigurationWritesAreChecked: both ends of each range. -/
theorem test_witness_configuration :
    (small.busWrite 0x048 1).nvoices = 1 ∧ (small.busWrite 0x048 2).nvoices = 2
      ∧ lastReply (small.busWrite 0x048 3) = some (.writeErr .illegalValue)
      ∧ (small.busWrite 0x058 16).inLen.b = 16 ∧ lastReply (small.busWrite 0x058 17) = some (.writeErr .illegalValue)
      ∧ (small.busWrite 0x068 one64).sr.b = one64
      ∧ (small.busWrite 0x060 0x41E0000000000000#64).sr.a = 0x41E0000000000000#64
      ∧ lastReply (small.busWrite 0x060 0x41E0000000000001#64) = some (.writeErr .illegalValue)
      ∧ lastReply (small.busWrite 0x060 0x7FF8000000000000#64) = some (.writeErr .illegalValue) := by decide +kernel

/-- WrittenElementsReadBack: a target of each kind, and the phases at the edge of the range. -/
theorem test_witness_read_back : small.inReset = false ∧ small.status.busy = false
    ∧ decodeAddr small.params 0x00100078 = some (.fft 0x00100078)
    ∧ decodeAddr small.params 0x02000078 = some (.atab .b 0x02000078)
    ∧ decodeAddr small.params 0x08000078 = some (.inbuf .b 0x08000078)
    ∧ decodeAddr small.params 0x1020 = some (.voice 1 .freq) ∧ decodeAddr small.params 0x1028 = some (.voice 1 .amp)
    ∧ decodeAddr small.params 0x1030 = some (.voice 1 .phase) ∧ 1 < small.voices.length
    ∧ lastReply (small.busWrite 0x1030 0x3FEFFFFFFFFFFFFF#64) = some .writeOk
    ∧ lastReply (small.busWrite 0x1030 one64) = some (.writeErr .illegalValue)
    ∧ lastReply (small.busWrite 0x1030 0x8000000000000000#64) = some (.writeErr .illegalValue) := by decide +kernel

/-- ReadOnlyElementsRejectWrites: each kind of read-only element. -/
theorem test_witness_read_only :
    lastReply (small.busWrite 0x0E0 0) = some (.writeErr .writeRo)
      ∧ decodeAddr small.params 0x1018 = some (.voice 0 .inc) ∧ lastReply (small.busWrite 0x1018 0) = some (.writeErr .writeRo)
      ∧ decodeAddr small.params 0x00200000 = some (.wintab 0x00200000)
      ∧ decodeAddr small.params 0x00280000 = some (.sinetab 0x00280000) := by decide +kernel

/-- DerivedRegistersReadAsTheirRules: no samples, and a last frame that is not full (vector A5). -/
theorem test_witness_derived : recorded.inReset = false ∧ recorded.status.busy = false ∧ small.configLegal ∧ recorded.configLegal ∧ small.frames .a = 0 ∧ recorded.frames .a = 2
    ∧ player.configLegal ∧ player.sLimit = 8 := by decide +kernel

/-- ResetGivesTheResetState: a reset while a command is pending. -/
theorem test_witness_reset :
    (small.issued 0x20).params.legal = true
      ∧ { small.issued 0x20 with inputs := [⟨.assertReset, true⟩] }.sequencerTurn = false
      ∧ { small.issued 0x20 with inputs := [⟨.assertReset, true⟩] }.inputs = [⟨.assertReset, true⟩] := by decide +kernel

/-- The invariants: a state after commands meets all of them and takes a step. -/
theorem test_witness_invariants : (tinyAnalyzed.issued 0x15).memCanonical ∧ (tinyAnalyzed.issued 0x15).channelsEqual
    ∧ (tinyAnalyzed.issued 0x15).configLegal ∧ (tinyAnalyzed.issued 0x15).sampleInRange ∧ (tinyAnalyzed.issued 0x15).voicesSound
    ∧ (tinyAnalyzed.issued 0x15).errorRecordSound ∧ (tinyAnalyzed.issued 0x15).windowBuilt ∧ (tinyAnalyzed.issued 0x15).sineBuilt
    ∧ step (tinyAnalyzed.issued 0x15) = .next (after (step (tinyAnalyzed.issued 0x15))) :=
  ⟨by decide +kernel, by decide +kernel, by decide +kernel, by decide +kernel, by decide +kernel, by decide +kernel,
    fun _ => by decide +kernel, fun _ => by decide +kernel, eq_after (by decide +kernel)⟩

/-- StepKeepsTheSampleCounterInRange, StepKeepsEveryPhaseInTheUnitInterval: the last sample before the wrap. -/
theorem test_witness_last_sample : { player with s := 7 }.configLegal ∧ { player with s := 7 }.sampleInRange
    ∧ { player with s := 7 }.voicesSound
    ∧ isNext (step ({ player with s := 7 }.issued 0x23)) = true := by decide +kernel

/-- IntegersConvertExactly: both ends of the range. -/
theorem test_witness_integers : F64.ofNat 0 = F64.zero
    ∧ F64.ofNat (2 ^ 53 - 1) = F64.ofWord 0x433FFFFFFFFFFFFF#64 := by decide +kernel

/-- WrappedPhasesLieInTheUnitInterval: the largest finite value and its negative. -/
theorem test_witness_wrap : (F64.ofWord 0x7FEFFFFFFFFFFFFF#64).isFinite = true
    ∧ (F64.ofWord 0xFFEFFFFFFFFFFFFF#64).isFinite = true ∧ legalPhase 0 = true := by decide +kernel

/-- R140: an integral value and -0.0 wrap to +0.0. -/
theorem test_wrap_integral : wrapPhase (F64.ofWord 0xC008000000000000#64) = F64.zero
    ∧ wrapPhase (.num true 0) = F64.zero := by decide +kernel

/-- ResetMeetsTheInvariants: two legal instances besides the default one. -/
theorem test_witness_instances : smallParams.legal = true ∧ tinyParams.legal = true := by decide +kernel

/-! ## TRIG (R16) -/

/-- The cosine of 1.0 is 0.5403023058681397174…: the two values within one unit in the last place, and no further one. -/
theorem test_within_ulp : cosAllowed 0x3FF0000000000000 (F64.ofWord 0x3FE14A280FB5068C#64) = true
    ∧ cosAllowed 0x3FF0000000000000 (F64.ofWord 0x3FE14A280FB5068B#64) = true
    ∧ cosAllowed 0x3FF0000000000000 (F64.ofWord 0x3FE14A280FB5068D#64) = false
    ∧ cosAllowed 0x3FF0000000000000 (F64.ofWord 0x3FE14A280FB5068A#64) = false := by decide +kernel

/-- A tiny argument: the sine is it or the number before it, the cosine 1.0 or the number before it. -/
theorem test_within_ulp_tiny : sinAllowed 0x3000000000000000 (F64.ofWord 0x3000000000000000#64) = true
    ∧ sinAllowed 0x3000000000000000 (F64.ofWord 0x2FFFFFFFFFFFFFFF#64) = true
    ∧ sinAllowed 0x3000000000000000 (F64.ofWord 0x3000000000000001#64) = false
    ∧ cosAllowed 0x3000000000000000 (F64.ofWord 0x3FEFFFFFFFFFFFFF#64) = true
    ∧ cosAllowed 0x3000000000000000 (F64.ofWord 0x3FEFFFFFFFFFFFFE#64) = false := by decide +kernel

end Sys2Proof.Tests
end

/-! PROOFS. The scope family (00_scope.md): what the configuration of the block is and what can change it, the reset state,
and the first facts of the arithmetic. -/

namespace Sys2Proof.Machine

/-! ## The configuration of the block (00_scope.md R5, 10_state.md R29-R31) -/

/-- What `State.configLegal` speaks of: the parameters and the configuration registers. -/
structure ConfigRegs where
  params : Params
  nvoices : Word
  inLen : AB Word
  sr : AB Word

/-- The configuration a state holds. -/
def State.config (s : State) : ConfigRegs := ⟨s.params, s.nvoices, s.inLen, s.sr⟩

/-- The legality of a configuration, one field for each register. -/
structure ConfigRegs.Legal (c : ConfigRegs) : Prop where
  params : c.params.legal = true
  nvoices : 1 ≤ c.nvoices.toNat ∧ c.nvoices.toNat ≤ c.params.nmax
  inLen : ∀ t, (c.inLen.get t).toNat ≤ c.params.inmax
  sr : ∀ t, legalRate (c.sr.get t) = true

theorem configLegal_iff {s : State} : s.configLegal ↔ s.config.Legal := by
  constructor
  · rintro ⟨hp, hn1, hn2, hla, hlb, hra, hrb⟩
    exact ⟨hp, ⟨hn1, hn2⟩, fun t => by cases t <;> assumption, fun t => by cases t <;> assumption⟩
  · rintro ⟨hp, ⟨hn1, hn2⟩, hl, hr⟩
    exact ⟨hp, hn1, hn2, hl .a, hl .b, hr .a, hr .b⟩

/-- `X_T <- v` keeps what holds of both values where it holds of `v`. -/
theorem AB_forall_set {α : Type} {P : α → Prop} {p : AB α} {v : α} (hp : ∀ t, P (p.get t)) (hv : P v) (t : Tab) :
    ∀ u, P ((p.set t v).get u) := by
  intro u
  by_cases h : u = t
  · rw [h, AB_get_set_same]
    exact hv
  · rw [AB_get_set_other p h]
    exact hp u

/-- How a step may move the configuration: not at all, or by one register that takes a legal value, or to the reset
configuration of the same parameters. -/
inductive ConfigRegs.Moves (c : ConfigRegs) : ConfigRegs → Prop where
  | same : c.Moves c
  | nvoices {w : Word} (h : 1 ≤ w.toNat ∧ w.toNat ≤ c.params.nmax) : c.Moves { c with nvoices := w }
  | inLen (t : Tab) {w : Word} (h : w.toNat ≤ c.params.inmax) : c.Moves { c with inLen := c.inLen.set t w }
  | sr (t : Tab) {w : Word} (h : legalRate w = true) : c.Moves { c with sr := c.sr.set t w }
  | reset : c.Moves (State.resetOf c.params).config

theorem ConfigRegs.Moves.of_eq {c d : ConfigRegs} (h : d = c) : c.Moves d := h ▸ .same

theorem ConfigRegs.Moves.params_eq {c d : ConfigRegs} (h : c.Moves d) : d.params = c.params := by
  cases h <;> rfl

/-- The reset configuration of legal parameters is legal: one voice, no samples, and 48000.0 as both rates (R163). -/
theorem resetOf_configLegal {p : Params} (h : p.legal = true) : (State.resetOf p).config.Legal where
  params := h
  nvoices := ⟨Nat.le_refl 1, (bounds_of_legal h).nmax_pos⟩
  inLen t := by cases t <;> exact Nat.zero_le _
  sr t := by
    have h48000 : legalRate 0x40E7700000000000#64 = true := by decide
    cases t <;> exact h48000

theorem ConfigRegs.Moves.legal {c d : ConfigRegs} (h : c.Moves d) (hc : c.Legal) : d.Legal := by
  cases h with
  | same => exact hc
  | nvoices h => exact { hc with nvoices := h }
  | inLen t h => exact { hc with inLen := AB_forall_set (P := fun w : Word => w.toNat ≤ c.params.inmax) hc.inLen h t }
  | sr t h => exact { hc with sr := AB_forall_set (P := fun w => legalRate w = true) hc.sr h t }
  | reset => exact resetOf_configLegal hc.params

/-! ## Commands leave the configuration alone -/

theorem writeFrames_config (t : Tab) (f : Nat) (rs : List FrameResult) (s : State) :
    (State.writeFrames t f rs s).config = s.config := by
  rw [writeFrames_eq]
  rfl

theorem writeAmps_config (t : Tab) (es : List ((Nat × Nat) × F64)) (s : State) :
    (State.writeAmps t es s).config = s.config := by
  rw [writeAmps_eq]
  rfl

theorem leaveLast_config (s : State) (o : Option FrameResult) : (s.leaveLast o).config = s.config := by
  cases o <;> rfl

theorem exec_config {i : Instr} {s u : State} (h : exec i s = .next u) : u.config = s.config := by
  cases i with
  | nop | buildWindow | buildSine | synthReset =>
    cases h
    rfl
  | loadFrame t f => obtain ⟨-, rfl⟩ | ⟨-, b, -, rfl⟩ := execLoadFrame_next h <;> rfl
  | window => obtain ⟨-, rfl⟩ | ⟨-, x, w, -, -, rfl⟩ := execWindow_next h <;> rfl
  | fft =>
    obtain ⟨x, -, rfl⟩ := execFft_next h
    rfl
  | peaks t f => obtain ⟨-, rfl⟩ | ⟨-, x, -, rfl⟩ := execPeaks_next h <;> rfl
  | analyze t =>
    obtain ⟨-, rfl⟩ | ⟨-, rs, -, rfl⟩ := execAnalyze_next h
    · rfl
    · exact (leaveLast_config _ _).trans (writeFrames_config t 0 rs s)
  | normalize t =>
    obtain ⟨amps, -, ⟨-, rfl⟩ | ⟨-, -, rfl⟩ | ⟨-, -, rfl⟩⟩ := execNormalize_next h
    · rfl
    · rfl
    · exact writeAmps_config t _ s
  | interp => obtain ⟨-, rfl⟩ | ⟨-, o, -, rfl⟩ := execInterp_next h <;> rfl
  | osc => obtain ⟨-, rfl⟩ | ⟨-, -, rfl⟩ | ⟨-, o, -, rfl⟩ := execOsc_next h <;> rfl
  | synth =>
    obtain ⟨-, rfl⟩ | ⟨-, -, rfl⟩ | ⟨-, -, o, -, ⟨-, rfl⟩ | ⟨r, -, rfl⟩⟩ := execSynth_next h <;> rfl

/-! ## What an input does to the configuration -/

theorem busRead_config (s : State) (addr : BitVec 32) : (s.busRead addr).config = s.config := by
  obtain ⟨d, k, h⟩ | ⟨c, h⟩ | h := busRead_eq s addr <;> rw [h] <;> rfl

/-- A write whose value is checked moves the configuration as the accepted write does, or as the rejection does. -/
theorem ConfigRegs.Moves.checked {c : ConfigRegs} {P : Prop} [Decidable P] {a b : State} (ha : P → c.Moves a.config)
    (hb : c.Moves b.config) : c.Moves (if P then a else b).config := by
  split
  · exact ha ‹P›
  · exact hb

/-- A register write checks the value before a configuration register takes it (R29-R31). -/
theorem writeReg_moves (s : State) (w : Word) (r : Reg) : s.config.Moves (s.writeReg w r).config := by
  cases r with
  | nvoices => exact .checked (fun h => .nvoices h) .same
  | inLen t => exact .checked (fun h => .inLen t h) .same
  | sr t => exact .checked (fun h => .sr t h) .same
  | _ => exact .same

theorem writeTarget_moves (s : State) (w : Word) (g : Target) : s.config.Moves (s.writeTarget w g).config := by
  cases g with
  | reg r => exact writeReg_moves s w r
  | voice n f =>
    cases f with
    | phase => exact .checked (fun _ => .same) .same
    | _ => exact .same
  | _ => exact .same

theorem busWrite_moves (s : State) (addr : BitVec 32) (w : Word) : s.config.Moves (s.busWrite addr w).config := by
  obtain h | ⟨c, h⟩ | ⟨g, -, -, -, -, h⟩ := busWrite_cases s addr w <;> rw [h]
  · exact .same
  · exact .same
  · exact writeTarget_moves s w g

theorem takeEvent_moves {s u : State} {e : HostEvent} (h : s.takeEvent e = .next u) : s.config.Moves u.config := by
  obtain ⟨addr, rfl⟩ | ⟨addr, w, rfl⟩ | rfl | rfl := takeEvent_next h
  · exact .of_eq (busRead_config s addr)
  · exact busWrite_moves s addr w
  · exact .reset
  · exact .same

theorem step_moves {s u : State} (h : step s = .next u) : s.config.Moves u.config := by
  obtain ⟨-, ⟨-, i, -, hi⟩ | ⟨-, e, -, rfl⟩ | ⟨-, -, rfl⟩ | ⟨-, i, rest, -, he⟩⟩ := step_next h
  · exact .of_eq (exec_config hi)
  · exact .same
  · exact .same
  · exact takeEvent_moves (s := { s with inputs := rest }) he

/-! ## The arithmetic at its special values -/

/-- A magnitude without sign has the units of its pattern. -/
theorem units_num_false (m : Nat) : (F64.num false m).units = magUnits m := rfl

@[simp] theorem F64.neg_num (neg : Bool) (m : Nat) : (F64.num neg m).neg = .num (!neg) m := rfl

@[simp] theorem F64.neg_neg (x : F64) : x.neg.neg = x := by
  cases x with
  | nan => rfl
  | num neg m => rw [F64.neg_num, F64.neg_num, Bool.not_not]

/-- R16: every platform's cosine of a zero is 1.0. -/
theorem fcosMag_zero (tr : Trig) : fcosMag tr 0 = F64.one := by
  cases tr with
  | correctlyRounded => decide
  | platform k => simp [fcosMag]

/-- R16: every platform's sine of a zero is a zero. -/
theorem fsinMag_zero (tr : Trig) : fsinMag tr 0 = F64.zero := by
  cases tr with
  | correctlyRounded => decide
  | platform k => simp [fsinMag]

theorem fcos_zero (tr : Trig) (neg : Bool) : fcos tr (.num neg 0) = F64.one := by
  rw [fcos, if_pos (by decide), fcosMag_zero]

theorem fsin_zero (tr : Trig) (neg : Bool) : fsin tr (.num neg 0) = .num neg 0 := by
  rw [fsin, if_pos (by decide), fsinMag_zero]
  cases neg <;> rfl

/-- R16: FCOS looks at the magnitude only. -/
theorem fcos_neg (tr : Trig) (x : F64) : fcos tr x.neg = fcos tr x := by
  cases x <;> rfl

/-- R16: FSIN applies the sign outside the magnitude. -/
theorem fsin_neg (tr : Trig) (x : F64) : fsin tr x.neg = (fsin tr x).neg := by
  cases x with
  | nan => rfl
  | num neg m =>
    by_cases hm : m < infMag
    · cases neg <;> simp [fsin, hm]
    · rw [F64.neg_num, fsin, fsin, if_neg hm, if_neg hm, F64.neg]

end Sys2Proof.Machine

section
open Sys2Proof Sys2Proof.Machine

/-- Settles O51: a step moves the configuration only by a checked write of one register or by a reset. -/
theorem stepKeepsTheConfigurationLegal : Obligations.StepKeepsTheConfigurationLegal := by
  intro s t hs h
  have hm := step_moves h
  exact ⟨configLegal_iff.2 (hm.legal (configLegal_iff.1 hs)), hm.params_eq⟩

/-- Settles O57: an integer below 2^53 needs at most 53 significant bits, so rounding keeps it. -/
theorem integersConvertExactly : Obligations.IntegersConvertExactly := by
  intro k hk
  obtain ⟨hu, hlt⟩ := ofNat_mag hk
  refine ⟨?_, decide_eq_true hlt⟩
  rw [F64.ofNat, units_num_false, hu, Nat.cast_mul]

/-- Settles O56: the memory is empty, the voices and the outputs are zero, and no table is marked as built. -/
theorem resetMeetsTheInvariants : Obligations.ResetMeetsTheInvariants := by
  refine ⟨rfl, by decide, fun p hp => ?_⟩
  have hv : (State.resetOf p).voicesSound := by
    refine ⟨List.length_replicate, fun v hv => ?_⟩
    rw [List.eq_of_mem_replicate hv]
    decide
  exact ⟨.nil, rfl, configLegal_iff.2 (resetOf_configLegal hp), .inl rfl, hv, ⟨rfl, rfl⟩, nofun, nofun⟩

/-- Settles O59: a zero is the one magnitude that no TRIG is asked for, and the sign is applied outside the magnitude. -/
theorem trigIsExactAtZeroAndSymmetric : Obligations.TrigIsExactAtZeroAndSymmetric := fun tr =>
  ⟨fcos_zero tr false, fcos_zero tr true, fsin_zero tr false, fsin_zero tr true,
    fun x => ⟨fcos_neg tr x, fsin_neg tr x⟩⟩

/-- Settles O60: a comparison asks for two numbers, the order key of both zeros is 0, and a NaN pattern reads as a NaN. -/
theorem comparisonsAreQuietAndNansStayNans : Obligations.ComparisonsAreQuietAndNansStayNans := by
  refine ⟨fun x => ?_, by decide, nanPattern_isNan⟩
  cases x <;> exact ⟨rfl, rfl, rfl, rfl, rfl, rfl⟩

end

/-! PROOFS. The state family (10_state.md): what a command, an input and a step can do to the state, the invariants that every
step keeps, the registers over the bus, and when a command faults. -/

namespace Sys2Proof.Machine

/-! ## The bytes that commands rewrite (10_state.md R46, R49) -/

/-- An offset outside the elements of a memory. -/
def Outside (p : Params) (sp : Space) (a : Nat) : Prop := a < spaceBase sp ∨ spaceEnd p sp ≤ a

/-- An offset outside FFTBUF and both analysis tables, the memories that commands rewrite. -/
def OutsideBuffers (p : Params) (a : Nat) : Prop := Outside p .fftbuf a ∧ ∀ t, Outside p (atabSpace t) a

/-- A write of at most P_NFFT elements leaves every byte outside FFTBUF. -/
theorem get_writeFfts_outside {s : State} {xs : List Cx} {a : Nat} (hl : xs.length ≤ s.params.nfft)
    (h : OutsideBuffers s.params a) : (s.writeFfts xs).mem.get a = s.mem.get a :=
  get_writeFfts (h.1.imp_right fun h => Nat.le_trans (by simp only [spaceEnd, fftAddr]; omega) h)

/-- A byte outside ATAB_T is outside every entry of it. -/
theorem outside_entries {p : Params} {t : Tab} {a f n : Nat} (h : Outside p (atabSpace t) a) (hf : f < p.fmax)
    (hn : n ≤ p.nmax) : a < atabAddr p t f 0 ∨ atabAddr p t f n ≤ a := by
  have hle : (f + 1) * p.nmax ≤ p.fmax * p.nmax := Nat.mul_le_mul_right _ hf
  rw [Nat.add_mul, Nat.one_mul] at hle
  cases t <;> simp only [Outside, atabSpace, spaceBase, spaceEnd, atabAddr, Tab.toNat] at * <;> omega

section
variable {s : State} {t : Tab} {a : Nat}

theorem frames_le (hc : s.configLegal) : s.frames t ≤ s.params.fmax :=
  frames_le_fmax ((configLegal_iff.1 hc).inLen t)

theorem get_analyze (hc : s.configLegal) {rs : List FrameResult}
    (hrs : allOk ((List.range (s.frames t)).map (s.analyseFrame t)) = .ok rs) (ha : OutsideBuffers s.params a) :
    ((State.writeFrames t 0 rs s).leaveLast rs.getLast?).mem.get a = s.mem.get a := by
  have hb := bounds_of_legal hc.1
  have hlen : rs.length = s.frames t := by simpa using allOk_length hrs
  have hr : ∀ r ∈ rs, r.spectrum.length = s.params.nfft ∧ r.entries.length = s.voiceCount := by
    intro r hr
    obtain ⟨f, -, hf⟩ := mem_allOk hrs r hr
    obtain ⟨b, w, hload, -, rfl⟩ := analyseFrame_ok hf
    exact ⟨fft_buffer_length hc.1 ((applyWindow_length b w).trans (load_length hb.hop_le hload)), extract_length ..⟩
  have hframes : (State.writeFrames t 0 rs s).mem.get a = s.mem.get a :=
    get_writeFrames rs 0 s (fun r h => (hr r h).2) fun g _ hg =>
      outside_entries (ha.2 t) (by have := frames_le (t := t) hc; omega) ((configLegal_iff.1 hc).nvoices.2)
  cases hlast : rs.getLast? with
  | none => exact hframes
  | some r =>
    have hmem := List.mem_of_getLast? hlast
    refine Eq.trans (get_writeFfts_outside ?_ ?_) hframes
    · rw [writeFrames_params]
      exact (hr r hmem).1.le
    · rw [writeFrames_params]
      exact ha

theorem get_normalize (hc : s.configLegal) (amps : List F64) (m : F64) (ha : OutsideBuffers s.params a) :
    (s.commitNormalize t (scanned (s.frames t) s.voiceCount) amps m).mem.get a = s.mem.get a := by
  refine get_writeAmps _ s fun ⟨⟨f, n⟩, v⟩ he => ?_
  obtain ⟨hf, hn⟩ := mem_scanned.1 (List.of_mem_zip he).1
  have := outside_entries (ha.2 t) (hf.trans_le (frames_le hc)) (n := n + 1) (hn.trans_le (configLegal_iff.1 hc).nvoices.2)
  simp only [atabAddr] at *
  omega

end

/-! ## How a command ends -/

/-- The registers and voices of the oscillator bank: what only the sound commands and the host move. -/
structure Bank where
  voices : List Voice
  s : Word
  outL : Word
  outR : Word

/-- The bank a state holds. -/
def State.bank (s : State) : Bank := ⟨s.voices, s.s, s.outL, s.outR⟩

/-- The error record of STATUS (60_exceptions.md R153). -/
structure ErrorRecord where
  err : Bool
  errMulti : Bool
  errcode : ErrCode

/-- The error record a state holds. -/
def State.errorRecord (s : State) : ErrorRecord := ⟨s.status.err, s.status.errMulti, s.status.errcode⟩

/-- The ready bits of STATUS (10_state.md R27). -/
structure ReadyBits where
  win : Bool
  sine : Bool

/-- The ready bits a state holds. -/
def State.readyBits (s : State) : ReadyBits := ⟨s.status.winReady, s.status.sineReady⟩

/-- What only the host and the platform move: CMD, PENDING, the reset input, the queue and the responses. -/
structure HostSide where
  cmd : Word
  pending : Word
  inReset : Bool
  inputs : List Input
  replies : List Reply

/-- The host's side of a state. -/
def State.hostSide (s : State) : HostSide := ⟨s.cmd, s.pending, s.inReset, s.inputs, s.replies⟩

/-- What a command that works on FFTBUF or an analysis table keeps: the configuration, the host's side, the bank, the bits of
STATUS beside BUSY and NORM_T, the canonical form, and every byte outside those memories. -/
structure Stores (s u : State) : Prop where
  config : u.config = s.config
  hostSide : u.hostSide = s.hostSide
  bank : u.bank = s.bank
  errors : u.errorRecord = s.errorRecord
  ready : u.readyBits = s.readyBits
  canonical : Mem.wf s.mem → Mem.wf u.mem
  frame : s.configLegal → ∀ a, OutsideBuffers s.params a → u.mem.get a = s.mem.get a

/-- Everything the end of a command can be: an error, work on FFTBUF or an analysis table, a table built, or one of the commits
of the sound commands. -/
inductive CommandEnd (s : State) : State → Prop where
  | error {c : ErrCode} (hc : c ≠ .none) : CommandEnd s (s.cmdError c)
  | stored {u : State} (h : Stores s u) : CommandEnd s u
  | builtWindow : CommandEnd s { s.writeWintab with status := s.status.setWinReady }.complete
  | builtSine : CommandEnd s { s.writeSinetab with status := s.status.setSineReady }.complete
  | restarted : CommandEnd s { s with s := 0, voices := s.voices.map Voice.restart, outL := 0, outR := 0 }.complete
  | interpolated (o : InterpOut) : CommandEnd s (s.commitInterp o).complete
  | sounded {o : OscOut} (hp : ∀ p ∈ o.phase, ∃ q, p = wrapPhase q) : CommandEnd s (s.commitOsc o).complete
  | synthesized (o : InterpOut) {r : OscOut} (hl : s.frameLimit ≠ 0) (hp : ∀ p ∈ r.phase, ∃ q, p = wrapPhase q) :
      CommandEnd s (s.commitSynth o r)

theorem Stores.params {s u : State} (h : Stores s u) : u.params = s.params := congrArg ConfigRegs.params h.config
theorem Stores.inLen {s u : State} (h : Stores s u) : u.inLen = s.inLen := congrArg ConfigRegs.inLen h.config
theorem Stores.voices {s u : State} (h : Stores s u) : u.voices = s.voices := congrArg Bank.voices h.bank
theorem Stores.s {s u : State} (h : Stores s u) : u.s = s.s := congrArg Bank.s h.bank
theorem Stores.outL {s u : State} (h : Stores s u) : u.outL = s.outL := congrArg Bank.outL h.bank
theorem Stores.outR {s u : State} (h : Stores s u) : u.outR = s.outR := congrArg Bank.outR h.bank

theorem stores_complete (s : State) : Stores s s.complete := ⟨rfl, rfl, rfl, rfl, rfl, id, fun _ _ _ => rfl⟩

theorem stores_writeFfts {s : State} {xs : List Cx} (hl : s.configLegal → xs.length ≤ s.params.nfft) :
    Stores s (s.writeFfts xs).complete :=
  ⟨rfl, rfl, rfl, rfl, rfl, fun h => wf_putF64s h _ _, fun hc _ => get_writeFfts_outside (hl hc)⟩

theorem stores_peaks {s : State} {t : Tab} {f : Nat} (hf : f < s.frames t) (sr : F64) (x : List Cx) (c : Nat) :
    Stores s (((s.writeEntries t f (extract s.params.nfft sr s.voiceCount x).1).setPeakCount c).setNorm t false).complete :=
  ⟨rfl, rfl, rfl, rfl, rfl, fun h => wf_putF64s h _ _, fun hc _ ha => get_writeEntries <| by
    rw [extract_length]
    exact outside_entries (ha.2 t) (hf.trans_le (frames_le hc)) (configLegal_iff.1 hc).nvoices.2⟩

/-- Writing frames and leaving the last one changes only the cells, the draws and PEAK_COUNT. -/
theorem leaveLast_writeFrames_eq (t : Tab) (rs : List FrameResult) (s : State) (o : Option FrameResult) :
    (State.writeFrames t 0 rs s).leaveLast o = { s with
      mem := ((State.writeFrames t 0 rs s).leaveLast o).mem
      draws := ((State.writeFrames t 0 rs s).leaveLast o).draws
      peakCount := ((State.writeFrames t 0 rs s).leaveLast o).peakCount } := by
  cases o <;> (rw [writeFrames_eq]; rfl)

theorem wf_leaveLast {s : State} (h : Mem.wf s.mem) (o : Option FrameResult) : Mem.wf (s.leaveLast o).mem := by
  cases o with
  | none => exact h
  | some r => exact wf_putF64s h _ _

theorem stores_analyze {s : State} {t : Tab} {rs : List FrameResult}
    (hrs : allOk ((List.range (s.frames t)).map (s.analyseFrame t)) = .ok rs) :
    Stores s (((State.writeFrames t 0 rs s).leaveLast rs.getLast?).setNorm t false).complete := by
  have hw := fun h => wf_leaveLast (wf_writeFrames t rs 0 s h) rs.getLast?
  have hg := fun hc a => get_analyze (a := a) hc hrs
  rw [leaveLast_writeFrames_eq]
  exact ⟨rfl, rfl, rfl, rfl, rfl, hw, hg⟩

theorem commitNormalize_eq (s : State) (t : Tab) (es : List (Nat × Nat)) (amps : List F64) (m : F64) :
    s.commitNormalize t es amps m = { s with
      mem := (s.commitNormalize t es amps m).mem
      draws := (s.commitNormalize t es amps m).draws
      normMax := (s.commitNormalize t es amps m).normMax
      status := s.status.setNorm t true } := by
  rw [State.commitNormalize, writeAmps_eq]
  rfl

theorem wf_commitNormalize {s : State} {t : Tab} {amps : List F64} {m : F64} (es : List (Nat × Nat)) (h : Mem.wf s.mem) :
    Mem.wf (s.commitNormalize t es amps m).mem :=
  wf_writeAmps t _ s h

theorem stores_normalize (s : State) (t : Tab) (amps : List F64) (m : F64) :
    Stores s (s.commitNormalize t (scanned (s.frames t) s.voiceCount) amps m).complete := by
  have hw := wf_commitNormalize (s := s) (t := t) (amps := amps) (m := m) (scanned (s.frames t) s.voiceCount)
  have hg := fun (hc : s.configLegal) a => get_normalize (t := t) (a := a) hc amps m
  rw [commitNormalize_eq]
  exact ⟨rfl, rfl, rfl, rfl, rfl, hw, hg⟩

/-- Every phase that an oscillator step returns is a wrapped one (R140). -/
theorem oscStep_phase {s : State} {freq amp phase : List F64} {o : OscOut} (h : s.oscStep freq amp phase = .ok o) :
    ∀ p ∈ o.phase, ∃ q, p = wrapPhase q := by
  obtain ⟨-, ys, -, rfl⟩ := oscStep_ok h
  intro p hp
  obtain ⟨x, -, i, -, rfl⟩ := mem_zipWith hp
  exact ⟨_, rfl⟩

theorem exec_ends {i : Instr} {s u : State} (h : exec i s = .next u) : CommandEnd s u := by
  cases i with
  | nop =>
    cases h
    exact .stored (stores_complete s)
  | buildWindow =>
    cases h
    exact .builtWindow
  | buildSine =>
    cases h
    exact .builtSine
  | loadFrame t f =>
    obtain ⟨-, rfl⟩ | ⟨-, b, hb, rfl⟩ := execLoadFrame_next h
    · exact .error nofun
    · exact .stored (stores_writeFfts fun hc => (load_length (bounds_of_legal hc.1).hop_le hb).le)
  | window =>
    obtain ⟨-, rfl⟩ | ⟨-, x, w, hx, -, rfl⟩ := execWindow_next h
    · exact .error nofun
    · refine .stored (stores_writeFfts fun hc => ?_)
      rw [applyWindow_length, readFfts_length hx]
      exact (bounds_of_legal hc.1).win_lt.le
  | fft =>
    obtain ⟨x, hx, rfl⟩ := execFft_next h
    exact .stored (stores_writeFfts fun hc => (fft_buffer_length hc.1 (readFfts_length hx)).le)
  | peaks t f =>
    obtain ⟨-, rfl⟩ | ⟨hf, x, -, rfl⟩ := execPeaks_next h
    · exact .error nofun
    · exact .stored (stores_peaks hf _ x _)
  | analyze t =>
    obtain ⟨-, rfl⟩ | ⟨-, rs, hrs, rfl⟩ := execAnalyze_next h
    · exact .error nofun
    · exact .stored (stores_analyze hrs)
  | normalize t =>
    obtain ⟨amps, -, ⟨-, rfl⟩ | ⟨-, -, rfl⟩ | ⟨-, -, rfl⟩⟩ := execNormalize_next h
    · exact .error nofun
    · exact .error nofun
    · exact .stored (stores_normalize s t amps _)
  | synthReset =>
    cases h
    exact .restarted
  | interp =>
    obtain ⟨-, rfl⟩ | ⟨-, o, -, rfl⟩ := execInterp_next h
    · exact .error nofun
    · exact .interpolated o
  | osc =>
    obtain ⟨-, rfl⟩ | ⟨-, -, rfl⟩ | ⟨-, o, ho, rfl⟩ := execOsc_next h
    · exact .error nofun
    · exact .error nofun
    · exact .sounded (oscStep_phase ho)
  | synth =>
    obtain ⟨-, rfl⟩ | ⟨-, -, rfl⟩ | ⟨-, hl, o, -, ⟨-, rfl⟩ | ⟨r, hr, rfl⟩⟩ := execSynth_next h
    · exact .error nofun
    · exact .error nofun
    · exact .error nofun
    · exact .synthesized o hl (oscStep_phase hr)

/-! ## How an input ends -/

/-- Everything an input can do: only answer (a read, a rejection, the release of reset), one accepted write, or a reset. -/
inductive InputEnd (s : State) : State → Prop where
  | answered (rs : List Reply) (k : Nat) (berr inReset : Bool) :
      InputEnd s { s with replies := rs, draws := k, status := { s.status with berr := berr }, inReset := inReset }
  | cmd (w : Word) : InputEnd s { s with cmd := w, pending := w, status := s.status.setBusy }.accept
  | clear (w : Word) : InputEnd s (s.clearErrors w).accept
  | nvoices (w : Word) : InputEnd s { s with nvoices := w, status := s.status.clearNorms }.accept
  | inLen (t : Tab) (w : Word) :
      InputEnd s { s with inLen := s.inLen.set t w, status := s.status.setNorm t false, s := 0 }.accept
  | sr (t : Tab) (w : Word) : InputEnd s { s with sr := s.sr.set t w, status := s.status.setNorm t false }.accept
  | voice (n : Nat) {f : VoiceField} {w : Word} (hf : f = .phase → legalPhase w = true) :
      InputEnd s (s.setVoiceField n f w).accept
  | element {a : Nat} {bs : List Byte} (norm : AB Bool)
      (ha : a + bs.length ≤ wintabAddr 0 ∨ 0x00300000 ≤ a) :
      InputEnd s { s with mem := s.mem.put a bs, status := { s.status with norm := norm } }.accept
  | reset : InputEnd s s.assertReset

theorem writeError_ends (s : State) (c : BusCause) : InputEnd s (s.writeError c) := .answered _ s.draws true s.inReset

/-- A checked write ends as the accepted write does, or rejected. -/
theorem InputEnd.checked {s u : State} {P : Prop} [Decidable P] {c : BusCause} (h : P → InputEnd s u) :
    InputEnd s (if P then u else s.writeError c) := by
  split
  · exact h ‹P›
  · exact writeError_ends s c

theorem writeReg_ends (s : State) (w : Word) (r : Reg) : InputEnd s (s.writeReg w r) := by
  cases r with
  | cmd => exact .cmd w
  | clear => exact .clear w
  | nvoices => exact .checked fun _ => .nvoices w
  | inLen t => exact .checked fun _ => .inLen t w
  | sr t => exact .checked fun _ => .sr t w
  | _ => exact writeError_ends s _

/-- A write to a target that lies where its address was decoded. -/
theorem writeTarget_ends {s : State} {a : Nat} (ha : a % 8 = 0) {g : Target} (hg : g.At s.params a) (w : Word) :
    InputEnd s (s.writeTarget w g) := by
  cases g with
  | reg r => exact writeReg_ends s w r
  | voice n f =>
    cases f with
    | freq | amp => exact .voice n nofun
    | phase => exact .checked fun h => .voice n fun _ => h
    | inc => exact writeError_ends s _
  | fft b =>
    obtain ⟨rfl, h1, h2, -⟩ := hg
    exact .element s.status.norm (.inl (by simp [wintabAddr]; omega))
  | wintab b | sinetab b => exact writeError_ends s _
  | atab t b =>
    obtain ⟨rfl, h, -⟩ := hg
    exact .element (s.status.norm.set t false) (.inr (by omega))
  | inbuf t b =>
    obtain ⟨rfl, h, -⟩ := hg
    exact .element s.status.norm (.inr (by omega))

theorem busRead_ends (s : State) (addr : BitVec 32) : InputEnd s (s.busRead addr) := by
  obtain ⟨d, k, h⟩ | ⟨c, h⟩ | h := busRead_eq s addr <;> rw [h]
  · exact .answered _ _ s.status.berr s.inReset
  · exact .answered _ s.draws true s.inReset
  · exact .answered _ s.draws s.status.berr s.inReset

theorem busWrite_ends (s : State) (addr : BitVec 32) (w : Word) : InputEnd s (s.busWrite addr w) := by
  obtain h | ⟨c, h⟩ | ⟨g, -, ha, -, hg, h⟩ := busWrite_cases s addr w <;> rw [h]
  · exact .answered _ s.draws s.status.berr s.inReset
  · exact writeError_ends s c
  · exact writeTarget_ends ha (decodeAddr_at hg) w

theorem takeEvent_ends {s u : State} {e : HostEvent} (h : s.takeEvent e = .next u) : InputEnd s u := by
  obtain ⟨addr, rfl⟩ | ⟨addr, w, rfl⟩ | rfl | rfl := takeEvent_next h
  · exact busRead_ends s addr
  · exact busWrite_ends s addr w
  · exact .reset
  · exact .answered s.replies s.draws s.status.berr false

/-- Everything a step can do: a command ends, nothing happens, or an input is taken. -/
theorem step_ends {s u : State} (h : step s = .next u) :
    CommandEnd s u ∨ u = s ∨ ∃ rest, InputEnd { s with inputs := rest } u := by
  obtain ⟨-, ⟨-, i, -, hi⟩ | ⟨-, e, -, rfl⟩ | ⟨-, -, rfl⟩ | ⟨-, i, rest, -, he⟩⟩ := step_next h
  · exact .inl (exec_ends hi)
  · exact .inl (.error (by cases e <;> nofun))
  · exact .inr (.inl rfl)
  · exact .inr (.inr ⟨rest, takeEvent_ends he⟩)

/-! ## The sample counter (10_state.md R35) -/

theorem Stores.sLimit {s u : State} (h : Stores s u) : u.sLimit = s.sLimit := by
  simp only [State.sLimit, State.frameLimit, State.frames, h.params, h.inLen]

theorem sLimit_pos {s : State} (hc : s.configLegal) (hl : s.frameLimit ≠ 0) : 0 < s.sLimit :=
  Nat.mul_pos (Nat.pos_of_ne_zero hl) (bounds_of_legal hc.1).hop_pos

/-- The counter wraps before it reaches S_LIMIT. -/
theorem nextSample_inRange {s : State} (hs : s.sampleInRange) (hpos : 0 < s.sLimit) :
    s.nextSample = 0 ∨ s.nextSample.toNat < s.sLimit := by
  have hlt : s.s.toNat < s.sLimit := by
    obtain h | h := hs
    · rw [h]
      exact hpos
    · exact h
  unfold State.nextSample
  split
  · exact .inl rfl
  · right
    rw [BitVec.toNat_ofNat]
    have := Nat.mod_le (s.s.toNat + 1) (2 ^ 64)
    omega

/-! ## The phases (10_state.md R53) -/

/-- A magnitude below 1.0 with sign 0 is a legal phase. -/
theorem legalPhase_toWord {m : Nat} (hm : m < 0x3FF0000000000000) (b : Word) :
    legalPhase ((F64.num false m).toWord b) = true := by
  have hmsb : ((F64.num false m).toWord b).msb = false := by
    simp only [F64.toWord, Bool.false_eq_true, if_false, Nat.zero_add, BitVec.msb_eq_decide, BitVec.toNat_ofNat]
    exact decide_eq_false (by omega)
  have hlt : F64.lt (.num false m) F64.one = true := by
    simp only [F64.lt, F64.one, F64.key, Bool.false_eq_true, if_false, decide_eq_true_eq]
    omega
  rw [legalPhase, ofWord_toWord (valid_num (by unfold infMag; omega)), hmsb, hlt]
  rfl

/-- R140: a wrapped phase is a legal one. -/
theorem legalPhase_wrapPhase (p : F64) (b : Word) : legalPhase ((wrapPhase p).toWord b) = true := by
  obtain h | ⟨m, hm, h⟩ := wrapPhase_cases p <;> rw [h]
  · exact legalPhase_toWord (by decide) b
  · exact legalPhase_toWord hm b

theorem legalPhase_zero : legalPhase 0 = true := by decide

/-- Legal phases in a list of voices. -/
def PhasesLegal (vs : List Voice) : Prop := ∀ v ∈ vs, legalPhase v.phase = true

theorem phasesLegal_restart (vs : List Voice) : PhasesLegal (vs.map Voice.restart) := by
  intro v hv
  obtain ⟨x, -, rfl⟩ := List.mem_map.1 hv
  exact legalPhase_zero

theorem phasesLegal_setFreqAmp {vs : List Voice} (h : PhasesLegal vs) (xs ys : List Word) :
    PhasesLegal (updateVoices (List.zipWith Voice.setFreqAmp xs ys) vs) := by
  refine mem_updateVoices h fun f hf v hv => ?_
  obtain ⟨x, -, y, -, rfl⟩ := mem_zipWith hf
  exact hv

theorem phasesLegal_setIncPhase {vs : List Voice} (h : PhasesLegal vs) (xs : List Word) {k : Nat} {ps : List F64}
    (hp : ∀ p ∈ ps, ∃ q, p = wrapPhase q) :
    PhasesLegal (updateVoices (List.zipWith Voice.setIncPhase xs (sealAll k ps)) vs) := by
  refine mem_updateVoices h fun f hf v _ => ?_
  obtain ⟨x, -, y, hy, rfl⟩ := mem_zipWith hf
  obtain ⟨p, hps, b, rfl⟩ := mem_sealAll hy
  obtain ⟨q, rfl⟩ := hp p hps
  exact legalPhase_wrapPhase q b

theorem phasesLegal_modify {vs : List Voice} (h : PhasesLegal vs) (n : Nat) {f : VoiceField} {w : Word}
    (hf : f = .phase → legalPhase w = true) : PhasesLegal (vs.modify n (fun v => v.set w f)) := by
  intro x hx
  obtain ⟨i, hi, rfl⟩ := List.mem_iff_getElem.1 hx
  rw [List.getElem_modify]
  have hv := h _ (List.getElem_mem (by simpa using hi))
  split
  · cases f with
    | phase => exact hf rfl
    | _ => exact hv
  · exact hv

theorem voicesSound_resetOf (p : Params) : (State.resetOf p).voicesSound := by
  refine ⟨List.length_replicate, fun v hv => ?_⟩
  rw [List.eq_of_mem_replicate hv]
  exact legalPhase_zero

/-! ## The error record (60_exceptions.md R153) -/

theorem errorRecordSound_congr {s u : State} (h : u.errorRecord = s.errorRecord) (hs : s.errorRecordSound) :
    u.errorRecordSound := by
  obtain ⟨herr, hmulti, hcode⟩ := ErrorRecord.mk.inj h
  rw [State.errorRecordSound, herr, hmulti, hcode]
  exact hs

theorem cmdError_sound {s : State} (hs : s.errorRecordSound) {c : ErrCode} (hc : c ≠ .none) :
    (s.cmdError c).errorRecordSound := by
  unfold State.errorRecordSound at *
  rw [cmdError_status, status_recordError_err, if_pos rfl]
  unfold Status.recordError
  by_cases he : s.status.err = true
  · rw [if_pos he] at hs ⊢
    exact hs
  · rw [if_neg he]
    exact hc

/-- R28: CLEAR masks the error record with its bit 0 and BERR with its bit 1. -/
theorem clear_eq (st : Status) (w : Word) : st.clear w = { st with
    err := st.err && !w.getLsbD 0
    errMulti := st.errMulti && !w.getLsbD 0
    errcode := if w.getLsbD 0 then .none else st.errcode
    berr := st.berr && !w.getLsbD 1 } := by
  unfold Status.clear
  cases w.getLsbD 0 <;> cases w.getLsbD 1 <;> simp [Status.clearErr, Status.clearBerr]

theorem clearErrors_sound {s : State} (hs : s.errorRecordSound) (w : Word) : (s.clearErrors w).errorRecordSound := by
  unfold State.errorRecordSound at *
  rw [clearErrors_status, clear_eq]
  cases w.getLsbD 0 with
  | true => simp
  | false => simpa using hs

/-! ## What a command leaves of the host's side and of the memories -/

theorem exec_hostSide {i : Instr} {s u : State} (h : exec i s = .next u) : u.hostSide = s.hostSide := by
  cases exec_ends h with
  | stored he => exact he.hostSide
  | _ => rfl

theorem exec_voices_length {i : Instr} {s u : State} (h : exec i s = .next u) : u.voices.length = s.voices.length := by
  cases exec_ends h with
  | stored he => rw [he.voices]
  | restarted => exact List.length_map _
  | interpolated | sounded => exact updateVoices_length _ _
  | synthesized => exact (updateVoices_length _ _).trans (updateVoices_length _ _)
  | _ => rfl

theorem get_writeWintab {s : State} {a : Nat} (ha : Outside s.params .wintab a) : s.writeWintab.mem.get a = s.mem.get a :=
  get_putF64s_outside s _ _ a (by simpa [windowTable, wintabAddr, Outside, spaceBase, spaceEnd] using ha)

theorem get_writeSinetab {s : State} {a : Nat} (ha : Outside s.params .sinetab a) : s.writeSinetab.mem.get a = s.mem.get a :=
  get_putF64s_outside s _ _ a (by simpa [sineTable, sinetabAddr, Outside, spaceBase, spaceEnd] using ha)

/-- A command leaves every byte outside FFTBUF, WINTAB, SINETAB and the analysis tables. -/
theorem exec_get {i : Instr} {s u : State} (hc : s.configLegal) (h : exec i s = .next u) {a : Nat}
    (hb : OutsideBuffers s.params a) (hw : Outside s.params .wintab a) (hs : Outside s.params .sinetab a) :
    u.mem.get a = s.mem.get a := by
  cases exec_ends h with
  | stored he => exact he.frame hc a hb
  | builtWindow => exact get_writeWintab hw
  | builtSine => exact get_writeSinetab hs
  | _ => rfl

/-! ## The built tables (10_state.md R47, R48) -/

/-- The bytes of WINTAB and SINETAB lie between FFTBUF and the analysis tables (20_memory.md R62). -/
def InTables (a : Nat) : Prop := wintabAddr 0 ≤ a ∧ a < 0x00300000

theorem Bounds.wintab_le {p : Params} (h : Bounds p) : wintabAddr p.win ≤ sinetabAddr 0 := by
  have := h.nfft_le
  have := h.win_lt
  simp only [wintabAddr, sinetabAddr]
  omega

theorem Bounds.sinetab_le {p : Params} (h : Bounds p) : sinetabAddr p.sine ≤ 0x00300000 := by
  have := h.sine_le
  simp only [sinetabAddr]
  omega

theorem InTables.outsideBuffers {p : Params} (hb : Bounds p) {a : Nat} (h : InTables a) : OutsideBuffers p a := by
  have := hb.nfft_le
  obtain ⟨h1, h2⟩ := h
  refine ⟨.inr ?_, fun t => .inl ?_⟩
  · simp only [spaceEnd, fftAddr, wintabAddr] at *
    omega
  · cases t <;> simp only [atabSpace, spaceBase] <;> omega

/-- What leaves the tables and their ready bits as they were. -/
structure TablesKept (s u : State) : Prop where
  params : u.params = s.params
  ready : u.readyBits = s.readyBits
  cells : ∀ a, InTables a → u.mem.get a = s.mem.get a

/-- What a step from `s` to `u` owes to the tables: they are built where their bits are 1, and outside reset no bit is lost. -/
def BuiltAfter (s u : State) : Prop :=
  (u.windowBuilt ∧ u.sineBuilt)
    ∧ (u.inReset = false →
      (s.status.winReady = true → u.status.winReady = true) ∧ (s.status.sineReady = true → u.status.sineReady = true))

theorem windowBuilt_congr {s u : State} (hp : u.params = s.params) (hr : u.status.winReady = s.status.winReady)
    (hm : ∀ a, wintabAddr 0 ≤ a → a < wintabAddr s.params.win → u.mem.get a = s.mem.get a) (h : s.windowBuilt) :
    u.windowBuilt := by
  intro hu
  rw [readWintab_congr hp (by rwa [hp]), hp]
  exact h (hr ▸ hu)

theorem sineBuilt_congr {s u : State} (hp : u.params = s.params) (hr : u.status.sineReady = s.status.sineReady)
    (hm : ∀ a, sinetabAddr 0 ≤ a → a < sinetabAddr s.params.sine → u.mem.get a = s.mem.get a) (h : s.sineBuilt) :
    u.sineBuilt := by
  intro hu i hi
  rw [hp] at hi ⊢
  rw [← h (hr ▸ hu) i hi]
  exact readF64_congr fun x h1 h2 => hm x (by simp only [sinetabAddr] at *; omega) (by simp only [sinetabAddr] at *; omega)

theorem TablesKept.builtAfter {s u : State} (h : TablesKept s u) (hb : Bounds s.params)
    (hs : s.windowBuilt ∧ s.sineBuilt) : BuiltAfter s u := by
  obtain ⟨hw, hsi⟩ := ReadyBits.mk.inj h.ready
  have h1 := hb.wintab_le
  have h2 := hb.sinetab_le
  refine ⟨⟨windowBuilt_congr h.params hw (fun a ha hl => h.cells a ⟨ha, ?_⟩) hs.1,
    sineBuilt_congr h.params hsi (fun a ha hl => h.cells a ⟨?_, ?_⟩) hs.2⟩, fun _ => ⟨hw.trans, hsi.trans⟩⟩ <;>
  · simp only [sinetabAddr, wintabAddr] at *
    omega

theorem builtAfter_buildWindow {s : State} (hb : Bounds s.params) (hs : s.windowBuilt ∧ s.sineBuilt) :
    BuiltAfter s { s.writeWintab with status := s.status.setWinReady }.complete := by
  refine ⟨⟨fun _ => ?_, sineBuilt_congr (s := s) rfl rfl (fun a h1 _ => ?_) hs.2⟩, fun _ => ⟨fun _ => rfl, id⟩⟩
  · exact readWintab_putF64s s _ (by simp [windowTable]) (windowTable_valid _)
  · exact get_writeWintab (.inr (hb.wintab_le.trans h1))

/-- SINETAB holds the table that BUILD_SINE writes. -/
theorem readSine_writeSinetab {s : State} {i : Nat} (hi : i < s.params.sine) :
    s.writeSinetab.readSine i = .ok (sineEntry s.params.trig s.params.sine i) := by
  have hlen : i < (sineTable s.params).length := by simpa [sineTable] using hi
  have hread := readF64_putF64s s .sinetab (sinetabAddr 0) (sineTable s.params) i hlen
    (sineTable_valid _ _ (List.getElem_mem hlen))
  have haddr : sinetabAddr i = sinetabAddr 0 + 8 * i := rfl
  rw [State.readSine, haddr]
  exact hread.trans (by simp [sineTable])

theorem builtAfter_buildSine {s : State} (hb : Bounds s.params) (hs : s.windowBuilt ∧ s.sineBuilt) :
    BuiltAfter s { s.writeSinetab with status := s.status.setSineReady }.complete := by
  refine ⟨⟨windowBuilt_congr (s := s) rfl rfl (fun a _ h2 => ?_) hs.1, fun _ i hi => ?_⟩, fun _ => ⟨id, fun _ => rfl⟩⟩
  · exact get_writeSinetab (.inl (h2.trans_le hb.wintab_le))
  · exact readSine_writeSinetab hi

theorem readyBits_cmdError (s : State) (c : ErrCode) : (s.cmdError c).readyBits = s.readyBits := by
  simp [State.readyBits]

theorem readyBits_clearErrors (s : State) (w : Word) : (s.clearErrors w).readyBits = s.readyBits := by
  simp [State.readyBits]

theorem Stores.tablesKept {s u : State} (h : Stores s u) (hc : s.configLegal) : TablesKept s u :=
  ⟨h.params, h.ready, fun a ha => h.frame hc a (ha.outsideBuffers (bounds_of_legal hc.1))⟩

/-- No input but a reset touches the tables: the host cannot write them (20_memory.md R65). -/
theorem inputEnd_tablesKept {s u : State} (h : InputEnd s u) : u = s.assertReset ∨ TablesKept s u := by
  cases h with
  | reset => exact .inl rfl
  | element norm ha => exact .inr ⟨rfl, rfl, fun a ⟨h1, h2⟩ => get_put_outside (by omega)⟩
  | clear w => exact .inr ⟨rfl, readyBits_clearErrors s w, fun _ _ => rfl⟩
  | _ => exact .inr ⟨rfl, rfl, fun _ _ => rfl⟩

/-! ## The register window (10_state.md R20, R40) -/

/-- A register lies at an aligned offset up to that of INT_LW. -/
theorem regAt_bounds {a : Nat} {r : Reg} (h : regAt a = some r) : a % 8 = 0 ∧ a ≤ 0x0E0 := by
  unfold regAt at h
  split at h <;> cases h <;> decide

theorem decodeAddr_reg {p : Params} {a : Nat} {r : Reg} (h : regAt a = some r) : decodeAddr p a = some (.reg r) := by
  have := (regAt_bounds h).2
  rw [decodeAddr, if_pos (by omega), h]
  rfl

/-- R40: the offsets above INT_LW in the register window are reserved. -/
theorem decodeAddr_reserved {p : Params} {a : Nat} (h1 : 0x0E8 ≤ a) (h2 : a ≤ 0xFF8) : decodeAddr p a = none := by
  rw [decodeAddr, if_pos (by omega), Option.map_eq_none_iff, Option.eq_none_iff_forall_not_mem]
  intro r hr
  have := (regAt_bounds hr).2
  omega

/-! ## The checks of a transaction, in the order of R68 -/

section
variable {s : State} {addr : BitVec 32} (hr : s.inReset = false)
include hr

theorem bus_misaligned (ha : addr.toNat % 8 ≠ 0) (w : Word) :
    s.busRead addr = s.readError .misaligned ∧ s.busWrite addr w = s.writeError .misaligned := by
  simp [State.busRead, State.busWrite, hr, ha]

theorem busWrite_busy (ha : addr.toNat % 8 = 0) (hb : s.status.busy = true) (w : Word) :
    s.busWrite addr w = s.writeError .busy := by
  simp [State.busWrite, hr, ha, hb]

theorem busRead_busy (ha : addr.toNat % 8 = 0) (hb : s.status.busy = true) (hs : addr.toNat ≠ statusAddr) :
    s.busRead addr = s.readError .busy := by
  simp [State.busRead, hr, ha, hb, hs]

/-- A read of STATUS is accepted whatever BUSY is (R63). -/
theorem busRead_status : s.busRead 0x038 = s.reply (.readOk s.status.toWord) := by
  have hd := decodeAddr_reg (p := s.params) (show regAt 0x038 = some .status from rfl)
  simp [State.busRead, hr, statusAddr, hd, State.readTarget, State.readReg]

section
variable (hb : s.status.busy = false)
include hb

theorem bus_unmapped (ha : addr.toNat % 8 = 0) (hd : decodeAddr s.params addr.toNat = none) (w : Word) :
    s.busRead addr = s.readError .unmapped ∧ s.busWrite addr w = s.writeError .unmapped := by
  simp [State.busRead, State.busWrite, hr, hb, ha, hd]

/-- A write to a mapped element of an idle block. -/
theorem busWrite_target (ha : addr.toNat % 8 = 0) {g : Target} (hd : decodeAddr s.params addr.toNat = some g) (w : Word) :
    s.busWrite addr w = s.writeTarget w g := by
  simp [State.busWrite, hr, hb, ha, hd]

theorem busRead_reg {r : Reg} (h : regAt addr.toNat = some r) : s.busRead addr = s.reply (.readOk (s.readReg r)) := by
  simp [State.busRead, hr, hb, (regAt_bounds h).1, decodeAddr_reg h, State.readTarget]

theorem busWrite_reg {r : Reg} (h : regAt addr.toNat = some r) (w : Word) : s.busWrite addr w = s.writeReg w r :=
  busWrite_target hr hb (regAt_bounds h).1 (decodeAddr_reg h) w

end
end

/-! ## The derived registers (10_state.md R24, R32-R34) -/

/-- R32: `ceilDiv n d` is the least number of `d`s that cover `n`. -/
theorem ceilDiv_spec {n d : Nat} (hd : 1 ≤ d) : ceilDiv n d * d < n + d ∧ n ≤ ceilDiv n d * d := by
  have hmod := Nat.div_add_mod (n + d - 1) d
  have hlt := Nat.mod_lt (n + d - 1) hd
  rw [ceilDiv, Nat.mul_comm]
  omega

theorem toNat_ofNat_of_lt {k : Nat} (h : k < 2 ^ 64) : (BitVec.ofNat 64 k).toNat = k := by
  rw [BitVec.toNat_ofNat, Nat.mod_eq_of_lt h]

/-- R24: two counts below 2^32 keep their halves of the word. -/
theorem pairWord_toNat {hi lo : Nat} (hh : hi < 2 ^ 32) (hl : lo < 2 ^ 32) :
    (pairWord hi lo).toNat = hi * 2 ^ 32 + lo :=
  toNat_ofNat_of_lt (by omega)

theorem Bounds.fmax_le {p : Params} (h : Bounds p) : p.fmax ≤ 2 ^ 20 :=
  (Nat.le_mul_of_pos_right _ h.nmax_pos).trans h.table_le

theorem Bounds.counts_lt {p : Params} (h : Bounds p) : p.nfft < 2 ^ 32 ∧ p.win < 2 ^ 32 ∧ p.hop < 2 ^ 32 ∧ p.sine < 2 ^ 32
    ∧ p.nmax < 2 ^ 32 ∧ p.inmax < 2 ^ 32 ∧ p.fmax < 2 ^ 32 := by
  have hnfft := h.nfft_le
  have hwin := h.win_lt
  have hhop := h.hop_le
  have hsine := h.sine_le
  have hnmax := h.nmax_le
  have hinmax := h.inmax_le
  have hfmax := h.fmax_le
  omega

section
variable {s : State} (hc : s.configLegal)
include hc

theorem frames_toNat (t : Tab) : (BitVec.ofNat 64 (s.frames t)).toNat = s.frames t := by
  have hle := frames_le (t := t) hc
  have hlt := (bounds_of_legal hc.1).fmax_le
  exact toNat_ofNat_of_lt (by omega)

theorem frameLimit_le : s.frameLimit ≤ 2 ^ 20 :=
  (Nat.min_le_left _ _).trans ((frames_le hc).trans (bounds_of_legal hc.1).fmax_le)

theorem frameLimit_toNat : (BitVec.ofNat 64 s.frameLimit).toNat = s.frameLimit := by
  have hle := frameLimit_le hc
  exact toNat_ofNat_of_lt (by omega)

theorem sLimit_toNat : (BitVec.ofNat 64 s.sLimit).toNat = s.sLimit := by
  have hb := bounds_of_legal hc.1
  have hle : s.sLimit ≤ 2 ^ 20 * 65536 := Nat.mul_le_mul (frameLimit_le hc) (hb.hop_le.trans hb.nfft_le)
  exact toNat_ofNat_of_lt (by omega)

end

/-! ## STATUS (10_state.md R27) -/

theorem bitValue_eq (b : Bool) (i : Nat) : bitValue b i = b.toNat * 2 ^ i := by
  cases b <;> simp [bitValue]

theorem code_lt (c : ErrCode) : c.code < 16 := by
  cases c <;> decide

theorem flags_le (st : Status) : st.busy.toNat ≤ 1 ∧ st.winReady.toNat ≤ 1 ∧ st.sineReady.toNat ≤ 1 ∧ st.norm.a.toNat ≤ 1
    ∧ st.norm.b.toNat ≤ 1 ∧ st.err.toNat ≤ 1 ∧ st.errMulti.toNat ≤ 1 ∧ st.berr.toNat ≤ 1 :=
  ⟨Bool.toNat_le _, Bool.toNat_le _, Bool.toNat_le _, Bool.toNat_le _, Bool.toNat_le _, Bool.toNat_le _, Bool.toNat_le _,
    Bool.toNat_le _⟩

/-- R27: the bits of STATUS as a number. -/
theorem toWord_toNat (st : Status) : st.toWord.toNat =
    st.busy.toNat + st.winReady.toNat * 2 + st.sineReady.toNat * 4 + st.norm.a.toNat * 8 + st.norm.b.toNat * 16
      + st.err.toNat * 32 + st.errMulti.toNat * 64 + st.berr.toNat * 128 + st.errcode.code * 256 := by
  have hcode := code_lt st.errcode
  have hflags := flags_le st
  simp only [Status.toWord, bitValue_eq]
  rw [toNat_ofNat_of_lt] <;> omega

/-- A bit of a word by division. -/
theorem getLsbD_eq_of_div {w : Word} {i : Nat} {b : Bool} (h : w.toNat / 2 ^ i % 2 = b.toNat) : w.getLsbD i = b := by
  rw [← BitVec.testBit_toNat, Nat.testBit_eq_decide_div_mod_eq, h]
  cases b <;> rfl

/-! ## The read-only registers (10_state.md R21) -/

/-- Whether the host cannot write a register. -/
def Reg.readOnly : Reg → Bool
  | .cmd => false
  | .clear => false
  | .nvoices => false
  | .inLen _ => false
  | .sr _ => false
  | _ => true

theorem writeReg_readOnly {r : Reg} (h : r.readOnly = true) (s : State) (w : Word) :
    s.writeReg w r = s.writeError .writeRo := by
  cases r with
  | cmd | clear | nvoices | inLen | sr => cases h
  | _ => rfl

/-- The offsets of the read-only registers. -/
def readOnlyOffsets : List Nat :=
  [0x000, 0x008, 0x010, 0x018, 0x020, 0x028, 0x038, 0x070, 0x078, 0x080, 0x088, 0x090, 0x098, 0x0A0, 0x0A8, 0x0B0, 0x0B8,
    0x0C0, 0x0C8, 0x0D0, 0x0D8, 0x0E0]

theorem regAt_readOnlyOffsets : ∀ a ∈ readOnlyOffsets, ∃ r, regAt a = some r ∧ r.readOnly = true := by
  have hall : ∀ a ∈ readOnlyOffsets, (regAt a).any Reg.readOnly = true := by decide
  exact fun a ha => (Option.any_eq_true _ _).1 (hall a ha)

/-! ## Issuing a command (40_control.md R85) -/

theorem opField_and_decodeTabFrame {op f : Nat} (t : Tab) (h1 : op < 256) (h2 : f < 2 ^ 23) :
    opField (packWord op t f) = op ∧ ∀ mk, decodeTabFrame (packWord op t f) mk = .ok (mk t f) := by
  obtain ⟨hop, hframe, hrsv, htab, -⟩ := fields_packWord t h1 h2
  exact ⟨hop, fun mk => by simp [decodeTabFrame, hrsv, hframe, htab]⟩

/-- The decoder reads back the operands that the encoder packs. -/
theorem decode_encode {i : Instr} (h : i.wellFormed = true) : decode (encode i) = .ok i := by
  cases i with
  | loadFrame t f =>
    obtain ⟨hop, hfields⟩ := opField_and_decodeTabFrame t (op := 0x10) (by decide) (of_decide_eq_true h)
    simp only [encode, decode, hop, hfields]
  | peaks t f =>
    obtain ⟨hop, hfields⟩ := opField_and_decodeTabFrame t (op := 0x13) (by decide) (of_decide_eq_true h)
    simp only [encode, decode, hop, hfields]
  | analyze t | normalize t => cases t <;> rfl
  | _ => rfl

theorem step_runs {s : State} {i : Instr} (hl : s.params.legal = true) (ht : s.sequencerTurn = true)
    (hd : decode s.pending = .ok i) : step s = exec i s := by
  simp [step, hl, ht, State.runPending, hd]

theorem step_takes {s : State} {i : Input} {rest : List Input} (hl : s.params.legal = true) (ht : s.sequencerTurn = false)
    (hin : s.inputs = i :: rest) : step s = State.takeEvent { s with inputs := rest } i.event := by
  simp [step, hl, ht, State.takeInput, hin]

/-! ## When a command faults (10_state.md R51) -/

section
variable {s : State} {t : Tab} {f : Nat} {e : Fault}

theorem execLoadFrame_fault : execLoadFrame t f s = .fault e ↔ f < s.frames t ∧ s.load t f = .error e := by
  unfold execLoadFrame
  split
  · simp
    omega
  · cases s.load t f <;> simp
    omega

theorem execFft_fault : execFft s = .fault e ↔ s.readFfts s.params.nfft = .error e := by
  unfold execFft
  cases s.readFfts s.params.nfft <;> simp

theorem execWindow_fault : execWindow s = .fault e ↔ s.status.winReady = true ∧
    (s.readFfts s.params.win = .error e ∨ (∃ x, s.readFfts s.params.win = .ok x) ∧ s.readWintab = .error e) := by
  unfold execWindow
  cases s.status.winReady with
  | false => simp
  | true =>
    cases s.readFfts s.params.win with
    | error e1 => simp
    | ok x => cases s.readWintab <;> simp

theorem execPeaks_fault : execPeaks t f s = .fault e ↔ f < s.frames t ∧ s.readFfts (s.params.nfft / 2 + 1) = .error e := by
  unfold execPeaks
  split
  · simp
    omega
  · cases s.readFfts (s.params.nfft / 2 + 1) <;> simp
    omega

theorem execAnalyze_fault : execAnalyze t s = .fault e ↔
    s.status.winReady = true ∧ allOk ((List.range (s.frames t)).map (s.analyseFrame t)) = .error e := by
  unfold execAnalyze
  cases s.status.winReady <;> cases allOk ((List.range (s.frames t)).map (s.analyseFrame t)) <;> simp

theorem execNormalize_fault : execNormalize t s = .fault e ↔ s.scannedAmps t = .error e := by
  unfold execNormalize State.scannedAmps
  dsimp only
  cases allOk ((scanned (s.frames t) s.voiceCount).map fun e => s.readAmp t e.1 e.2) with
  | error e => simp
  | ok amps =>
    dsimp only
    split
    · simp
    · split <;> simp

theorem execInterp_fault : execInterp s = .fault e ↔ s.frameLimit ≠ 0 ∧ s.interpolate = .error e := by
  unfold execInterp
  split
  · simp [*]
  · cases s.interpolate <;> simp [*]

theorem execOsc_fault : execOsc s = .fault e ↔ s.status.sineReady = true ∧ s.voiceStep = .fault e := by
  unfold execOsc State.voiceStep
  generalize s.oscStep _ _ _ = r
  cases s.status.sineReady <;> cases r <;> simp

theorem execSynth_fault : execSynth s = .fault e ↔ s.status.sineReady = true ∧ s.frameLimit ≠ 0 ∧
    (s.interpolate = .error e ∨ ∃ o, s.interpolate = .ok o ∧ s.oscStep o.freq o.amp s.activePhases = .fault e) := by
  unfold execSynth
  by_cases hl : s.frameLimit = 0
  · cases s.status.sineReady <;> simp [hl]
  · cases s.interpolate with
    | error e => cases s.status.sineReady <;> simp [hl]
    | ok o =>
      simp only [Except.ok.injEq, exists_eq_left', reduceCtorEq, false_or]
      cases s.oscStep o.freq o.amp s.activePhases <;> cases s.status.sineReady <;> simp [hl]

/-! ## The reads that WIN_READY and SINE_READY cover (10_state.md R47, R48) -/

/-- The position of a legal phase lies in the sine table (46_oscillator.md R138). -/
theorem floor_phase_lt {w : Word} (hw : legalPhase w = true) {p : Params} (hb : Bounds p) :
    ((F64.ofWord w).mul (F64.ofNat p.sine)).floor.toNat < p.sine := by
  obtain ⟨m, hm, hlt⟩ := legal_phase_num hw
  obtain ⟨k, -, hk, hsine⟩ := hb.sine_pow
  obtain ⟨x, hx, hu, -⟩ := phase_mul hlt hk
  have hone : magUnits m < 2 ^ 1074 := magUnits_one ▸ magUnits_lt hlt
  rw [hm, hsine, hx, F64.floor, units_num_false, hu, ← Int.natCast_ediv, Int.toNat_natCast]
  exact Nat.div_lt_of_lt_mul (Nat.mul_lt_mul_of_pos_right hone (Nat.two_pow_pos k))

theorem sineLookup_ne_error (hb : Bounds s.params) (hs : s.sineBuilt) (hr : s.status.sineReady = true) {w : Word}
    (hw : legalPhase w = true) : s.sineLookup (F64.ofWord w) ≠ .error e := by
  have h0 := hs hr _ (floor_phase_lt hw hb)
  have h1 := hs hr _ (Nat.mod_lt (((F64.ofWord w).mul (F64.ofNat s.params.sine)).floor.toNat + 1) hb.sine_pos)
  simp [State.sineLookup, h0, h1]

/-- An oscillator step at the voices' phases reads a built table only, so it does not fault. -/
theorem oscStep_ne_fault (hb : Bounds s.params) (hv : s.voicesSound) (hs : s.sineBuilt) (hr : s.status.sineReady = true)
    (freq amp : List F64) : s.oscStep freq amp s.activePhases ≠ .fault e := by
  have hlook : ∀ p ∈ s.activePhases, ∀ e, s.sineLookup p ≠ .error e := by
    intro p hp e
    obtain ⟨v, hmem, rfl⟩ := List.mem_map.1 hp
    exact sineLookup_ne_error hb hs hr (hv.2 v (List.mem_of_mem_take hmem))
  have hok : ∀ e, allOk (s.activePhases.map s.sineLookup) ≠ .error e := by
    intro e he
    obtain ⟨-, p, hp, hpe⟩ := (allOk_error (e0 := e) fun p hp e' h => absurd h (hlook p hp e')).1 he
    exact hlook p hp e hpe
  unfold State.oscStep
  dsimp only
  split
  · nofun
  · cases h : allOk (s.activePhases.map s.sineLookup) with
    | error e => exact absurd h (hok e)
    | ok ys => nofun

theorem analyseFrame_error (hw : s.readWintab = .ok (windowTable s.params)) :
    s.analyseFrame t f = .error e ↔ s.load t f = .error e := by
  unfold State.analyseFrame
  rw [hw]
  cases s.load t f <;> simp

/-- The frames are analysed in order, and each can only fail in the loading of its samples. -/
theorem analyseFrames_error (hw : s.readWintab = .ok (windowTable s.params)) :
    allOk ((List.range (s.frames t)).map (s.analyseFrame t)) = .error e ↔
      e = .unwritten (inbufSpace t) ∧ ∃ f, f < s.frames t ∧ s.frameGap t f := by
  rw [allOk_error (e0 := .unwritten (inbufSpace t)) fun f _ e h => (load_error.1 ((analyseFrame_error hw).1 h)).1]
  simp only [List.mem_range, analyseFrame_error hw, load_error, true_and]

theorem scannedAmps_error : s.scannedAmps t = .error e ↔
    e = .unwritten (atabSpace t)
      ∧ ∃ f n, f < s.frames t ∧ n < s.nvoices.toNat ∧ s.gap (atabAddr s.params t f n + 8) 8 := by
  unfold State.scannedAmps State.readAmp
  rw [allOk_error (e0 := .unwritten (atabSpace t)) fun p _ e h => (readF64_error.1 h).1]
  simp only [Prod.exists, mem_scanned, readF64_error, true_and, and_assoc, State.voiceCount]

end

/-- A command faults exactly where it gets to read an unwritten element. -/
theorem exec_fault_iff {s : State} (hc : s.configLegal) (hv : s.voicesSound) (hw : s.windowBuilt) (hs : s.sineBuilt)
    (i : Instr) (sp : Space) : exec i s = .fault (.unwritten sp) ↔ s.readsUnwritten sp i := by
  have hb := bounds_of_legal hc.1
  cases i with
  | nop | buildWindow | buildSine | synthReset => exact iff_of_false nofun id
  | loadFrame t f =>
    refine execLoadFrame_fault.trans ?_
    rw [load_error, Fault.unwritten.injEq]
    exact and_left_comm
  | window =>
    refine execWindow_fault.trans ⟨?_, ?_⟩
    · rintro ⟨hr, h | ⟨-, h⟩⟩
      · obtain ⟨hsp, hgap⟩ := readFfts_error.1 h
        exact ⟨Fault.unwritten.inj hsp, hr, hgap⟩
      · rw [hw hr] at h
        cases h
    · rintro ⟨rfl, hr, hgap⟩
      exact ⟨hr, .inl (readFfts_error.2 ⟨rfl, hgap⟩)⟩
  | fft =>
    refine execFft_fault.trans ?_
    rw [readFfts_error, Fault.unwritten.injEq]
    rfl
  | peaks t f =>
    refine execPeaks_fault.trans ?_
    rw [readFfts_error, Fault.unwritten.injEq]
    exact and_left_comm
  | analyze t =>
    refine execAnalyze_fault.trans ⟨?_, ?_⟩
    · rintro ⟨hr, h⟩
      obtain ⟨hsp, hgap⟩ := (analyseFrames_error (hw hr)).1 h
      exact ⟨Fault.unwritten.inj hsp, hr, hgap⟩
    · rintro ⟨rfl, hr, hgap⟩
      exact ⟨hr, (analyseFrames_error (hw hr)).2 ⟨rfl, hgap⟩⟩
  | normalize t =>
    refine execNormalize_fault.trans ?_
    rw [scannedAmps_error, Fault.unwritten.injEq]
    rfl
  | interp =>
    refine execInterp_fault.trans ?_
    rw [interpolate_error, Fault.unwritten.injEq]
    exact and_left_comm
  | osc =>
    refine iff_of_false (fun h => ?_) id
    obtain ⟨hr, h⟩ := execOsc_fault.1 h
    exact oscStep_ne_fault hb hv hs hr _ _ h
  | synth =>
    refine execSynth_fault.trans ⟨?_, ?_⟩
    · rintro ⟨hr, hl, h | ⟨o, -, h⟩⟩
      · obtain ⟨hsp, hgap⟩ := interpolate_error.1 h
        exact ⟨Fault.unwritten.inj hsp, hr, hl, hgap⟩
      · exact absurd h (oscStep_ne_fault hb hv hs hr _ _)
    · rintro ⟨rfl, hr, hl, hgap⟩
      exact ⟨hr, hl, .inl (interpolate_error.2 ⟨rfl, hgap⟩)⟩

end Sys2Proof.Machine

section
open Sys2Proof Sys2Proof.Machine

/-- Settles O49: commands and the host change the cells by writes of runs of bytes only, and a reset empties them. -/
theorem stepKeepsMemoryCanonical : Obligations.StepKeepsMemoryCanonical := by
  intro s t hs h
  obtain hc | rfl | ⟨rest, hi⟩ := step_ends h
  · cases hc with
    | stored hc => exact hc.canonical hs
    | builtWindow | builtSine => exact wf_putF64s hs _ _
    | _ => exact hs
  · exact hs
  · cases hi with
    | element norm ha => exact wf_put hs _ _
    | reset => exact .nil
    | _ => exact hs

/-- Settles O50: the oscillator commits one pattern to both channels, and every other move of them sets both to 0. -/
theorem stepKeepsTheChannelsEqual : Obligations.StepKeepsTheChannelsEqual := by
  intro s t hs h
  obtain hc | rfl | ⟨rest, hi⟩ := step_ends h
  · cases hc with
    | stored hc => exact hc.outL.trans (hs.trans hc.outR.symm)
    | restarted | sounded | synthesized => rfl
    | _ => exact hs
  · exact hs
  · cases hi with
    | reset => rfl
    | _ => exact hs

/-- Settles O52: SYNTH wraps S where it would reach S_LIMIT, and a write of IN_LEN, which moves S_LIMIT, sets S to 0. -/
theorem stepKeepsTheSampleCounterInRange : Obligations.StepKeepsTheSampleCounterInRange := by
  intro s t hc hs h
  obtain he | rfl | ⟨rest, hi⟩ := step_ends h
  · cases he with
    | stored he =>
      rw [State.sampleInRange, he.sLimit, he.s]
      exact hs
    | restarted => exact .inl rfl
    | synthesized o hl hp => exact nextSample_inRange hs (sLimit_pos hc hl)
    | _ => exact hs
  · exact hs
  · cases hi with
    | inLen | reset => exact .inl rfl
    | _ => exact hs

/-- Settles O53: a phase is moved by the wrap of R140, by a checked host write, or to 0. -/
theorem stepKeepsEveryPhaseInTheUnitInterval : Obligations.StepKeepsEveryPhaseInTheUnitInterval := by
  intro s t hs h
  obtain ⟨hn, hv⟩ := hs
  obtain he | rfl | ⟨rest, hi⟩ := step_ends h
  · cases he with
    | stored he =>
      rw [State.voicesSound, he.voices, he.params]
      exact ⟨hn, hv⟩
    | restarted => exact ⟨(List.length_map _).trans hn, phasesLegal_restart _⟩
    | interpolated o => exact ⟨(updateVoices_length _ _).trans hn, phasesLegal_setFreqAmp hv _ _⟩
    | sounded hp => exact ⟨(updateVoices_length _ _).trans hn, phasesLegal_setIncPhase hv _ hp⟩
    | synthesized o hl hp =>
      exact ⟨(updateVoices_length _ _).trans ((updateVoices_length _ _).trans hn),
        phasesLegal_setIncPhase (phasesLegal_setFreqAmp hv _ _) _ hp⟩
    | _ => exact ⟨hn, hv⟩
  · exact ⟨hn, hv⟩
  · cases hi with
    | voice n hf => exact ⟨(List.length_modify ..).trans hn, phasesLegal_modify hv n hf⟩
    | reset => exact voicesSound_resetOf s.params
    | _ => exact ⟨hn, hv⟩

/-- Settles O54: no error is recorded with the code NONE, and CLEAR bit 0 clears the whole record. -/
theorem stepKeepsTheErrorRecordSound : Obligations.StepKeepsTheErrorRecordSound := by
  intro s t hs h
  obtain he | rfl | ⟨rest, hi⟩ := step_ends h
  · cases he with
    | error hc => exact cmdError_sound hs hc
    | stored he => exact errorRecordSound_congr he.errors hs
    | _ => exact hs
  · exact hs
  · cases hi with
    | clear w => exact clearErrors_sound (s := { s with inputs := rest }) hs w
    | reset => exact ⟨rfl, rfl⟩
    | _ => exact hs

/-- Settles O55: only BUILD_WINDOW and BUILD_SINE write between FFTBUF and the analysis tables, and only a reset clears a ready
bit. -/
theorem stepKeepsTheBuiltTables : Obligations.StepKeepsTheBuiltTables := by
  intro s t hc hs h
  have hb := bounds_of_legal hc.1
  obtain he | rfl | ⟨rest, hi⟩ := step_ends h
  · cases he with
    | @error c _ => exact TablesKept.builtAfter ⟨rfl, readyBits_cmdError s c, fun _ _ => rfl⟩ hb hs
    | stored he => exact (he.tablesKept hc).builtAfter hb hs
    | builtWindow => exact builtAfter_buildWindow hb hs
    | builtSine => exact builtAfter_buildSine hb hs
    | _ => exact TablesKept.builtAfter ⟨rfl, rfl, fun _ _ => rfl⟩ hb hs
  · exact TablesKept.builtAfter ⟨rfl, rfl, fun _ _ => rfl⟩ hb hs
  · obtain rfl | hk := inputEnd_tablesKept hi
    · exact ⟨⟨nofun, nofun⟩, nofun⟩
    · exact hk.builtAfter hb hs

/-- Settles O7: the write of CMD leaves the sequencer its turn, and the decoder reads back the encoded command. -/
theorem aCommandWrittenToCmdRuns : Obligations.ACommandWrittenToCmdRuns := by
  intro s i o hl hi hr hb hin
  have hwrite := busWrite_reg (s := { s with inputs := [] }) (addr := 0x030) hr hb (r := .cmd) rfl (encode i)
  have hturn : s.sequencerTurn = false := by simp [State.sequencerTurn, hb]
  refine ⟨_, (step_takes hl hturn hin).trans (congrArg _ hwrite), rfl, rfl, rfl, rfl, rfl, rfl, ?_⟩
  refine step_runs hl ?_ (decode_encode hi)
  simp [State.sequencerTurn, State.inputOverlaps, State.writeReg, hr]

/-- Settles O10: a command commits to the bank, to its result registers, to STATUS and to the elements of its memories only. -/
theorem commandsLeaveTheHostsRegistersAndInputs : Obligations.CommandsLeaveTheHostsRegistersAndInputs := by
  intro i s t hc _ h
  obtain ⟨hp, hn, hl, hr⟩ := ConfigRegs.mk.inj (exec_config h)
  obtain ⟨hcmd, hpending, hreset, hin, hre⟩ := HostSide.mk.inj (exec_hostSide h)
  refine ⟨hp, hcmd, hpending, hn, hl, hr, hin, hre, hreset, exec_voices_length h, fun a ha => ?_⟩
  exact exec_get hc h ⟨ha .fftbuf nofun nofun, fun t => by cases t <;> exact ha _ nofun nofun⟩ (ha .wintab nofun nofun)
    (ha .sinetab nofun nofun)

/-- Settles O38: the reads of the built tables answer, so a command faults where another of its reads does. -/
theorem commandsFaultOnlyOnUnwrittenElements : Obligations.CommandsFaultOnlyOnUnwrittenElements :=
  fun _ => exec_fault_iff

/-- Settles O39: the checks of R68 in their order; the register window has no register above INT_LW. -/
theorem busyMisalignedAndUnmappedAreRejected : Obligations.BusyMisalignedAndUnmappedAreRejected := by
  intro s addr w hr
  refine ⟨fun ha => bus_misaligned hr ha w, fun ha hb => ⟨busWrite_busy hr ha hb w, fun hs => busRead_busy hr ha hb ?_⟩,
    busRead_status hr, fun ha hb hd => bus_unmapped hr hb ha ?_ w⟩
  · exact fun h => hs (BitVec.eq_of_toNat_eq h)
  · exact hd.elim (fun h => decodeAddr_reserved h.1 h.2) id

/-- Settles O43: the check of the register decides between its accepted write and the rejection. -/
theorem configurationWritesAreChecked : Obligations.ConfigurationWritesAreChecked := by
  refine ⟨rfl, fun t => by cases t <;> exact ⟨rfl, rfl⟩, fun s w t hr hb => ⟨?_, ?_, ?_, ?_, ?_, ?_⟩⟩
  · exact busWrite_reg hr hb (r := .nvoices) rfl w
  · exact busWrite_reg hr hb (r := .inLen t) (by cases t <;> rfl) w
  · rw [busWrite_reg hr hb (r := .sr t) (by cases t <;> rfl) w]
    simp only [State.writeReg, legalRate, Bool.and_eq_true]
    rfl
  · exact busRead_reg hr hb (r := .nvoices) rfl
  · exact busRead_reg hr hb (r := .inLen t) (by cases t <;> rfl)
  · exact busRead_reg hr hb (r := .sr t) (by cases t <;> rfl)

/-- Settles O45: the write reaches its target, whose rule rejects every value. -/
theorem readOnlyElementsRejectWrites : Obligations.ReadOnlyElementsRejectWrites := by
  intro s addr w hr hb ha h
  obtain h | ⟨n, h⟩ | h | h := h
  · obtain ⟨r, hreg, hro⟩ := regAt_readOnlyOffsets _ h
    rw [busWrite_reg hr hb hreg, writeReg_readOnly hro]
  all_goals exact busWrite_target hr hb ha h w

/-- Settles O46: every derived count of a legal configuration fits its field of the word. -/
theorem derivedRegistersReadAsTheirRules : Obligations.DerivedRegistersReadAsTheirRules := by
  intro s hc hr hb reads
  have hp := bounds_of_legal hc.1
  obtain ⟨hnfft, hwin, hhop, hsine, hnmax, hinmax, hfmax⟩ := hp.counts_lt
  have hreg : ∀ {a : Nat} {r : Reg}, regAt (BitVec.ofNat 32 a).toNat = some r → reads a (s.readReg r) :=
    fun h => busRead_reg hr hb h
  refine ⟨hreg (r := .id) rfl, ⟨_, hreg (r := .param0) rfl, pairWord_toNat hwin hnfft⟩,
    ⟨_, hreg (r := .param1) rfl, pairWord_toNat hsine hhop⟩,
    ⟨_, hreg (r := .param2) rfl, pairWord_toNat hinmax hnmax⟩,
    ⟨_, hreg (r := .param3) rfl, (pairWord_toNat (Nat.two_pow_pos 32) hfmax).trans (Nat.zero_add _)⟩,
    hreg (r := .engineSr) rfl, ?_,
    hreg (r := .s) rfl, hreg (r := .outL) rfl, hreg (r := .outR) rfl, hreg (r := .normMax .a) rfl,
    hreg (r := .normMax .b) rfl, hreg (r := .peakCount) rfl, hreg (r := .intT) rfl, hreg (r := .intLow) rfl,
    hreg (r := .intHigh) rfl, hreg (r := .intUw) rfl, hreg (r := .intLw) rfl⟩
  refine ⟨⟨.ofNat 64 (s.frames .a), .ofNat 64 (s.frames .b)⟩, .ofNat 64 s.frameLimit, .ofNat 64 s.sLimit, fun t => ?_,
    hreg (r := .frameLimit) rfl, ?_, hreg (r := .sLimit) rfl, ?_⟩
  · have hget : AB.get ⟨BitVec.ofNat 64 (s.frames .a), BitVec.ofNat 64 (s.frames .b)⟩ t = .ofNat 64 (s.frames t) := by
      cases t <;> rfl
    rw [hget, frames_toNat hc]
    obtain ⟨h1, h2⟩ := ceilDiv_spec (n := (s.inLen.get t).toNat) hp.hop_pos
    exact ⟨hreg (r := .frames t) (by cases t <;> rfl), h1, h2, frames_le hc⟩
  · rw [frameLimit_toNat hc]
    exact congrArg₂ min (frames_toNat hc .a).symm (frames_toNat hc .b).symm
  · rw [sLimit_toNat hc, frameLimit_toNat hc]
    rfl

/-- Settles O58: the integer part of a finite value is exact, and the wrap is +0.0 or a magnitude below that of 1.0. -/
theorem wrappedPhasesLieInTheUnitInterval : Obligations.WrappedPhasesLieInTheUnitInterval :=
  fun _ b hf => ⟨wrapPhase_eq_sub hf, legalPhase_wrapPhase _ b⟩

/-- Settles O42: CMD and CLEAR take every word, and CLEAR masks the error bits. -/
theorem cmdIssuesAndClearClears : Obligations.CmdIssuesAndClearClears := by
  refine ⟨rfl, fun s w hr => ⟨fun hb => ⟨busWrite_busy hr rfl hb w, busWrite_busy hr rfl hb w⟩, fun hb => ⟨?_, ?_, ?_, ?_⟩⟩⟩
  · exact busWrite_reg hr hb (r := .cmd) rfl w
  · exact busRead_reg hr hb (r := .cmd) rfl
  · exact busRead_reg hr hb (r := .clear) rfl
  · rw [busWrite_reg hr hb (r := .clear) rfl w]
    simp only [State.writeReg, State.clearErrors, clear_eq]
    rfl

/-- Settles O47: the word is a sum of bits at their places. -/
theorem statusWordHasEachFieldAtItsBit : Obligations.StatusWordHasEachFieldAtItsBit := by
  intro st
  have hn := toWord_toNat st
  have hflags := flags_le st
  refine ⟨?_, ?_, ?_, ?_, ?_, ?_, ?_, ?_, ?_⟩
  iterate 8 exact getLsbD_eq_of_div (by omega)
  have hcode : st.toWord.toNat / 2 ^ 8 = st.errcode.code := by omega
  rw [hcode]
  cases st.errcode <;> rfl

end

/-! PROOFS. The memory family (20_memory.md): which offsets are mapped, what a transaction outside reset answers, and what a
written element reads as. -/

namespace Sys2Proof.Machine

/-! ## The map (20_memory.md R62, R64) -/

theorem tabToNat_le_one (t : Tab) : t.toNat ≤ 1 := by
  cases t <;> decide

/-- The recording whose window of length `k` holds an offset. -/
theorem tab_of_window {k a : Nat} {t : Tab} (h1 : k * (1 + t.toNat) ≤ a) (h2 : a < k * (2 + t.toNat)) :
    (if a < 2 * k then Tab.a else .b) = t := by
  cases t with
  | a => exact if_pos (by simp only [Tab.toNat] at h2; omega)
  | b => exact if_neg (by simp only [Tab.toNat] at h1; omega)

/-- The converse of `decodeAddr_at`: an offset decodes to the target that lies there. -/
theorem decodeAddr_of_at {p : Params} {a : Nat} {g : Target} (h : g.At p a) : decodeAddr p a = some g := by
  cases g with
  | reg r => exact decodeAddr_reg h.2
  | voice n f =>
    obtain ⟨h1, h2, rfl, hn, rfl⟩ := h
    rw [decodeAddr, if_neg (by omega), if_pos h2]
    exact if_neg (by omega)
  | fft b =>
    obtain ⟨rfl, h1, h2, hi⟩ := h
    rw [decodeAddr, if_neg (by omega), if_neg (by omega), if_pos ⟨h1, h2⟩, if_neg (by omega)]
  | wintab b =>
    obtain ⟨rfl, h1, h2, hi⟩ := h
    rw [decodeAddr, if_neg (by omega), if_neg (by omega), if_neg (by omega), if_pos ⟨h1, h2⟩, if_neg (by omega)]
  | sinetab b =>
    obtain ⟨rfl, h1, h2, hi⟩ := h
    rw [decodeAddr, if_neg (by omega), if_neg (by omega), if_neg (by omega), if_neg (by omega), if_pos ⟨h1, h2⟩,
      if_neg (by omega)]
  | atab t b =>
    obtain ⟨rfl, h1, h2, hi⟩ := h
    have ht := tabToNat_le_one t
    rw [decodeAddr, if_neg (by omega), if_neg (by omega), if_neg (by omega), if_neg (by omega), if_neg (by omega),
      if_pos (by omega), tab_of_window h1 h2]
    exact if_neg (by omega)
  | inbuf t b =>
    obtain ⟨rfl, h1, h2, hi⟩ := h
    have ht := tabToNat_le_one t
    rw [decodeAddr, if_neg (by omega), if_neg (by omega), if_neg (by omega), if_neg (by omega), if_neg (by omega),
      if_neg (by omega), if_pos (by omega), tab_of_window h1 h2]
    exact if_neg (by omega)

/-- An offset is unmapped where no target lies. -/
theorem decodeAddr_eq_none {p : Params} {a : Nat} (h : ∀ g : Target, ¬ g.At p a) : decodeAddr p a = none :=
  Option.eq_none_iff_forall_ne_some.2 fun g hg => h g (decodeAddr_at hg)

section
variable {p : Params}

theorem decodeAddr_voice (hp : Bounds p) {n k : Nat} (hn : n < p.nmax) (hk : k < 4) :
    decodeAddr p (0x1000 + 32 * n + 8 * k) = some (.voice n (voiceFieldAt k)) := by
  have hmax := hp.nmax_le
  have hfield : (0x1000 + 32 * n + 8 * k - 0x1000) % 32 / 8 = k := by omega
  refine decodeAddr_of_at ⟨by omega, by omega, by omega, hn, ?_⟩
  rw [hfield]

theorem decodeAddr_fft (hp : Bounds p) {i d : Nat} (hi : i < p.nfft) (hd : d < 16) :
    decodeAddr p (0x00100000 + 16 * i + d) = some (.fft (0x00100000 + 16 * i + d)) := by
  have hmax := hp.nfft_le
  exact decodeAddr_of_at ⟨rfl, by omega, by omega, by omega⟩

theorem decodeAddr_wintab (hp : Bounds p) {i : Nat} (hi : i < p.win) :
    decodeAddr p (0x00200000 + 8 * i) = some (.wintab (0x00200000 + 8 * i)) := by
  have hmax := hp.nfft_le
  have hwin := hp.win_lt
  exact decodeAddr_of_at ⟨rfl, by omega, by omega, by omega⟩

theorem decodeAddr_sinetab (hp : Bounds p) {i : Nat} (hi : i < p.sine) :
    decodeAddr p (0x00280000 + 8 * i) = some (.sinetab (0x00280000 + 8 * i)) := by
  have hmax := hp.sine_le
  exact decodeAddr_of_at ⟨rfl, by omega, by omega, by omega⟩

theorem decodeAddr_atab (hp : Bounds p) (t : Tab) {f n d : Nat} (hf : f < p.fmax) (hn : n < p.nmax) (hd : d < 16) :
    decodeAddr p (atabAddr p t f n + d) = some (.atab t (atabAddr p t f n + d)) := by
  have hmax := entry_lt hp hf hn
  have hentry : (atabAddr p t f n + d - 0x01000000 * (1 + t.toNat)) / 16 = p.nmax * f + n := by
    rw [atabAddr, Nat.mul_comm p.nmax]
    omega
  refine decodeAddr_of_at ⟨rfl, ?_, ?_, ?_⟩
  · rw [atabAddr]
    omega
  · rw [atabAddr]
    omega
  · rw [hentry, Nat.mul_add_div hp.nmax_pos, Nat.div_eq_of_lt hn]
    exact hf

theorem decodeAddr_inbuf (hp : Bounds p) (t : Tab) {i : Nat} (hi : i < p.inmax) :
    decodeAddr p (inbufAddr t i) = some (.inbuf t (inbufAddr t i)) := by
  have hmax := hp.inmax_le
  rw [inbufAddr]
  exact decodeAddr_of_at ⟨rfl, by omega, by omega, by omega⟩

/-- The offsets that follow the elements of a region, up to the next one (R64). -/
def Beyond (p : Params) (a : Nat) : Prop :=
  (0x1000 + 32 * p.nmax ≤ a ∧ a ≤ 0xFFFFF) ∨ (0x00100000 + 16 * p.nfft ≤ a ∧ a ≤ 0x1FFFFF)
    ∨ (0x00200000 + 8 * p.win ≤ a ∧ a ≤ 0x27FFFF) ∨ (0x00280000 + 8 * p.sine ≤ a ∧ a ≤ 0xFFFFFF)
    ∨ (0x01000000 + 16 * (p.fmax * p.nmax) ≤ a ∧ a ≤ 0x1FFFFFF)
    ∨ (0x02000000 + 16 * (p.fmax * p.nmax) ≤ a ∧ a ≤ 0x3FFFFFF)
    ∨ (0x04000000 + 8 * p.inmax ≤ a ∧ a ≤ 0x7FFFFFF) ∨ 0x08000000 + 8 * p.inmax ≤ a

/-- A target that lies at an offset ends below the offsets that follow its region. -/
theorem Beyond.not_at (hp : Bounds p) {a : Nat} (h : Beyond p a) (g : Target) : ¬ g.At p a := by
  intro hg
  unfold Beyond at h
  cases g with
  | reg r =>
    obtain ⟨hmax, -⟩ := hg
    omega
  | voice n f =>
    obtain ⟨h1, h2, hn, hlt, -⟩ := hg
    omega
  | fft b | wintab b | sinetab b =>
    obtain ⟨-, h1, h2, hi⟩ := hg
    omega
  | atab t b =>
    obtain ⟨-, h1, h2, hi⟩ := hg
    rw [Nat.div_lt_iff_lt_mul hp.nmax_pos] at hi
    cases t <;> simp only [Tab.toNat] at h1 h2 hi <;> omega
  | inbuf t b =>
    obtain ⟨-, h1, h2, hi⟩ := hg
    cases t <;> simp only [Tab.toNat] at h1 h2 hi <;> omega

end

/-! ## What a transaction outside reset answers (20_memory.md R54, R68) -/

/-- An accepted read answers a word and takes a free value at most. -/
theorem readTarget_answers (s : State) (g : Target) :
    ∃ d k, s.readTarget g = { s with replies := .readOk d :: s.replies, draws := k } := by
  have helement (v : Option Word) (f : Word → Word) :
      ∃ d k, s.readElement v f = { s with replies := .readOk d :: s.replies, draws := k } := by
    cases v with
    | some w => exact ⟨w, s.draws, rfl⟩
    | none => exact ⟨_, s.draws + 1, rfl⟩
  cases g with
  | reg | voice => exact ⟨_, s.draws, rfl⟩
  | fft | wintab | sinetab | atab | inbuf => exact helement _ _

/-- A state that a write may leave: the write is answered OK, or rejected with nothing but BERR set. -/
def WriteAnswers (s u : State) : Prop := u.replies = .writeOk :: s.replies ∨ ∃ c, u = s.writeError c

theorem WriteAnswers.rejected (s : State) (c : BusCause) : WriteAnswers s (s.writeError c) := .inr ⟨c, rfl⟩

/-- A write whose value is checked is answered as the accepted write, or rejected. -/
theorem WriteAnswers.checked {s u : State} {P : Prop} [Decidable P] {c : BusCause} (h : u.replies = .writeOk :: s.replies) :
    WriteAnswers s (if P then u else s.writeError c) := by
  split
  · exact .inl h
  · exact .rejected s c

theorem writeReg_answers (s : State) (w : Word) (r : Reg) : WriteAnswers s (s.writeReg w r) := by
  cases r with
  | cmd | clear => exact .inl rfl
  | nvoices | inLen | sr => exact .checked rfl
  | _ => exact .rejected s _

theorem writeTarget_answers (s : State) (w : Word) (g : Target) : WriteAnswers s (s.writeTarget w g) := by
  cases g with
  | reg r => exact writeReg_answers s w r
  | voice n f =>
    cases f with
    | freq | amp => exact .inl rfl
    | phase => exact .checked rfl
    | inc => exact .rejected s _
  | fft | atab | inbuf => exact .inl rfl
  | wintab | sinetab => exact .rejected s _

section
variable {s : State} {addr : BitVec 32} (hr : s.inReset = false)
include hr

theorem busRead_answers : (∃ d k, s.busRead addr = { s with replies := .readOk d :: s.replies, draws := k })
    ∨ ∃ c, s.busRead addr = s.readError c := by
  rw [State.busRead, if_neg (by simp [hr])]
  split
  · exact .inr ⟨_, rfl⟩
  split
  · exact .inr ⟨_, rfl⟩
  split
  · exact .inr ⟨_, rfl⟩
  · exact .inl (readTarget_answers s _)

theorem busWrite_answers (w : Word) : WriteAnswers s (s.busWrite addr w) := by
  rw [State.busWrite, if_neg (by simp [hr])]
  split
  · exact .rejected s _
  split
  · exact .rejected s _
  split
  · exact .rejected s _
  · exact writeTarget_answers s w _

section
variable (hb : s.status.busy = false) (ha : addr.toNat % 8 = 0)
include hb ha

/-- A read of a mapped element of an idle block. -/
theorem busRead_target {g : Target} (hd : decodeAddr s.params addr.toNat = some g) : s.busRead addr = s.readTarget g := by
  simp [State.busRead, hr, hb, ha, hd]

/-- R59: a written element of FFTBUF or ATAB reads as its word. -/
theorem busRead_word {g : Target} (hd : decodeAddr s.params addr.toNat = some g)
    (hg : g = .fft addr.toNat ∨ ∃ t, g = .atab t addr.toNat) {w : Word} (hw : s.mem.word addr.toNat = some w) :
    s.busRead addr = s.reply (.readOk w) := by
  rw [busRead_target hr hb ha hd]
  obtain rfl | ⟨t, rfl⟩ := hg <;> rw [State.readTarget, hw, State.readElement]

/-- R59: a written element of INBUF reads as its 32 bits, zero-extended. -/
theorem busRead_sample {t : Tab} (hd : decodeAddr s.params addr.toNat = some (.inbuf t addr.toNat)) {v : BitVec 32}
    (hv : s.mem.half addr.toNat = some v) : s.busRead addr = s.reply (.readOk (v.setWidth 64)) := by
  rw [busRead_target hr hb ha hd, State.readTarget, hv, Option.map_some, State.readElement]

end
end

/-! ## Writes and the memories (20_memory.md R59, R61, R67) -/

theorem word_putWords_same (m : Mem) (a : Nat) (w : Word) : (m.putWords a [w]).word a = some w :=
  word_put_inside (ws := [w]) (i := 0) Nat.zero_lt_one

/-- R59: what is left of a word written to an INBUF element. -/
theorem setWidth_low_half (w : Word) : (w.setWidth 32).setWidth 64 = BitVec.ofNat 64 (w.toNat % 2 ^ 32) :=
  BitVec.eq_of_toNat_eq (by simp)

theorem writeReg_mem (s : State) (w : Word) (r : Reg) : (s.writeReg w r).mem = s.mem := by
  cases r with
  | nvoices | inLen | sr =>
    rw [State.writeReg]
    split <;> rfl
  | _ => rfl

theorem writeVoice_mem (s : State) (w : Word) (n : Nat) (f : VoiceField) :
    (s.writeTarget w (.voice n f)).mem = s.mem := by
  cases f with
  | phase =>
    rw [State.writeTarget]
    split <;> rfl
  | _ => rfl

/-- A write changes no byte outside the eight of its element. -/
theorem writeTarget_get {s : State} {a : Nat} {g : Target} (hg : g.At s.params a) (w : Word) {x : Nat}
    (hx : x < a ∨ a + 8 ≤ x) : (s.writeTarget w g).mem.get x = s.mem.get x := by
  cases g with
  | reg r => rw [State.writeTarget, writeReg_mem]
  | voice n f => rw [writeVoice_mem]
  | fft b | atab t b =>
    obtain ⟨rfl, -⟩ := hg
    exact get_putWords_outside hx
  | wintab b | sinetab b => rfl
  | inbuf t b =>
    obtain ⟨rfl, -⟩ := hg
    exact get_putHalf_outside (by omega)

/-- A field of a voice of the file is stored by a replacement of the voice. -/
theorem setVoiceField_eq_set {s : State} {n : Nat} (hn : n < s.voices.length) (f : VoiceField) (w : Word) :
    s.setVoiceField n f w = { s with voices := s.voices.set n ((s.voices.getD n Voice.zero).set w f) } := by
  rw [State.setVoiceField, List.modify_eq_set_get _ hn, List.getD_eq_getElem _ _ hn]
  rfl

end Sys2Proof.Machine

section
open Sys2Proof Sys2Proof.Machine

/-- Settles O41: with legal parameters every region ends inside its window. -/
theorem elementsLieWhereTheMapSays : Obligations.ElementsLieWhereTheMapSays := by
  intro p hl
  have hp := bounds_of_legal hl
  refine ⟨fun n hn => ⟨?_, ?_, ?_, ?_⟩, fun i d hi hd => decodeAddr_fft hp hi (by omega),
    fun i => decodeAddr_wintab hp, fun i => decodeAddr_sinetab hp,
    fun t f n d hf hn hd => decodeAddr_atab hp t hf hn (by omega), fun t i => decodeAddr_inbuf hp t,
    fun a (ha : Beyond p a) => decodeAddr_eq_none (ha.not_at hp)⟩
  · exact decodeAddr_voice hp hn (k := 0) (by decide)
  · exact decodeAddr_voice hp hn (k := 1) (by decide)
  · exact decodeAddr_voice hp hn (k := 2) (by decide)
  · exact decodeAddr_voice hp hn (k := 3) (by decide)

/-- Settles O40: the first response tells an accepted transaction from a rejected one, which sets BERR. -/
theorem rejectedTransactionsOnlySetBerr : Obligations.RejectedTransactionsOnlySetBerr := by
  refine ⟨fun s addr w c hr => ⟨fun d h => ?_, fun h => ?_, fun d h => ?_⟩,
    fun s addr w o rest hl ht => ⟨step_takes hl ht, step_takes hl ht⟩⟩
  · obtain ⟨e, k, hread⟩ | ⟨c', hread⟩ := busRead_answers (addr := addr) hr <;> rw [hread] at h
    · cases h
    · cases h
      exact ⟨rfl, hread⟩
  · obtain hok | ⟨c', hwrite⟩ := busWrite_answers (addr := addr) hr w
    · rw [hok] at h
      cases h
    · rw [hwrite] at h
      cases h
      exact hwrite
  · obtain ⟨e, k, hread⟩ | ⟨c', hread⟩ := busRead_answers (addr := addr) hr <;> rw [hread] at h
    · cases h
      rw [hread]
    · cases h

/-- Settles O44: a write reaches the element that its address decodes to, and a read back reaches the same element. -/
theorem writtenElementsReadBack : Obligations.WrittenElementsReadBack := by
  intro s addr w hr hb ha
  refine ⟨fun g hg => ?_, fun n f hg hn => ⟨?_, ?_, busRead_target hr hb ha hg⟩⟩
  · rw [busWrite_target hr hb ha hg]
    refine ⟨?_, ?_, ?_, ?_, fun a => writeTarget_get (decodeAddr_at hg) w⟩
    · have hmem := word_putWords_same s.mem addr.toNat w
      rintro (rfl | ⟨t, rfl⟩)
      · have hread := busRead_word (s := s.writeTarget w (.fft _)) hr hb ha hg (.inl rfl) hmem
        exact ⟨hmem, congrArg State.replies hread⟩
      · have hread := busRead_word (s := s.writeTarget w (.atab t _)) hr hb ha hg (.inr ⟨t, rfl⟩) hmem
        exact ⟨hmem, congrArg State.replies hread⟩
    · rintro ⟨t, rfl⟩
      have hmem := half_put_same s.mem addr.toNat (w.setWidth 32)
      rw [busRead_sample (s := s.writeTarget w (.inbuf t _)) hr hb ha hg hmem, setWidth_low_half]
      rfl
    · rintro (rfl | ⟨t, rfl⟩) <;> rfl
    · rintro t rfl
      rfl
  · rintro (rfl | rfl) <;>
      exact (busWrite_target hr hb ha hg w).trans (congrArg State.accept (setVoiceField_eq_set hn _ w))
  · rintro rfl
    rw [busWrite_target hr hb ha hg, State.writeTarget, setVoiceField_eq_set hn]
    simp only [legalPhase, Bool.and_eq_true, Bool.not_eq_true']
    rfl

end

/-! PROOFS. The encoding family (30_encoding.md): what the decoder answers to a word of each row of the table, and that a word
whose reserved bits are zero is packed from its own fields. -/

namespace Sys2Proof

open Sys2Proof.Laws Sys2Proof.Machine

/-! ## The rows of the table (30_encoding.md R78) -/

/-- One command of each row. -/
def tableRows : List Instr :=
  [.nop, .buildWindow, .buildSine, .loadFrame .a 0, .window, .fft, .peaks .a 0, .analyze .a, .normalize .a, .synthReset,
    .interp, .osc, .synth]

theorem definedOps_eq_map_opOf : definedOps = tableRows.map opOf := rfl

theorem mem_definedOps_iff {op : Nat} : op ∈ definedOps ↔ ∃ i, opOf i = op := by
  constructor
  · rw [definedOps_eq_map_opOf]
    intro h
    obtain ⟨i, -, hi⟩ := List.mem_map.1 h
    exact ⟨i, hi⟩
  · rintro ⟨i, rfl⟩
    cases i <;> simp [opOf, definedOps]

theorem usesFrame_eq_false_iff {i : Instr} : usesFrame i = false ↔ opOf i ≠ 0x10 ∧ opOf i ≠ 0x13 := by
  simp [usesFrame]

theorem usesTab_eq_false_iff {i : Instr} :
    usesTab i = false ↔ opOf i ≠ 0x10 ∧ opOf i ≠ 0x13 ∧ opOf i ≠ 0x14 ∧ opOf i ≠ 0x15 := by
  simp [usesTab, usesFrame, and_assoc]

/-- The command of the row of `i` with the operands `t` and `f`, of which it takes those that the row uses. -/
def Instr.withFields (t : Tab) (f : Nat) : Instr → Instr
  | .loadFrame _ _ => .loadFrame t f
  | .peaks _ _ => .peaks t f
  | .analyze _ => .analyze t
  | .normalize _ => .normalize t
  | i => i

theorem withFields_wellFormed (i : Instr) (t : Tab) {f : Nat} (hf : f < 2 ^ 23) : (i.withFields t f).wellFormed = true := by
  cases i with
  | loadFrame | peaks => exact decide_eq_true hf
  | _ => rfl

theorem encode_withFields (i : Instr) (t : Tab) (f : Nat) :
    encode (i.withFields t f) = packWord (opOf i) (if usesTab i then t else .a) (if usesFrame i then f else 0) := by
  cases i <;> rfl

/-! ## The fields of a word (30_encoding.md R76) -/

theorem tabBit_eq_true_iff (w : Word) : w.getLsbD 8 = true ↔ w.toNat / 2 ^ 8 % 2 ≠ 0 := by
  rw [tabBit_eq, decide_eq_true_eq]
  omega

theorem tabField_toNat (w : Word) : (tabField w).toNat = w.toNat / 2 ^ 8 % 2 := by
  rw [tabField, tabBit_eq]
  split
  case isTrue h => exact (of_decide_eq_true h).symm
  case isFalse h =>
    rw [decide_eq_true_eq] at h
    rw [Tab.toNat]
    omega

theorem tabField_of_bit_false {w : Word} (h : w.getLsbD 8 = false) : tabField w = .a := by
  rw [tabField, h]
  rfl

theorem opField_lt (w : Word) : opField w < 256 := BitVec.isLt _

theorem frameField_lt (w : Word) : frameField w < 2 ^ 23 := BitVec.isLt _

/-- Where RSV is zero, the word is the sum of its other fields at their places. -/
theorem toNat_eq_of_reservedBits {w : Word} (h : reservedBits w = 0) :
    w.toNat = w.toNat % 256 + 2 ^ 8 * (w.toNat / 2 ^ 8 % 2) + 2 ^ 9 * (w.toNat / 2 ^ 9 % 2 ^ 23) := by
  rw [reservedBits_eq] at h
  omega

theorem packWord_fields {w : Word} (h : reservedBits w = 0) : packWord (opField w) (tabField w) (frameField w) = w := by
  refine BitVec.eq_of_toNat_eq ?_
  rw [packWord_toNat _ (opField_lt w) (frameField_lt w), opField_eq, frameField_eq, tabField_toNat]
  exact (toNat_eq_of_reservedBits h).symm

/-! ## What the decoder answers (30_encoding.md R79) -/

theorem decode_of_undefined {w : Word} (h : opField w ∉ definedOps) : decode w = .error .illegalOpcode := by
  unfold decode
  split
  case h_14 => rfl
  all_goals
    rename_i hop
    exact absurd (hop ▸ by decide) h

/-- The answer to a word of the row of `i`: the checks of the fields that the row leaves zero, then the operands. -/
theorem decode_of_opField {w : Word} {i : Instr} (h : opField w = opOf i) :
    decode w = if reservedBits w ≠ 0 then .error .reservedField
      else if usesFrame i = false ∧ frameField w ≠ 0 then .error .reservedField
      else if usesTab i = false ∧ w.getLsbD 8 = true then .error .reservedField
      else .ok (i.withFields (tabField w) (frameField w)) := by
  unfold decode
  rw [h]
  cases i <;> simp [opOf, usesFrame, usesTab, decodePlain, decodeTab, decodeTabFrame, Instr.withFields]

/-- What is known of a word that decodes: its row, the zero fields, and its command. -/
theorem of_decode_eq_ok {w : Word} {j : Instr} (h : decode w = .ok j) :
    ∃ i, opField w = opOf i ∧ reservedBits w = 0 ∧ (usesFrame i = false → frameField w = 0)
      ∧ (usesTab i = false → w.getLsbD 8 = false) ∧ j = i.withFields (tabField w) (frameField w) := by
  have hop : opField w ∈ definedOps := by
    by_contra hop
    rw [decode_of_undefined hop] at h
    cases h
  obtain ⟨i, hi⟩ := mem_definedOps_iff.1 hop
  rw [decode_of_opField hi.symm] at h
  split_ifs at h with hrsv hframe htab
  cases h
  exact ⟨i, hi.symm, not_not.1 hrsv, fun hu => by simpa [hu] using hframe, fun hu => by simpa [hu] using htab, rfl⟩

/-- The fields that the row does not use are zero in the word and in the encoding alike. -/
theorem encode_of_decode {w : Word} {j : Instr} (h : decode w = .ok j) : j.wellFormed = true ∧ encode j = w := by
  obtain ⟨i, hop, hrsv, hframe, htab, rfl⟩ := of_decode_eq_ok h
  have ht : (if usesTab i then tabField w else .a) = tabField w :=
    ite_eq_left_iff.2 fun hu => (tabField_of_bit_false (htab (Bool.eq_false_of_not_eq_true hu))).symm
  have hf : (if usesFrame i then frameField w else 0) = frameField w :=
    ite_eq_left_iff.2 fun hu => (hframe (Bool.eq_false_of_not_eq_true hu)).symm
  refine ⟨withFields_wellFormed i _ (frameField_lt w), ?_⟩
  rw [encode_withFields, ht, hf, ← hop, packWord_fields hrsv]

end Sys2Proof

section
open Sys2Proof Sys2Proof.Laws Sys2Proof.Machine

/-- Settles O1: the fields of a packed word are those it was packed from. -/
theorem decodeOfEncodeIsTheCommand : Obligations.DecodeOfEncodeIsTheCommand :=
  fun _ => decode_encode

/-- Settles O2: a decoded word has zeros in every field that its row does not use, so its command packs it again. -/
theorem encodeOfDecodeIsTheWord : Obligations.EncodeOfDecodeIsTheWord :=
  fun _ _ => encode_of_decode

/-- Settles O3: an undefined OP is no row's; the row of a defined one fixes which fields are checked. -/
theorem decodingChecksInOrder : Obligations.DecodingChecksInOrder := by
  intro w op t f rsv
  have hop : opField w = op := opField_eq w
  by_cases hdef : op ∈ definedOps
  · rw [if_neg (not_not_intro hdef)]
    obtain ⟨i, hi⟩ := mem_definedOps_iff.1 hdef
    have hd := decode_of_opField (hop.trans hi.symm)
    simp only [usesFrame_eq_false_iff, usesTab_eq_false_iff, hi, reservedBits_eq, frameField_eq, tabBit_eq_true_iff,
      and_assoc] at hd
    split_ifs at hd ⊢ with hrsv
    iterate 3 exact hd
    refine ⟨_, hd, ?_⟩
    rw [(encode_of_decode hd).2]
    exact toNat_eq_of_reservedBits ((reservedBits_eq w).trans (not_not.1 hrsv))
  · rw [if_pos hdef]
    exact decode_of_undefined (hop ▸ hdef)

/-- Settles O4: each word is closed, so the decoder computes its answer. -/
theorem writtenOutWordsDecode : Obligations.WrittenOutWordsDecode := by
  unfold Obligations.WrittenOutWordsDecode
  decide

/-- Settles O6: the turn runs the decoder on PENDING, and each error of it is recorded with its code. -/
theorem stepRecordsADecodingError : Obligations.StepRecordsADecodingError := by
  intro s e hl ht hd
  simp only [step, hl, ht, State.runPending, hd]
  cases e <;> rfl

end

/-! PROOFS. The control family (40_control.md): how a command ends, the sequencer's turn, and NOP. -/

namespace Sys2Proof.Machine

/-! ## The end of a command (40_control.md R87) -/

/-- The two ends of a command that does not fault: an error recorded and nothing else done (60_exceptions.md R146, R153), or a
completion, which clears BUSY and records no error (R86). -/
inductive AtomicEnd (s : State) : State → Prop where
  | failed {c : ErrCode} (hc : c ≠ .none) : AtomicEnd s (s.cmdError c)
  | completed {u : State} (busy : u.status.busy = false) (errors : u.errorRecord = s.errorRecord)
      (berr : u.status.berr = s.status.berr) : AtomicEnd s u

theorem exec_atomicEnd {i : Instr} {s u : State} (h : exec i s = .next u) : AtomicEnd s u := by
  cases i with
  | nop | buildWindow | buildSine | synthReset =>
    cases h
    exact .completed rfl rfl rfl
  | loadFrame t f =>
    obtain ⟨-, rfl⟩ | ⟨-, b, -, rfl⟩ := execLoadFrame_next h
    · exact .failed nofun
    · exact .completed rfl rfl rfl
  | window =>
    obtain ⟨-, rfl⟩ | ⟨-, x, w, -, -, rfl⟩ := execWindow_next h
    · exact .failed nofun
    · exact .completed rfl rfl rfl
  | fft =>
    obtain ⟨x, -, rfl⟩ := execFft_next h
    exact .completed rfl rfl rfl
  | peaks t f =>
    obtain ⟨-, rfl⟩ | ⟨-, x, -, rfl⟩ := execPeaks_next h
    · exact .failed nofun
    · exact .completed rfl rfl rfl
  | analyze t =>
    obtain ⟨-, rfl⟩ | ⟨-, rs, -, rfl⟩ := execAnalyze_next h
    · exact .failed nofun
    · rw [leaveLast_writeFrames_eq]
      exact .completed rfl rfl rfl
  | normalize t =>
    obtain ⟨amps, -, ⟨-, rfl⟩ | ⟨-, -, rfl⟩ | ⟨-, -, rfl⟩⟩ := execNormalize_next h
    · exact .failed nofun
    · exact .failed nofun
    · rw [commitNormalize_eq]
      exact .completed rfl rfl rfl
  | interp =>
    obtain ⟨-, rfl⟩ | ⟨-, o, -, rfl⟩ := execInterp_next h
    · exact .failed nofun
    · exact .completed rfl rfl rfl
  | osc =>
    obtain ⟨-, rfl⟩ | ⟨-, -, rfl⟩ | ⟨-, o, -, rfl⟩ := execOsc_next h
    · exact .failed nofun
    · exact .failed nofun
    · exact .completed rfl rfl rfl
  | synth =>
    obtain ⟨-, rfl⟩ | ⟨-, -, rfl⟩ | ⟨-, -, o, -, ⟨-, rfl⟩ | ⟨r, -, rfl⟩⟩ := execSynth_next h
    · exact .failed nofun
    · exact .failed nofun
    · exact .failed nofun
    · exact .completed rfl rfl rfl

/-- Every command has a meaning in every state: each branch of its checks and reads answers `next` or `fault`. -/
theorem exec_ne_refused (i : Instr) (s : State) (r : Refusal) : exec i s ≠ .refused r := by
  cases i with
  | nop | buildWindow | buildSine | synthReset => nofun
  | fft =>
    simp only [exec, execFft]
    split <;> nofun
  | loadFrame | window | peaks | analyze | interp | osc =>
    simp only [exec, execLoadFrame, execWindow, execPeaks, execAnalyze, execInterp, execOsc]
    split
    · nofun
    · split <;> nofun
  | normalize t =>
    simp only [exec, execNormalize]
    split
    · nofun
    · split_ifs <;> nofun
  | synth =>
    simp only [exec, execSynth]
    split_ifs
    · nofun
    · nofun
    · split
      · nofun
      · split <;> nofun

/-! ## NOP (40_control.md R88) -/

/-- Of the words of OP 0 the decoder takes 0 alone, the encoding of NOP. -/
theorem decode_of_nop_op {w : Word} (h : opField w = 0) :
    decode w = if w = 0 then .ok .nop else .error .reservedField := by
  by_cases hw : w = 0
  · rw [if_pos hw, hw]
    rfl
  · rw [if_neg hw]
    have hn : decode w ≠ .ok .nop := fun hd => hw (encode_of_decode hd).2.symm
    rw [decode_of_opField (i := .nop) h] at hn ⊢
    split_ifs at hn ⊢
    iterate 3 rfl
    exact absurd rfl hn

end Sys2Proof.Machine

section
open Sys2Proof Sys2Proof.Machine

/-- Settles O9: every command answers, and the end of one that does not fault is atomic. -/
theorem commandsAreAtomic : Obligations.CommandsAreAtomic := by
  intro i s
  cases h : exec i s with
  | fault f => exact .inl ⟨f, rfl⟩
  | refused r => exact absurd h (exec_ne_refused i s r)
  | next u =>
    cases exec_atomicEnd h with
    | failed hc => exact .inr (.inl ⟨_, hc, rfl, status_recordError_busy _ _⟩)
    | completed hbusy herrors hberr =>
      obtain ⟨herr, hmulti, hcode⟩ := ErrorRecord.mk.inj herrors
      exact .inr (.inr ⟨u, rfl, hbusy, herr, hmulti, hcode, hberr⟩)

/-- Settles O5: the turn runs the decoder on PENDING. -/
theorem stepRunsTheDecodedCommand : Obligations.StepRunsTheDecodedCommand :=
  fun _ _ => step_runs

/-- Settles O11: NOP is the completion alone, and its row leaves every field but OP zero. -/
theorem nopOnlyCompletes : Obligations.NopOnlyCompletes :=
  ⟨fun _ => rfl, fun w hw => decode_of_nop_op ((opField_eq w).trans hw)⟩

end

/-! PROOFS. The FFT family (41_fft.md): the recursion of the transform, the command FFT, and what the commands on FFTBUF
leave unchanged. -/

namespace Sys2Proof.Machine

/-! ## The halves by index (41_fft.md R91) -/

theorem evens_eq_map {α : Type} (d : α) : ∀ {m : Nat} {x : List α}, x.length = 2 * m →
    evens x = (List.range m).map (fun i => x.getD (2 * i) d)
  | 0, x, h => by rw [List.length_eq_zero_iff.1 h]; rfl
  | m + 1, a :: b :: x, h => by
    simp only [List.length_cons] at h
    rw [evens, evens_eq_map d (m := m) (by omega), List.range_succ_eq_map, List.map_cons, List.map_map]
    rfl

theorem odds_eq_map {α : Type} (d : α) : ∀ {m : Nat} {x : List α}, x.length = 2 * m →
    odds x = (List.range m).map (fun i => x.getD (2 * i + 1) d)
  | 0, x, h => by rw [List.length_eq_zero_iff.1 h]; rfl
  | m + 1, a :: b :: x, h => by
    simp only [List.length_cons] at h
    rw [odds, odds_eq_map d (m := m) (by omega), List.range_succ_eq_map, List.map_cons, List.map_map]
    rfl

theorem evens_length_half {α : Type} {m : Nat} {x : List α} (h : x.length = 2 * m) : (evens x).length = m := by
  rw [evens_length]
  omega

theorem odds_length_half {α : Type} {m : Nat} {x : List α} (h : x.length = 2 * m) : (odds x).length = m := by
  rw [odds_length]
  omega

/-! ## The butterfly by index (41_fft.md R92) -/

theorem getElem_twiddled (tr : Trig) (m : Nat) {k i : Nat} {os : List Cx} (h : i < (twiddled tr m k os).length) :
    (twiddled tr m k os)[i] = (twiddle tr m (k + i)).mul (os[i]'(by rwa [twiddled_length] at h)) := by
  induction os generalizing k i with
  | nil => cases h
  | cons o os ih =>
    cases i with
    | zero => rfl
    | succ i =>
      have hi := ih (k := k + 1) (i := i) (Nat.lt_of_succ_lt_succ h)
      rw [Nat.add_right_comm] at hi
      exact hi

section
variable {tr : Trig} {m n k : Nat} {e o : List Cx}

theorem butterfly_getD_lower (he : e.length = n) (ho : o.length = n) (hk : k < n) (d : Cx) :
    (butterfly tr m e o).getD k d = (e.getD k d).add ((twiddle tr m k).mul (o.getD k d)) := by
  subst he
  have hs : k < (List.zipWith Cx.add e (twiddled tr m 0 o)).length := by simp [twiddled_length, ho, hk]
  have hko : k < o.length := ho ▸ hk
  rw [butterfly, List.getD_append _ _ _ _ hs, List.getD_eq_getElem _ _ hs, List.getD_eq_getElem _ _ hk,
    List.getD_eq_getElem _ _ hko, List.getElem_zipWith, getElem_twiddled, Nat.zero_add]

theorem butterfly_getD_upper (he : e.length = n) (ho : o.length = n) (hk : k < n) (d : Cx) :
    (butterfly tr m e o).getD (k + n) d = (e.getD k d).sub ((twiddle tr m k).mul (o.getD k d)) := by
  subst he
  have hl : (List.zipWith Cx.add e (twiddled tr m 0 o)).length = e.length := by simp [twiddled_length, ho]
  have hs : k < (List.zipWith Cx.sub e (twiddled tr m 0 o)).length := by simp [twiddled_length, ho, hk]
  have hko : k < o.length := ho ▸ hk
  rw [butterfly, List.getD_append_right _ _ _ _ (by omega), hl, Nat.add_sub_cancel, List.getD_eq_getElem _ _ hs,
    List.getD_eq_getElem _ _ hk, List.getD_eq_getElem _ _ hko, List.getElem_zipWith, getElem_twiddled, Nat.zero_add]

end

/-! ## The recursion (41_fft.md R90, R91) -/

theorem fft_eq_fftLevels (tr : Trig) {l : Nat} {x : List Cx} (h : x.length = 2 ^ l) : fft tr x = fftLevels tr l x := by
  rw [fft, h, Nat.log2_two_pow]

/-- A transform of 2^(j+1) elements combines the transforms of its halves. -/
theorem fft_eq_butterfly (tr : Trig) {j : Nat} {x : List Cx} (h : x.length = 2 * 2 ^ j) :
    fft tr x = butterfly tr x.length (fft tr (evens x)) (fft tr (odds x)) := by
  rw [fft_eq_fftLevels tr (h.trans Nat.pow_succ'.symm), fftLevels, fft_eq_fftLevels tr (evens_length_half h),
    fft_eq_fftLevels tr (odds_length_half h)]

/-! ## What a command on FFTBUF leaves unchanged -/

/-- The two ends of LOAD_FRAME, WINDOW and FFT: an error recorded, or `n` elements of FFTBUF written. -/
inductive BufferEnd (s : State) (n : Nat) : State → Prop where
  | failed (c : ErrCode) : BufferEnd s n (s.cmdError c)
  | written {xs : List Cx} (hl : xs.length = n) : BufferEnd s n (s.writeFfts xs).complete

theorem execLoadFrame_bufferEnd {t : Tab} {f : Nat} {s u : State} (hl : s.params.legal = true)
    (h : execLoadFrame t f s = .next u) : BufferEnd s s.params.nfft u := by
  obtain ⟨-, rfl⟩ | ⟨-, b, hb, rfl⟩ := execLoadFrame_next h
  · exact .failed _
  · exact .written (load_length (bounds_of_legal hl).hop_le hb)

theorem execWindow_bufferEnd {s u : State} (h : execWindow s = .next u) : BufferEnd s s.params.win u := by
  obtain ⟨-, rfl⟩ | ⟨-, x, w, hx, -, rfl⟩ := execWindow_next h
  · exact .failed _
  · exact .written ((applyWindow_length x w).trans (readFfts_length hx))

theorem execFft_bufferEnd {s u : State} (hl : s.params.legal = true) (h : execFft s = .next u) :
    BufferEnd s s.params.nfft u := by
  obtain ⟨x, hx, rfl⟩ := execFft_next h
  exact .written (fft_buffer_length hl (readFfts_length hx))

/-- The state changes only in its cells, BUSY and the error record (60_exceptions.md R153); `draws` is the model's own. -/
theorem BufferEnd.state_eq {s u : State} {n : Nat} (h : BufferEnd s n u) :
    u = { s with
      mem := u.mem, draws := u.draws
      status := { s.status with
        busy := false, err := u.status.err, errMulti := u.status.errMulti, errcode := u.status.errcode } } := by
  cases h with
  | failed c =>
    unfold State.cmdError Status.recordError
    split <;> rfl
  | written => rfl

theorem BufferEnd.get_eq {s u : State} {n a : Nat} (h : BufferEnd s n u) (ha : a < fftAddr 0 ∨ fftAddr n ≤ a) :
    u.mem.get a = s.mem.get a := by
  cases h with
  | failed c => rfl
  | written hl => exact get_writeFfts (hl ▸ ha)

end Sys2Proof.Machine

section
open Sys2Proof Sys2Proof.Machine

/-- Settles O17: the halves by index are `evens` and `odds`, and the levels of the recursion are the logarithm of the length. -/
theorem fftIsTheRadixTwoRecursion : Obligations.FftIsTheRadixTwoRecursion := by
  refine ⟨fun _ _ => rfl, fun tr j x hx d => ?_⟩
  have he := (fft_length tr (evens_length_half hx)).trans (evens_length_half hx)
  have ho := (fft_length tr (odds_length_half hx)).trans (odds_length_half hx)
  rw [← evens_eq_map d hx, ← odds_eq_map d hx]
  refine ⟨fft_length tr (hx.trans Nat.pow_succ'.symm), fun k hk => ?_⟩
  rw [fft_eq_butterfly tr hx]
  exact ⟨butterfly_getD_lower he ho hk d, butterfly_getD_upper he ho hk d⟩

/-- Settles O16: the transform fills the buffer, and its elements are binary64 values, which read back as written. -/
theorem fftTransformsTheBuffer : Obligations.FftTransformsTheBuffer := by
  intro s x hl hx
  have hlen := fft_buffer_length hl (readFfts_length hx)
  have hread : (s.writeFfts (fft s.params.trig x)).readFfts s.params.nfft = .ok (fft s.params.trig x) := by
    rw [← hlen]
    exact readFfts_writeFfts s _ (fft_valid _ (readFfts_valid hx))
  refine ⟨(s.writeFfts (fft s.params.trig x)).complete, ?_, hread, rfl, fun a ha => get_writeFfts (hlen.symm ▸ ha)⟩
  rw [exec, execFft, hx]

/-- Settles O32: each command ends in an error or writes its elements from the first on. -/
theorem bufferCommandsChangeOnlyFftbuf : Obligations.BufferCommandsChangeOnlyFftbuf := by
  intro s u i n hl hi h
  have hend : BufferEnd s n u := by
    obtain ⟨rfl, rfl⟩ | ⟨rfl | ⟨t, f, rfl⟩, rfl⟩ := hi
    · exact execWindow_bufferEnd h
    · exact execFft_bufferEnd hl h
    · exact execLoadFrame_bufferEnd hl h
  exact ⟨hend.state_eq, fun a => hend.get_eq⟩

end

/-! PROOFS. The window family (42_window.md): what BUILD_WINDOW leaves in WINTAB and what WINDOW makes of FFTBUF. -/

namespace Sys2Proof.Machine

/-- WINTAB holds the coefficients that BUILD_WINDOW writes (42_window.md R95, R97). -/
theorem word_writeWintab (s : State) {i : Nat} (hi : i < s.params.win) :
    (s.writeWintab.mem.word (wintabAddr i)).map F64.ofWord = some (windowCoeff s.params.trig s.params.win i) := by
  have hlen : i < (sealAll s.draws (windowTable s.params)).length := by simpa [windowTable] using hi
  have haddr : wintabAddr i = wintabAddr 0 + 8 * i := rfl
  rw [writeWintab_mem, haddr, word_put_inside hlen, sealAll_getElem, Option.map_some,
    ofWord_toWord (windowTable_valid _ _ (List.getElem_mem _))]
  simp [windowTable]

/-- A buffer no longer than the window is scaled in every element (42_window.md R99). -/
theorem applyWindow_of_length_le {x : List Cx} {w : List F64} (h : x.length ≤ w.length) :
    applyWindow x w = List.zipWith Cx.scale x w := by
  rw [applyWindow_eq, List.drop_eq_nil_of_le h, List.append_nil]

theorem execWindow_winNotReady {s : State} (h : s.status.winReady = false) :
    execWindow s = .next (s.cmdError .winNotReady) := if_pos h

theorem execWindow_of_reads {s : State} {x : List Cx} {w : List F64} (hr : s.status.winReady = true)
    (hx : s.readFfts s.params.win = .ok x) (hw : s.readWintab = .ok w) :
    execWindow s = .next (s.writeFfts (applyWindow x w)).complete := by
  simp [execWindow, hr, hx, hw]

end Sys2Proof.Machine

section
open Sys2Proof Sys2Proof.Machine

/-- Settles O12: the coefficients are binary64 values, which read back as written, and they fill WINTAB. -/
theorem buildWindowBuildsTheHannTable : Obligations.BuildWindowBuildsTheHannTable :=
  fun s => ⟨_, rfl, fun _ hi => word_writeWintab s hi, rfl, fun _ ha => get_writeWintab ha⟩

/-- Settles O15: the window is as long as what WINDOW reads of FFTBUF, so every element that it writes back is scaled. -/
theorem windowScalesTheFirstElements : Obligations.WindowScalesTheFirstElements := by
  refine fun s => ⟨execWindow_winNotReady, fun x w hr hx hw => ?_⟩
  have hlen : (applyWindow x w).length = s.params.win := (applyWindow_length x w).trans (readFfts_length hx)
  have hscaled : applyWindow x w = List.zipWith Cx.scale x w :=
    applyWindow_of_length_le ((readFfts_length hx).trans (readWintab_length hw).symm).le
  have hread : (s.writeFfts (applyWindow x w)).readFfts s.params.win = .ok (applyWindow x w) := by
    rw [← hlen]
    exact readFfts_writeFfts s _ (applyWindow_valid w (readFfts_valid hx))
  exact ⟨_, execWindow_of_reads hr hx hw, hread.trans (congrArg _ hscaled), rfl,
    fun a ha => get_writeFfts (hlen.symm ▸ ha)⟩

end

/-! PROOFS. The peak family (43_peaks.md): which bins are peaks, their ranking, the entries the extractor makes of them, and
what the commands on an analysis table leave unchanged. -/

namespace Sys2Proof.Machine

/-! ## The order of the non-NaN values (00_scope.md R11) -/

/-- The place of a value in the order of the comparisons; a NaN, which is in no comparison, gets 0. -/
def F64.order : F64 → Int
  | .nan => 0
  | .num neg m => F64.key neg m

section
variable {a b : F64}

theorem lt_eq_true_iff : F64.lt a b = true ↔ a ≠ .nan ∧ b ≠ .nan ∧ a.order < b.order := by
  cases a <;> cases b <;> simp [F64.lt, F64.order]

theorem le_eq_true_iff : F64.le a b = true ↔ a ≠ .nan ∧ b ≠ .nan ∧ a.order ≤ b.order := by
  cases a <;> cases b <;> simp [F64.le, F64.order]

theorem eq_eq_true_iff : F64.eq a b = true ↔ a ≠ .nan ∧ b ≠ .nan ∧ a.order = b.order := by
  cases a <;> cases b <;> simp [F64.eq, F64.order]

end

/-! ## Sorting by a key

Neither order the extractor sorts by is total on all values, since a NaN is in no comparison; each agrees on the sorted list
with the order of a key. -/

theorem pairwise_insertionSort_of_key {α β : Type} [LinearOrder β] {r : α → α → Prop} [DecidableRel r] {key : α → β}
    {l : List α} (h : ∀ a ∈ l, ∀ b ∈ l, r a b ↔ key a ≤ key b) :
    (l.insertionSort r).Pairwise (fun a b => key a ≤ key b) := by
  rw [← List.pairwise_map (f := key) (R := (· ≤ ·)), List.map_insertionSort r (· ≤ ·) key l h]
  exact List.pairwise_insertionSort _ _

/-! ## The peaks (R103, R104) -/

section
variable {k j : Nat} {mag : List F64}

theorem mem_peakBins : j ∈ peakBins k mag ↔ (1 ≤ j ∧ j < k)
    ∧ F64.lt (magAt mag (j - 1)) (magAt mag j) = true ∧ F64.le (magAt mag (j + 1)) (magAt mag j) = true := by
  simp only [peakBins, isPeak, List.mem_filter, List.mem_range, Bool.and_eq_true, decide_eq_true_eq]
  rw [← and_assoc, and_comm (a := j < k)]

theorem peakBins_sorted (k : Nat) (mag : List F64) : (peakBins k mag).Pairwise (· < ·) :=
  List.pairwise_lt_range.filter _

theorem magAt_eq_iff {c : F64} (h : j < mag.length) : mag[j]? = some c ↔ magAt mag j = c := by
  rw [magAt, List.getD_eq_getElem _ _ h, List.getElem?_eq_getElem h, Option.some_inj]

/-- The magnitude of a peak is a number (R105 (3)). -/
theorem magAt_ne_nan_of_mem_peakBins (h : j ∈ peakBins k mag) : magAt mag j ≠ .nan :=
  (lt_eq_true_iff.1 (mem_peakBins.1 h).2.1).2.1

/-- A bin not above its left neighbour is no peak. -/
theorem not_mem_peakBins_of_le (h : (magAt mag (j + 1)).order ≤ (magAt mag j).order) : j + 1 ∉ peakBins k mag := by
  intro hj
  obtain ⟨-, -, hlt⟩ := lt_eq_true_iff.1 (mem_peakBins.1 hj).2.1
  exact absurd hlt (not_lt.2 h)

end

/-! ## The ranking (R107) -/

/-- What RANK is sorted by: magnitude descending, then bin ascending. -/
def rankKey (mag : List F64) (j : Nat) : Int ×ₗ Nat := toLex (-(magAt mag j).order, j)

section
variable {mag : List F64} {i j : Nat} (hi : magAt mag i ≠ .nan) (hj : magAt mag j ≠ .nan)
include hi hj

theorem ranksBefore_iff : ranksBefore mag i j = true ↔ rankKey mag i ≤ rankKey mag j := by
  simp only [ranksBefore, Bool.or_eq_true, Bool.and_eq_true, decide_eq_true_eq, lt_eq_true_iff, eq_eq_true_iff, rankKey,
    Prod.Lex.toLex_le_toLex, hi, hj, neg_lt_neg_iff, neg_inj, ne_eq, not_false_eq_true, true_and]

/-- Two different bins in ranking order are strictly so. -/
theorem rank_strict (hne : i ≠ j) (h : rankKey mag i ≤ rankKey mag j) :
    F64.lt (magAt mag j) (magAt mag i) = true ∨ (F64.eq (magAt mag i) (magAt mag j) = true ∧ i < j) := by
  have hr := (ranksBefore_iff hi hj).2 h
  simp only [ranksBefore, Bool.or_eq_true, Bool.and_eq_true, decide_eq_true_eq] at hr
  exact hr.imp_right (And.imp_right fun hle => lt_of_le_of_ne hle hne)

end

theorem rankPeaks_perm (mag : List F64) (bins : List Nat) : (rankPeaks mag bins).Perm bins :=
  List.perm_insertionSort _ _

theorem rankPeaks_length (mag : List F64) (bins : List Nat) : (rankPeaks mag bins).length = bins.length :=
  (rankPeaks_perm mag bins).length_eq

theorem rankPeaks_sorted {mag : List F64} {bins : List Nat} (h : ∀ j ∈ bins, magAt mag j ≠ .nan) :
    (rankPeaks mag bins).Pairwise (fun i j => rankKey mag i ≤ rankKey mag j) :=
  pairwise_insertionSort_of_key fun i hi j hj => ranksBefore_iff (h i hi) (h j hj)

/-! ## The frequencies of the entries are numbers (R106, R109) -/

theorem mul_ne_nan {x y : F64} (hx : x.isFinite = true) (hy : y.isFinite = true) : x.mul y ≠ .nan := by
  cases x with
  | nan => cases hx
  | num na ma =>
    cases y with
    | nan => cases hy
    | num nb mb =>
      have ha : ma ≠ infMag := (of_decide_eq_true hx).ne
      have hb : mb ≠ infMag := (of_decide_eq_true hy).ne
      rw [F64.mul, if_neg ha, if_neg hb]
      nofun

/-- A number over a finite nonzero value is a number. -/
theorem div_num_ne_nan {x : F64} (hx : x ≠ .nan) {neg : Bool} {m : Nat} (h0 : m ≠ 0) (hm : m < infMag) :
    x.div (.num neg m) ≠ .nan := by
  cases x with
  | nan => exact absurd rfl hx
  | num na ma =>
    simp only [F64.div, hm.ne, h0, if_false]
    split <;> nofun

/-- A positive count is a finite nonzero binary64 value (00_scope.md R13). -/
theorem ofNat_eq_num {k : Nat} (h0 : 0 < k) (hk : k < 2 ^ 53) :
    ∃ m, F64.ofNat k = .num false m ∧ m ≠ 0 ∧ m < infMag := by
  obtain ⟨hu, hlt⟩ := ofNat_mag hk
  refine ⟨_, rfl, fun hz => ?_, hlt⟩
  have hzero : magUnits 0 = 0 := rfl
  rw [hz, hzero] at hu
  obtain hk0 | hp := Nat.mul_eq_zero.1 hu.symm
  · exact h0.ne' hk0
  · exact (Nat.two_pow_pos _).ne' hp

theorem legalRate_finite {w : Word} (h : legalRate w = true) : (F64.ofWord w).isFinite = true := by
  rw [legalRate, Bool.and_eq_true, le_eq_true_iff, le_eq_true_iff] at h
  obtain ⟨⟨-, hn, hge⟩, -, -, hle⟩ := h
  generalize F64.ofWord w = v at *
  cases v with
  | nan => exact absurd rfl hn
  | num neg m =>
    cases neg with
    | false =>
      simp only [F64.order, F64.key, Bool.false_eq_true, if_false] at hle
      exact decide_eq_true (by unfold infMag; omega)
    | true =>
      simp only [F64.order, F64.key, F64.one, Bool.false_eq_true, if_false, if_true] at hge
      omega

theorem binFreq_ne_nan {sr : F64} (hs : sr.isFinite = true) {nfft j : Nat} (hn0 : 0 < nfft) (hn : nfft < 2 ^ 53)
    (hj : j < 2 ^ 53) : binFreq sr nfft j ≠ .nan := by
  obtain ⟨m, hm, hm0, hmi⟩ := ofNat_eq_num hn0 hn
  rw [binFreq, hm]
  exact div_num_ne_nan (mul_ne_nan (x := F64.ofNat j) (decide_eq_true (ofNat_mag hj).2) hs) hm0 hmi

theorem sentinel_freq_ne_nan {sr : F64} (hs : sr.isFinite = true) : (sentinel sr).freq ≠ .nan :=
  div_num_ne_nan (by rintro rfl; cases hs) (by decide) (by decide)

/-! ## The extractor (R108 to R112) -/

/-- The chosen entries have numbers for frequencies. -/
theorem chooseEntries_freq_ne_nan {sr : F64} (hs : sr.isFinite = true) {nfft n : Nat} {mag : List F64} {rank : List Nat}
    (hn0 : 0 < nfft) (hn : nfft < 2 ^ 53) (hr : ∀ j ∈ rank, j < nfft) :
    ∀ e ∈ chooseEntries sr nfft n mag rank, e.freq ≠ .nan := by
  intro e he
  rcases List.mem_append.1 he with he | he
  · obtain ⟨j, hj, rfl⟩ := List.mem_map.1 he
    exact binFreq_ne_nan hs hn0 hn ((hr j (List.mem_of_mem_take hj)).trans hn)
  · rw [(List.mem_replicate.1 he).2]
    exact sentinel_freq_ne_nan hs

theorem sortByFreq_perm (es : List Entry) : (sortByFreq es).Perm es := List.perm_insertionSort _ _

theorem sortByFreq_sorted {es : List Entry} (h : ∀ e ∈ es, e.freq ≠ .nan) :
    (sortByFreq es).Pairwise (fun a b => F64.le a.freq b.freq = true) := by
  have hle : ∀ a ∈ es, ∀ b ∈ es, F64.le a.freq b.freq = true ↔ a.freq.order ≤ b.freq.order := fun a ha b hb => by
    simp [le_eq_true_iff, h a ha, h b hb]
  have hmem := fun e => (sortByFreq_perm es).mem_iff (a := e)
  exact (pairwise_insertionSort_of_key hle).imp_of_mem fun ha hb =>
    (hle _ ((hmem _).1 ha) _ ((hmem _).1 hb)).2

/-- The extractor on the K + 1 bins that it reads. -/
theorem extract_eq {nfft : Nat} {sr : F64} {n : Nat} {x : List Cx} (h : x.length = nfft / 2 + 1) :
    extract nfft sr n x =
      (sortByFreq (chooseEntries sr nfft n (x.map binMag) (rankPeaks (x.map binMag) (peakBins (nfft / 2) (x.map binMag)))),
        (peakBins (nfft / 2) (x.map binMag)).length) := by
  rw [extract, List.take_of_length_le h.le]

/-- The frequencies of the extractor's entries ascend (R110). -/
theorem extract_sorted {p : Params} (hp : p.legal = true) {sr : F64} (hs : sr.isFinite = true) (n : Nat) (x : List Cx) :
    (extract p.nfft sr n x).1.Pairwise (fun a b => F64.le a.freq b.freq = true) := by
  have hle := (bounds_of_legal hp).nfft_le
  have hpos := (bounds_of_legal hp).win_lt
  refine sortByFreq_sorted (chooseEntries_freq_ne_nan hs (by omega) (by omega) fun j hj => ?_)
  have hk := (mem_peakBins.1 ((rankPeaks_perm _ _).mem_iff.1 hj)).1
  omega

/-! ## PEAKS (R116) -/

theorem execPeaks_of_reads {s : State} {t : Tab} {f : Nat} {x : List Cx} (hf : f < s.frames t)
    (hx : s.readFfts (s.params.nfft / 2 + 1) = .ok x) :
    execPeaks t f s =
      .next (((s.writeEntries t f (extract s.params.nfft (F64.ofWord (s.sr.get t)) s.voiceCount x).1).setPeakCount
        (extract s.params.nfft (F64.ofWord (s.sr.get t)) s.voiceCount x).2).setNorm t false).complete := by
  rw [execPeaks, if_neg hf.not_ge, hx]

/-- The extractor's entries in a table read back. -/
theorem read_writeExtracted (s : State) (t : Tab) (f : Nat) {nfft n i : Nat} {sr : F64} {x : List Cx} (hi : i < n) :
    ∃ e, (extract nfft sr n x).1[i]? = some e
      ∧ (s.writeEntries t f (extract nfft sr n x).1).readFreq t f i = .ok e.freq
      ∧ (s.writeEntries t f (extract nfft sr n x).1).readAmp t f i = .ok e.amp := by
  have hlt : i < (extract nfft sr n x).1.length := hi.trans_eq (extract_length ..).symm
  exact ⟨_, List.getElem?_eq_getElem hlt, read_writeEntries s t f i _ hlt (extract_valid nfft sr n x)⟩

theorem get_writeExtracted {s : State} {t : Tab} {f nfft n a : Nat} {sr : F64} {x : List Cx}
    (h : a < atabAddr s.params t f 0 ∨ atabAddr s.params t f n ≤ a) :
    (s.writeEntries t f (extract nfft sr n x).1).mem.get a = s.mem.get a :=
  get_writeEntries ((extract_length nfft sr n x).symm ▸ h)

/-! ## What a command on an analysis table leaves unchanged (R116, 44_analysis.md R126, R128) -/

/-- A STATUS with BUSY cleared, and NORM_T and the error record of another. -/
def Status.tableEnd (st st' : Status) (t : Tab) : Status :=
  { st with
    busy := false, norm := st.norm.set t (st'.norm.get t), err := st'.err, errMulti := st'.errMulti, errcode := st'.errcode }

@[simp] theorem AB_set_get_self {α : Type} (p : AB α) (t : Tab) : p.set t (p.get t) = p := by
  cases t <;> rfl

theorem recordError_tableEnd (st : Status) (c : ErrCode) (t : Tab) : st.tableEnd (st.recordError c) t = st.recordError c := by
  rw [Status.tableEnd, status_recordError_norm, AB_set_get_self]
  unfold Status.recordError
  split <;> rfl

theorem setNorm_tableEnd (st : Status) (t : Tab) (v : Bool) :
    st.tableEnd (st.setNorm t v).clearBusy t = (st.setNorm t v).clearBusy := by
  simp only [Status.tableEnd, Status.clearBusy, Status.setNorm, AB_get_set_same]

/-- PEAKS or ANALYZE changed only cells, PEAK_COUNT, NORM_T, BUSY and the error record; `draws` is the model's own. -/
def OnlyEntriesAndCount (s u : State) (t : Tab) : Prop :=
  u = { s with mem := u.mem, draws := u.draws, peakCount := u.peakCount, status := s.status.tableEnd u.status t }

theorem onlyEntriesAndCount_cmdError (s : State) (c : ErrCode) (t : Tab) : OnlyEntriesAndCount s (s.cmdError c) t := by
  rw [OnlyEntriesAndCount, cmdError_status, recordError_tableEnd]
  rfl

/-- A completion after cells, PEAK_COUNT and NORM_T. -/
theorem onlyEntriesAndCount_complete {s v : State} (t : Tab) (b : Bool)
    (h : v = { s with mem := v.mem, draws := v.draws, peakCount := v.peakCount }) :
    OnlyEntriesAndCount s (v.setNorm t b).complete t := by
  have hst : (v.setNorm t b).complete.status = (s.status.setNorm t b).clearBusy := by rw [h]; rfl
  rw [OnlyEntriesAndCount, hst, setNorm_tableEnd, h]
  rfl

theorem execPeaks_frame {s u : State} {t : Tab} {f : Nat} (h : execPeaks t f s = .next u) :
    OnlyEntriesAndCount s u t
      ∧ ∀ a, (a < atabAddr s.params t f 0 ∨ atabAddr s.params t f s.voiceCount ≤ a) → u.mem.get a = s.mem.get a := by
  obtain ⟨-, rfl⟩ | ⟨-, x, -, rfl⟩ := execPeaks_next h
  · exact ⟨onlyEntriesAndCount_cmdError s _ t, fun _ _ => rfl⟩
  · exact ⟨onlyEntriesAndCount_complete t false rfl, fun _ ha => get_writeExtracted ha⟩

/-- Each analysed frame has a spectrum of P_NFFT elements and N entries. -/
theorem analyseFrame_lengths {s : State} {t : Tab} {f : Nat} {r : FrameResult} (hl : s.params.legal = true)
    (h : s.analyseFrame t f = .ok r) : r.spectrum.length = s.params.nfft ∧ r.entries.length = s.voiceCount := by
  obtain ⟨b, w, hload, -, rfl⟩ := analyseFrame_ok h
  have hb := load_length (bounds_of_legal hl).hop_le hload
  exact ⟨fft_buffer_length hl ((applyWindow_length b w).trans hb), extract_length ..⟩

/-- Writing the analysed frames and leaving the last in FFTBUF keeps every other byte. -/
theorem get_leaveLast_writeFrames {s : State} {t : Tab} {rs : List FrameResult} (hl : s.params.legal = true)
    (hrs : allOk ((List.range (s.frames t)).map (s.analyseFrame t)) = .ok rs) {a : Nat}
    (ha : ∀ f, f < s.frames t → a < atabAddr s.params t f 0 ∨ atabAddr s.params t f s.voiceCount ≤ a)
    (hb : s.frames t = 0 ∨ a < fftAddr 0 ∨ fftAddr s.params.nfft ≤ a) :
    ((State.writeFrames t 0 rs s).leaveLast rs.getLast?).mem.get a = s.mem.get a := by
  have hlen : rs.length = s.frames t := by simpa using allOk_length hrs
  have hr : ∀ r ∈ rs, r.spectrum.length = s.params.nfft ∧ r.entries.length = s.voiceCount := fun r hr =>
    have ⟨_, _, hf⟩ := mem_allOk hrs r hr
    analyseFrame_lengths hl hf
  have hframes : (State.writeFrames t 0 rs s).mem.get a = s.mem.get a :=
    get_writeFrames rs 0 s (fun r h => (hr r h).2) fun g _ hg => ha g (by omega)
  cases hlast : rs.getLast? with
  | none => exact hframes
  | some r =>
    have hmem := List.mem_of_getLast? hlast
    have hpos := List.length_pos_of_mem hmem
    refine Eq.trans (get_writeFfts ?_) hframes
    rw [(hr r hmem).1]
    exact hb.resolve_left (by omega)

theorem execAnalyze_frame {s u : State} {t : Tab} (hl : s.params.legal = true) (h : execAnalyze t s = .next u) :
    OnlyEntriesAndCount s u t
      ∧ ∀ a, (∀ f, f < s.frames t → a < atabAddr s.params t f 0 ∨ atabAddr s.params t f s.voiceCount ≤ a) →
        (s.frames t = 0 ∨ a < fftAddr 0 ∨ fftAddr s.params.nfft ≤ a) → u.mem.get a = s.mem.get a := by
  obtain ⟨-, rfl⟩ | ⟨-, rs, hrs, rfl⟩ := execAnalyze_next h
  · exact ⟨onlyEntriesAndCount_cmdError s _ t, fun _ _ _ => rfl⟩
  · exact ⟨onlyEntriesAndCount_complete t false (leaveLast_writeFrames_eq t rs s _),
      fun _ ha hb => get_leaveLast_writeFrames hl hrs ha hb⟩

/-- NORMALIZE changed only cells, NORM_MAX_T, NORM_T, BUSY and the error record; `draws` is the model's own. -/
def OnlyAmpsAndMaximum (s u : State) (t : Tab) : Prop :=
  u = { s with
    mem := u.mem, draws := u.draws, normMax := s.normMax.set t (u.normMax.get t), status := s.status.tableEnd u.status t }

theorem onlyAmpsAndMaximum_cmdError (s : State) (c : ErrCode) (t : Tab) : OnlyAmpsAndMaximum s (s.cmdError c) t := by
  rw [OnlyAmpsAndMaximum, cmdError_status, recordError_tableEnd, cmdError_normMax, AB_set_get_self]
  rfl

theorem commitNormalize_normMax (s : State) (t : Tab) (es : List (Nat × Nat)) (amps : List F64) (m : F64) :
    ∃ w, (s.commitNormalize t es amps m).normMax = s.normMax.set t w := by
  rw [State.commitNormalize, writeAmps_eq]
  exact ⟨_, rfl⟩

theorem onlyAmpsAndMaximum_commitNormalize (s : State) (t : Tab) (es : List (Nat × Nat)) (amps : List F64) (m : F64) :
    OnlyAmpsAndMaximum s (s.commitNormalize t es amps m).complete t := by
  obtain ⟨w, hw⟩ := commitNormalize_normMax s t es amps m
  rw [commitNormalize_eq, hw, OnlyAmpsAndMaximum, complete_status, setNorm_tableEnd, complete_normMax, AB_get_set_same]
  rfl

/-- Dividing the scanned amplitudes keeps every byte outside their AMP fields. -/
theorem get_commitNormalize {s : State} {t : Tab} (amps : List F64) (m : F64) {a : Nat}
    (ha : ∀ f n, f < s.frames t → n < s.voiceCount → a < atabAddr s.params t f n + 8 ∨ atabAddr s.params t f n + 16 ≤ a) :
    (s.commitNormalize t (scanned (s.frames t) s.voiceCount) amps m).mem.get a = s.mem.get a := by
  refine get_writeAmps _ s fun ⟨⟨f, n⟩, v⟩ he => ?_
  obtain ⟨hf, hn⟩ := mem_scanned.1 (List.of_mem_zip he).1
  exact ha f n hf hn

theorem execNormalize_frame {s u : State} {t : Tab} (h : execNormalize t s = .next u) :
    OnlyAmpsAndMaximum s u t
      ∧ ∀ a, (∀ f n, f < s.frames t → n < s.voiceCount →
        a < atabAddr s.params t f n + 8 ∨ atabAddr s.params t f n + 16 ≤ a) → u.mem.get a = s.mem.get a := by
  obtain ⟨amps, -, ⟨-, rfl⟩ | ⟨-, -, rfl⟩ | ⟨-, -, rfl⟩⟩ := execNormalize_next h
  · exact ⟨onlyAmpsAndMaximum_cmdError s _ t, fun _ _ => rfl⟩
  · exact ⟨onlyAmpsAndMaximum_cmdError s _ t, fun _ _ => rfl⟩
  · exact ⟨onlyAmpsAndMaximum_commitNormalize s t _ amps _, fun _ => get_commitNormalize amps _⟩

end Sys2Proof.Machine

section
open Sys2Proof Sys2Proof.Machine

/-- Settles O19: every bin of the scan range has both neighbours in the list. -/
theorem peaksAreTheAsymmetricLocalMaxima : Obligations.PeaksAreTheAsymmetricLocalMaxima := by
  intro k mag hlen
  refine ⟨peakBins_sorted k mag, fun j => ⟨fun hj => ?_, ?_⟩⟩
  · obtain ⟨⟨h1, hk⟩, hlt, hle⟩ := mem_peakBins.1 hj
    exact ⟨_, _, _, h1, by omega, (magAt_eq_iff (by omega)).2 rfl, (magAt_eq_iff (by omega)).2 rfl,
      (magAt_eq_iff (by omega)).2 rfl, hlt, hle⟩
  · rintro ⟨l, c, r, h1, hk, hl, hc, hr, hlt, hle⟩
    rw [magAt_eq_iff (by omega)] at hl hc hr
    subst hl hc hr
    exact mem_peakBins.2 ⟨⟨h1, by omega⟩, hlt, hle⟩

/-- Settles O20: the bin after a peak and the later bins of a plateau are not above their left neighbour. -/
theorem aPlateauHasOnePeak : Obligations.APlateauHasOnePeak := by
  intro k mag _
  refine ⟨fun j hj => ?_, fun a b ha hab hb hak hlt heq => ⟨?_, fun j haj hjb => ?_⟩⟩
  · obtain ⟨-, -, hle⟩ := mem_peakBins.1 hj
    exact not_mem_peakBins_of_le (le_eq_true_iff.1 hle).2.2
  · obtain ⟨hn, hn', ho⟩ := eq_eq_true_iff.1 (heq a le_rfl hab)
    exact mem_peakBins.2 ⟨⟨ha, by omega⟩, hlt, le_eq_true_iff.2 ⟨hn', hn, ho.ge⟩⟩
  · obtain ⟨i, rfl⟩ := Nat.exists_eq_add_of_lt haj
    obtain ⟨-, -, ho⟩ := eq_eq_true_iff.1 (heq (a + i) (by omega) (by omega))
    exact not_mem_peakBins_of_le ho.ge

/-- Settles O21: RANK is sorted by its key, and the peaks are different bins. -/
theorem peaksAreRankedByMagnitudeThenBin : Obligations.PeaksAreRankedByMagnitudeThenBin := by
  intro k mag _ rank
  have hperm : rank.Perm (peakBins k mag) := rankPeaks_perm mag _
  have hnum : ∀ j ∈ rank, magAt mag j ≠ .nan := fun j hj => magAt_ne_nan_of_mem_peakBins (hperm.mem_iff.1 hj)
  have hnodup : rank.Nodup := hperm.nodup_iff.2 ((peakBins_sorted k mag).imp Nat.ne_of_lt)
  have hsorted := rankPeaks_sorted fun j hj => magAt_ne_nan_of_mem_peakBins (k := k) (mag := mag) hj
  exact ⟨hperm, (hnodup.and hsorted).imp_of_mem fun hi hj h => rank_strict (hnum _ hi) (hnum _ hj) h.1 h.2⟩

/-- Settles O22: the frequencies of a legal rate's bins and sentinel are numbers, which the sort puts in order. -/
theorem extractReturnsNSortedEntries : Obligations.ExtractReturnsNSortedEntries := by
  intro p sr n x hp hsr hx mag peaks r
  have hr : r = _ := extract_eq hx
  refine ⟨congrArg Prod.snd hr, extract_length .., extract_sorted hp (legalRate_finite hsr) n x, ?_⟩
  have hperm : r.1.Perm (chooseEntries (F64.ofWord sr) p.nfft n mag (rankPeaks mag peaks)) := by
    rw [hr]
    exact sortByFreq_perm _
  rwa [chooseEntries, rankPeaks_length] at hperm

/-- Settles O18: the entries are binary64 values, which read back as written, and they fill N entries of the frame. -/
theorem peaksWritesTheExtractedEntries : Obligations.PeaksWritesTheExtractedEntries := by
  refine fun s t f => ⟨fun hf => if_pos hf, fun x hf hx => ?_⟩
  exact ⟨_, execPeaks_of_reads hf hx, fun _ hn => read_writeExtracted s t f hn, rfl, fun _ ha => get_writeExtracted ha⟩

/-- Settles O33: each command ends in an error or writes its entries and registers. -/
theorem tableCommandsChangeOnlyTheirTable : Obligations.TableCommandsChangeOnlyTheirTable :=
  fun _ _ _ hl => ⟨fun _ => execPeaks_frame, execAnalyze_frame hl, execNormalize_frame⟩

end

/-! PROOFS. The analysis family (44_analysis.md): the frame loader, ANALYZE over every frame, and the scan and the division of
NORMALIZE. -/

namespace Sys2Proof.Machine

/-! ## FFTBUF and the frame loader (R119, R120) -/

/-- A buffer of `n` binary64 elements reads back as it was written. -/
theorem readFfts_writeFfts_of_length {s : State} {xs : List Cx} {n : Nat} (hl : xs.length = n) (hv : ∀ x ∈ xs, x.valid) :
    (s.writeFfts xs).readFfts n = .ok xs :=
  hl ▸ readFfts_writeFfts s xs hv

theorem map_range_append_replicate {α : Type} (g : Nat → α) (z : α) {n m : Nat} (h : n ≤ m) :
    (List.range n).map g ++ List.replicate (m - n) z = (List.range m).map (fun i => if i < n then g i else z) := by
  refine List.ext_getElem (by simp; omega) fun i hi _ => ?_
  simp [List.getElem_append]

/-- A frame whose samples are written loads as the widened samples, then zeros up to P_NFFT. -/
theorem load_of_samples {s : State} {t : Tab} {f : Nat} {x : Nat → BitVec 32} (hl : s.params.legal = true)
    (hx : ∀ i, i < s.frameLen t f → s.mem.half (inbufAddr t (f * s.params.hop + i)) = some (x i)) :
    s.load t f = .ok ((List.range s.params.nfft).map (fun i =>
      if i < s.frameLen t f then ⟨F64.ofBinary32 (x i), F64.zero⟩ else ⟨F64.zero, F64.zero⟩)) := by
  have hle : s.frameLen t f ≤ s.params.nfft := (Nat.min_le_left _ _).trans (bounds_of_legal hl).hop_le
  rw [State.load, readSamples_eq hx]
  simp only [List.map_map]
  rw [← map_range_append_replicate _ _ hle]
  rfl

theorem execLoadFrame_of_load {s : State} {t : Tab} {f : Nat} {b : List Cx} (hf : f < s.frames t)
    (hb : s.load t f = .ok b) : execLoadFrame t f s = .next (s.writeFfts b).complete := by
  rw [execLoadFrame, if_neg hf.not_ge, hb]

/-! ## ANALYZE (R122, R126) -/

/-- What `analyse_frame` answers (R122) for the loaded buffer `b` and the window `w`. -/
def State.frameResult (s : State) (t : Tab) (w : List F64) (b : List Cx) : FrameResult where
  spectrum := fft s.params.trig (applyWindow b w)
  entries := (extract s.params.nfft (F64.ofWord (s.sr.get t)) s.voiceCount (fft s.params.trig (applyWindow b w))).1
  count := (extract s.params.nfft (F64.ofWord (s.sr.get t)) s.voiceCount (fft s.params.trig (applyWindow b w))).2

/-- The results of every frame of recording `t`, for the loaded buffers `b f` (R126). -/
def State.frameResults (s : State) (t : Tab) (w : List F64) (b : Nat → List Cx) : List FrameResult :=
  (List.range (s.frames t)).map (fun f => s.frameResult t w (b f))

/-- The state with the entries of every frame written and the last frame left in FFTBUF and PEAK_COUNT (R126). -/
def State.analyzed (s : State) (t : Tab) (w : List F64) (b : Nat → List Cx) : State :=
  (State.writeFrames t 0 (s.frameResults t w b) s).leaveLast (s.frameResults t w b).getLast?

section
variable {s : State} {t : Tab} {w : List F64} {b : Nat → List Cx}

theorem analyseFrame_of_reads {f : Nat} (hw : s.readWintab = .ok w) (hb : s.load t f = .ok (b f)) :
    s.analyseFrame t f = .ok (s.frameResult t w (b f)) := by
  rw [State.analyseFrame, hb, hw]
  rfl

theorem execAnalyze_of_reads (hr : s.status.winReady = true) (hw : s.readWintab = .ok w)
    (hb : ∀ f, f < s.frames t → s.load t f = .ok (b f)) :
    execAnalyze t s = .next ((s.analyzed t w b).setNorm t false).complete := by
  have hrs : allOk ((List.range (s.frames t)).map (s.analyseFrame t)) = .ok (s.frameResults t w b) :=
    allOk_map_ok fun f hf => analyseFrame_of_reads hw (hb f (List.mem_range.1 hf))
  rw [execAnalyze, if_neg (by simp [hr]), hrs]
  rfl

theorem frameResults_getElem? {f : Nat} (hf : f < s.frames t) :
    (s.frameResults t w b)[f]? = some (s.frameResult t w (b f)) := by
  rw [State.frameResults, List.getElem?_map, List.getElem?_range hf, Option.map_some]

theorem frameResults_getLast? : (s.frameResults t w b).getLast?
    = if s.frames t = 0 then none else some (s.frameResult t w (b (s.frames t - 1))) := by
  rw [State.frameResults, List.getLast?_map, List.getLast?_range]
  split <;> rfl

theorem mem_frameResults {r : FrameResult} (h : r ∈ s.frameResults t w b) :
    ∃ f, f < s.frames t ∧ r = s.frameResult t w (b f) := by
  obtain ⟨f, hf, rfl⟩ := List.mem_map.1 h
  exact ⟨f, List.mem_range.1 hf, rfl⟩

/-- Each loaded frame fills the buffer with binary64 values, and so does its spectrum. -/
theorem frameResult_spectrum {f : Nat} (hl : s.params.legal = true) (hb : s.load t f = .ok (b f)) :
    (s.frameResult t w (b f)).spectrum.length = s.params.nfft ∧ ∀ z ∈ (s.frameResult t w (b f)).spectrum, z.valid :=
  ⟨fft_buffer_length hl ((applyWindow_length _ w).trans (load_length (bounds_of_legal hl).hop_le hb)),
    fft_valid _ (applyWindow_valid w (load_valid hb))⟩

/-- ANALYZE changes only cells and PEAK_COUNT, which is the last frame's count if there is a frame; `draws` is the model's
own. -/
theorem analyzed_eq : s.analyzed t w b = { s with
    mem := (s.analyzed t w b).mem
    draws := (s.analyzed t w b).draws
    peakCount := if s.frames t = 0 then s.peakCount
      else BitVec.ofNat 64 (s.frameResult t w (b (s.frames t - 1))).count } := by
  have hcount : (s.analyzed t w b).peakCount
      = if s.frames t = 0 then s.peakCount else BitVec.ofNat 64 (s.frameResult t w (b (s.frames t - 1))).count := by
    rw [State.analyzed, frameResults_getLast?, writeFrames_eq]
    split <;> rfl
  rw [← hcount]
  exact leaveLast_writeFrames_eq t _ s _

/-- FFTBUF holds the last frame's spectrum. -/
theorem readFfts_analyzed (hl : s.params.legal = true) (hb : ∀ f, f < s.frames t → s.load t f = .ok (b f))
    (hpos : 0 < s.frames t) :
    (s.analyzed t w b).readFfts s.params.nfft = .ok (s.frameResult t w (b (s.frames t - 1))).spectrum := by
  obtain ⟨hlen, hv⟩ := frameResult_spectrum (w := w) hl (hb (s.frames t - 1) (Nat.sub_one_lt hpos.ne'))
  rw [State.analyzed, frameResults_getLast?, if_neg hpos.ne']
  exact readFfts_writeFfts_of_length hlen hv

end

/-- The elements of FFTBUF end below the analysis tables (20_memory.md R62). -/
theorem Bounds.fftAddr_le_atabAddr {p : Params} (h : Bounds p) (t : Tab) (f n : Nat) : fftAddr p.nfft ≤ atabAddr p t f n := by
  have := h.nfft_le
  have := atab_ge p t f n
  unfold fftAddr
  omega

/-- What is left in FFTBUF and PEAK_COUNT is outside the analysis tables. -/
theorem read_leaveLast {s : State} (hp : Bounds s.params) {o : Option FrameResult}
    (ho : ∀ r ∈ o, r.spectrum.length = s.params.nfft) (t : Tab) (f n : Nat) :
    (s.leaveLast o).readFreq t f n = s.readFreq t f n ∧ (s.leaveLast o).readAmp t f n = s.readAmp t f n := by
  cases o with
  | none => exact ⟨rfl, rfl⟩
  | some r =>
    have hget : ∀ a, fftAddr s.params.nfft ≤ a → (s.writeFfts r.spectrum).mem.get a = s.mem.get a := fun a ha =>
      get_writeFfts (.inr (ho r rfl ▸ ha))
    have hle := hp.fftAddr_le_atabAddr t f n
    exact ⟨readF64_congr fun x hx _ => hget x (hle.trans hx),
      readF64_congr fun x hx _ => hget x (hle.trans (Nat.le_of_add_right_le hx))⟩

/-- After ANALYZE the entries of each frame are those of its result. -/
theorem read_analyzed {s : State} {t : Tab} {w : List F64} {b : Nat → List Cx} (hc : s.configLegal)
    (hb : ∀ f, f < s.frames t → s.load t f = .ok (b f)) {f n : Nat} (hf : f < s.frames t) (hn : n < s.voiceCount) :
    ∃ e, (s.frameResult t w (b f)).entries[n]? = some e ∧ (s.analyzed t w b).readFreq t f n = .ok e.freq
      ∧ (s.analyzed t w b).readAmp t f n = .ok e.amp := by
  have hentries : ∀ r ∈ s.frameResults t w b,
      r.entries.length = s.voiceCount ∧ ∀ e ∈ r.entries, e.freq.valid ∧ e.amp.valid := by
    intro r hr
    obtain ⟨g, -, rfl⟩ := mem_frameResults hr
    exact ⟨extract_length .., extract_valid _ _ _ _⟩
  have hspectrum : ∀ r ∈ (s.frameResults t w b).getLast?, r.spectrum.length = s.params.nfft := by
    intro r hr
    obtain ⟨g, hg, rfl⟩ := mem_frameResults (List.mem_of_getLast? hr)
    exact (frameResult_spectrum hc.1 (hb g hg)).1
  have hframes := read_writeFrames t s.voiceCount _ 0 s (configLegal_iff.1 hc).nvoices.2 hentries f n hn
  have hp := writeFrames_params t (s.frameResults t w b) 0 s
  have hleave := read_leaveLast (hp.symm ▸ bounds_of_legal hc.1) (hp.symm ▸ hspectrum) t f n
  rw [State.analyzed, hleave.1, hleave.2]
  exact hframes.2 _ (frameResults_getElem? hf) (Nat.zero_le f)

/-! ## The scan for the maximum (R127) -/

theorem scanMax_mem (m : F64) (as : List F64) : scanMax m as ∈ m :: as := by
  induction as generalizing m with
  | nil => exact List.mem_singleton_self m
  | cons a as ih =>
    rw [scanMax]
    by_cases hlt : F64.lt m a = true
    · rw [if_pos hlt]
      exact List.mem_cons_of_mem m (ih a)
    · rw [if_neg hlt]
      rcases List.mem_cons.1 (ih m) with h | h
      · exact List.mem_cons.2 (.inl h)
      · exact List.mem_cons_of_mem m (List.mem_cons_of_mem a h)

/-- The scan answers a number that neither its start nor any amplitude that is a number exceeds. -/
theorem scanMax_ge {m : F64} (hm : m ≠ .nan) (as : List F64) :
    scanMax m as ≠ .nan ∧ m.order ≤ (scanMax m as).order ∧ ∀ a ∈ as, a ≠ .nan → a.order ≤ (scanMax m as).order := by
  induction as generalizing m with
  | nil => exact ⟨hm, le_rfl, nofun⟩
  | cons a as ih =>
    rw [scanMax, List.forall_mem_cons]
    by_cases hlt : F64.lt m a = true
    · rw [if_pos hlt]
      obtain ⟨-, ha, hma⟩ := lt_eq_true_iff.1 hlt
      obtain ⟨hn, hle, hall⟩ := ih ha
      exact ⟨hn, hma.le.trans hle, fun _ => hle, hall⟩
    · rw [if_neg hlt]
      obtain ⟨hn, hle, hall⟩ := ih hm
      refine ⟨hn, hle, fun ha => ?_, hall⟩
      have hge : ¬ m.order < a.order := fun h => hlt (lt_eq_true_iff.2 ⟨hm, ha, h⟩)
      omega

theorem zero_ne_nan : F64.zero ≠ .nan := nofun

section
variable (as : List F64)

theorem scanMax_ne_nan : scanMax F64.zero as ≠ .nan := (scanMax_ge zero_ne_nan as).1

theorem scanMax_nonneg : 0 ≤ (scanMax F64.zero as).order := (scanMax_ge zero_ne_nan as).2.1

end

section
variable {as : List F64}

theorem order_le_scanMax {a : F64} (ha : a ∈ as) (hn : a ≠ .nan) : a.order ≤ (scanMax F64.zero as).order :=
  (scanMax_ge zero_ne_nan as).2.2 a ha hn

theorem scanMax_valid (h : ∀ a ∈ as, a.valid) : (scanMax F64.zero as).valid :=
  List.forall_mem_cons.2 ⟨zero_valid, h⟩ _ (scanMax_mem F64.zero as)

/-- Without a positive amplitude the maximum is a zero. -/
theorem scanMax_eq_zero (h : ∀ a ∈ as, F64.lt F64.zero a = false) : F64.eq (scanMax F64.zero as) F64.zero = true := by
  have hle : F64.lt F64.zero (scanMax F64.zero as) = false :=
    List.forall_mem_cons (p := fun a => F64.lt F64.zero a = false).2 ⟨rfl, h⟩ _ (scanMax_mem F64.zero as)
  have hnot : ¬ (0 : Int) < (scanMax F64.zero as).order := fun hpos =>
    Bool.false_ne_true (hle.symm.trans (lt_eq_true_iff.2 ⟨zero_ne_nan, scanMax_ne_nan as, hpos⟩))
  have hnn := scanMax_nonneg as
  exact eq_eq_true_iff.2 ⟨scanMax_ne_nan as, zero_ne_nan, by show _ = (0 : Int); omega⟩

theorem order_le_of_valid {x : F64} (h : x.valid) : x.order ≤ infMag := by
  cases x with
  | nan => exact Int.natCast_nonneg _
  | num neg m =>
    have hm := h neg m rfl
    cases neg with
    | false => exact Int.ofNat_le.2 hm
    | true =>
      show -(m : Int) ≤ infMag
      omega

/-- With an infinite amplitude the maximum is that infinity. -/
theorem scanMax_eq_inf (hv : ∀ a ∈ as, a.valid) (h : .num false infMag ∈ as) :
    F64.eq (scanMax F64.zero as) F64.zero = false ∧ F64.eq (scanMax F64.zero as) (.num false infMag) = true := by
  have horder : (scanMax F64.zero as).order = infMag :=
    le_antisymm (order_le_of_valid (scanMax_valid hv)) (order_le_scanMax h nofun)
  refine ⟨Bool.eq_false_iff.2 fun heq => ?_, eq_eq_true_iff.2 ⟨scanMax_ne_nan as, nofun, horder⟩⟩
  obtain ⟨-, -, hzero⟩ := eq_eq_true_iff.1 heq
  exact absurd (horder.symm.trans hzero) (by decide)

/-- A maximum that is neither a zero nor an infinity is a positive finite number. -/
theorem scanMax_usable (hv : ∀ a ∈ as, a.valid) (h0 : F64.eq (scanMax F64.zero as) F64.zero = false)
    (hi : F64.eq (scanMax F64.zero as) (.num false infMag) = false) :
    ∃ k, scanMax F64.zero as = .num false k ∧ 0 < k ∧ k < infMag := by
  have hn := scanMax_ne_nan as
  have hnn := scanMax_nonneg as
  have hle := scanMax_valid hv
  generalize scanMax F64.zero as = m at *
  cases m with
  | nan => exact absurd rfl hn
  | num neg k =>
    have hk := hle neg k rfl
    have hzero : (F64.num neg k).order ≠ 0 := fun h =>
      ne_true_of_eq_false h0 (eq_eq_true_iff.2 ⟨hn, zero_ne_nan, h⟩)
    have hinf : (F64.num neg k).order ≠ infMag := fun h =>
      ne_true_of_eq_false hi (eq_eq_true_iff.2 ⟨hn, nofun, h⟩)
    cases neg with
    | false => exact ⟨k, rfl, Nat.pos_of_ne_zero fun h => hzero (h ▸ rfl), hk.lt_of_ne fun h => hinf (h ▸ rfl)⟩
    | true =>
      have horder : (F64.num true k).order = -(k : Int) := rfl
      omega

end

/-! ## The division by the maximum (R127, R129) -/

theorem div_eq_roundMag {na nb : Bool} {ma mb : Nat} (ha : ma ≠ infMag) (hb : mb ≠ infMag) (h0 : mb ≠ 0) :
    (F64.num na ma).div (.num nb mb) = .num (na ^^ nb) (roundMag (magUnits ma * 2 ^ 1074) (magUnits mb)) := by
  rw [F64.div, if_neg ha, if_neg hb, if_neg h0]

theorem magUnits_pos {m : Nat} (h : 0 < m) : 0 < magUnits m := magUnits_zero ▸ magUnits_lt h

section
variable {k : Nat} (h0 : 0 < k) (hk : k < infMag)
include h0 hk

theorem div_self_eq_one : (F64.num false k).div (.num false k) = F64.one := by
  rw [div_eq_roundMag hk.ne hk.ne h0.ne', roundMag_one (magUnits_pos h0)]
  rfl

/-- A quotient by a positive finite number keeps the sign. -/
theorem div_pos_eq_num (neg : Bool) (m : Nat) : ∃ q, (F64.num neg m).div (.num false k) = .num neg q := by
  by_cases hm : m = infMag
  · exact ⟨infMag, by rw [F64.div, if_pos hm, if_neg hk.ne, Bool.xor_false]⟩
  · exact ⟨_, by rw [div_eq_roundMag hm hk.ne h0.ne', Bool.xor_false]⟩

/-- A number not above a positive finite one is not above 1.0 when divided by it (R129 (1)). -/
theorem one_lt_div_eq_false {a : F64} (ha : a ≠ .nan → a.order ≤ k) : F64.lt F64.one (a.div (.num false k)) = false := by
  cases a with
  | nan => rfl
  | num neg m =>
    have hle := ha nofun
    cases neg with
    | true =>
      obtain ⟨q, hq⟩ := div_pos_eq_num h0 hk true m
      rw [hq]
      simp [F64.lt, F64.one, F64.key]
    | false =>
      have hmk : m ≤ k := Int.ofNat_le.1 hle
      have hround : roundMag (magUnits m * 2 ^ 1074) (magUnits k) ≤ 0x3FF0000000000000 :=
        roundMag_le_one (magUnits_pos h0) (Nat.mul_le_mul_right _ (magUnits_le hmk))
      rw [div_eq_roundMag (hmk.trans_lt hk).ne hk.ne h0.ne']
      generalize roundMag (magUnits m * 2 ^ 1074) (magUnits k) = q at *
      simpa [F64.lt, F64.one, F64.key] using hround

end

/-! ## NORMALIZE (R127, R128) -/

theorem readAmp_eq_ofWord {s : State} {t : Tab} {f n : Nat} {a : F64} (h : s.readAmp t f n = .ok a) :
    ∃ w, a = F64.ofWord w := by
  obtain ⟨w, -, rfl⟩ := Option.map_eq_some_iff.1 (require_eq_ok h)
  exact ⟨w, rfl⟩

/-- The amplitudes of the scanned entries, in the order of the scan. -/
def scannedValues (frames voices : Nat) (amp : Nat → Nat → F64) : List F64 :=
  (scanned frames voices).map (fun e => amp e.1 e.2)

theorem mem_scannedValues {frames voices : Nat} {amp : Nat → Nat → F64} {a : F64} :
    a ∈ scannedValues frames voices amp ↔ ∃ f n, f < frames ∧ n < voices ∧ amp f n = a := by
  simp [scannedValues, mem_scanned, and_assoc]

/-- The entries of the scan paired with what becomes of their amplitudes. -/
theorem zip_scannedValues (frames voices : Nat) (amp : Nat → Nat → F64) (g : F64 → F64) :
    (scanned frames voices).zip ((scannedValues frames voices amp).map g)
      = (scanned frames voices).map (fun e => (e, g (amp e.1 e.2))) := by
  rw [scannedValues, List.map_map, List.map_prod_left_eq_zip]
  rfl

section
variable {s : State} {t : Tab}

theorem execNormalize_of_amps {amps : List F64} (h : s.scannedAmps t = .ok amps) :
    execNormalize t s =
      if F64.eq (scanMax F64.zero amps) F64.zero then .next (s.cmdError .zeroMax)
      else if F64.eq (scanMax F64.zero amps) (.num false infMag) then .next (s.cmdError .nonfinite)
      else .next (s.commitNormalize t (scanned (s.frames t) s.voiceCount) amps (scanMax F64.zero amps)).complete := by
  unfold State.scannedAmps at h
  simp only [execNormalize, h]

/-- The state after NORMALIZE, but for its cells and NORM_MAX_T (R128); `draws` is the model's own. -/
theorem commitNormalize_complete_eq (s : State) (t : Tab) (es : List (Nat × Nat)) (amps : List F64) (m : F64) :
    (s.commitNormalize t es amps m).complete = { s with
      mem := (s.commitNormalize t es amps m).mem
      draws := (s.commitNormalize t es amps m).draws
      normMax := s.normMax.set t ((s.commitNormalize t es amps m).normMax.get t)
      status := { s.status with norm := s.status.norm.set t true, busy := false } } := by
  have hset : s.normMax.set t ((s.commitNormalize t es amps m).normMax.get t) = (s.commitNormalize t es amps m).normMax := by
    obtain ⟨w, hw⟩ := commitNormalize_normMax s t es amps m
    rw [hw, AB_get_set_same]
  rw [hset]
  exact congrArg State.complete (commitNormalize_eq s t es amps m)

/-- NORM_MAX_T reads back as the maximum (R128). -/
theorem normMax_commitNormalize {es : List (Nat × Nat)} {amps : List F64} {m : F64} (hm : m.valid) :
    F64.ofWord ((s.commitNormalize t es amps m).normMax.get t) = m := by
  rw [State.commitNormalize, setNorm_normMax, setNormMax_normMax, AB_get_set_same]
  exact ofWord_toWord hm _

/-- Each scanned amplitude is divided: the entries of the scan are different, so each is written once. -/
theorem readAmp_commitNormalize (amp : Nat → Nat → F64) {voices : Nat} (hv : voices ≤ s.params.nmax) (m : F64) {f n : Nat}
    (hf : f < s.frames t) (hn : n < voices) :
    (s.commitNormalize t (scanned (s.frames t) voices) (scannedValues (s.frames t) voices amp) m).readAmp t f n
      = .ok ((amp f n).div m) := by
  change (State.writeAmps t _ s).readAmp t f n = _
  rw [zip_scannedValues]
  refine readAmp_writeAmps t _ s f n _ ?_ ?_ (div_valid _ _) (List.mem_map.2 ⟨(f, n), mem_scanned.2 ⟨hf, hn⟩, rfl⟩)
  · rw [List.map_map]
    exact (List.map_id _).symm ▸ scanned_nodup _ _
  · intro e he
    obtain ⟨⟨g, i⟩, hi, rfl⟩ := List.mem_map.1 he
    exact (mem_scanned.1 hi).2.trans_le hv

variable {amp : Nat → Nat → F64} (hr : ∀ f n, f < s.frames t → n < s.nvoices.toNat → s.readAmp t f n = .ok (amp f n))
include hr

theorem scannedValues_valid : ∀ a ∈ scannedValues (s.frames t) s.nvoices.toNat amp, a.valid := by
  intro a ha
  obtain ⟨f, n, hf, hn, rfl⟩ := mem_scannedValues.1 ha
  obtain ⟨w, hw⟩ := readAmp_eq_ofWord (hr f n hf hn)
  exact hw ▸ ofWord_valid w

end

end Sys2Proof.Machine

section
open Sys2Proof Sys2Proof.Machine

/-- Settles O14: the loaded frame fills the buffer with binary64 values, which read back as written. -/
theorem loadFrameLoadsTheSamples : Obligations.LoadFrameLoadsTheSamples := by
  refine fun s t f hl => ⟨fun hf => if_pos hf, fun x hf hx => ?_⟩
  have hload := load_of_samples hl hx
  have hlen := load_length (bounds_of_legal hl).hop_le hload
  exact ⟨_, execLoadFrame_of_load hf hload, readFfts_writeFfts_of_length hlen (load_valid hload), rfl,
    fun a ha => get_writeFfts (hlen.symm ▸ ha)⟩

/-- Settles O23: each frame's result does not depend on the frames written before it, and the last spectrum lies outside the
tables. -/
theorem analyzeAnalysesEveryFrame : Obligations.AnalyzeAnalysesEveryFrame := by
  refine fun s t hc => ⟨fun hr => if_pos hr, fun w b hr hw hb => ?_⟩
  have hwindow : ∀ f, List.zipWith (fun (z : Cx) c => (⟨z.re.mul c, z.im.mul c⟩ : Cx)) (b f) w ++ (b f).drop s.params.win
      = applyWindow (b f) w := fun f => by
    rw [applyWindow_eq, readWintab_length hw]
    rfl
  simp only [hwindow]
  refine ⟨_, execAnalyze_of_reads hr hw hb, fun f n => read_analyzed hc hb, readFfts_analyzed hc.1 hb, ?_⟩
  rw [analyzed_eq]
  rfl

/-- Settles O25: the scan keeps the greatest value, and rounding a quotient of at most 1 cannot exceed 1.0. -/
theorem theScanFindsTheMaximum : Obligations.TheScanFindsTheMaximum := by
  intro as has m
  have hv : ∀ a ∈ as, a.valid := fun a ha => by
    obtain ⟨w, rfl⟩ := has a ha
    exact ofWord_valid w
  have hle : ∀ a ∈ as, a ≠ .nan → a.order ≤ m.order := fun a => order_le_scanMax
  refine ⟨List.mem_cons.1 (scanMax_mem F64.zero as), scanMax_ne_nan as,
    le_eq_true_iff.2 ⟨zero_ne_nan, scanMax_ne_nan as, scanMax_nonneg as⟩, fun a ha => ?_, fun h0 hi => ?_⟩
  · refine Bool.eq_false_iff.2 fun hlt => ?_
    obtain ⟨-, hn, hlt⟩ := lt_eq_true_iff.1 hlt
    exact (hle a ha hn).not_gt hlt
  · obtain ⟨k, hm, hk0, hk⟩ := scanMax_usable hv h0 hi
    change m = .num false k at hm
    rw [hm] at hle ⊢
    exact ⟨div_self_eq_one hk0 hk, fun a ha => one_lt_div_eq_false hk0 hk (hle a ha)⟩

/-- Settles O36: without a positive amplitude the scan ends at a zero, and with an infinite one at that infinity. -/
theorem normalizeWithoutAUsableMaximumIsAnError : Obligations.NormalizeWithoutAUsableMaximumIsAnError := by
  intro s t amp hr
  have hexec := execNormalize_of_amps (scannedAmps_eq hr)
  refine ⟨fun hnone => ?_, fun ⟨f, n, hf, hn, hinf⟩ => ?_⟩
  · refine hexec.trans (if_pos (scanMax_eq_zero fun a ha => ?_))
    obtain ⟨f, n, hf, hn, rfl⟩ := mem_scannedValues.1 ha
    exact hnone f n hf hn
  · obtain ⟨h0, hi⟩ := scanMax_eq_inf (scannedValues_valid hr) (mem_scannedValues.2 ⟨f, n, hf, hn, hinf⟩)
    exact hexec.trans ((if_neg (ne_true_of_eq_false h0)).trans (if_pos hi))

/-- Settles O24: the scanned entries are different, so each AMP is written once, and the maximum reads back as written. -/
theorem normalizeDividesByTheMaximum : Obligations.NormalizeDividesByTheMaximum := by
  intro s t amp hc hr m h0 hi
  have hv := scannedValues_valid hr
  have hend := (execNormalize_of_amps (scannedAmps_eq hr)).trans ((if_neg (ne_true_of_eq_false h0)).trans
    (if_neg (ne_true_of_eq_false hi)))
  refine ⟨_, hend, fun f n hf hn => readAmp_commitNormalize amp (configLegal_iff.1 hc).nvoices.2 m hf hn,
    normMax_commitNormalize (scanMax_valid hv), commitNormalize_complete_eq s t _ _ m,
    fun _ => get_commitNormalize _ m⟩

end

/-! PROOFS. The resynthesis family (45_resynthesis.md): the restart of a session, the interpolation between two frames, one
sample of the oscillator bank, and what the sound commands read and change. -/

namespace Sys2Proof

open Sys2Proof.Laws Sys2Proof.Machine

theorem withFields_of_plain {i : Instr} (hi : usesTab i = false) (t : Tab) (f : Nat) : i.withFields t f = i := by
  cases i with
  | loadFrame | peaks | analyze | normalize => cases hi
  | _ => rfl

/-- A row without operands has one word (30_encoding.md R79, R80). -/
theorem decode_of_plain_op {w : Word} {i : Instr} (hi : usesTab i = false) (h : opField w = opOf i) :
    decode w = if w = encode i then .ok i else .error .reservedField := by
  split
  next hw =>
    have hwf : i.wellFormed = true := withFields_of_plain hi .a 0 ▸ withFields_wellFormed i .a (Nat.two_pow_pos 23)
    rw [hw, decode_encode hwf]
  next hw =>
    have hn : decode w ≠ .ok i := fun hd => hw (encode_of_decode hd).2.symm
    rw [decode_of_opField h, withFields_of_plain hi] at hn ⊢
    split_ifs at hn ⊢
    iterate 3 rfl
    exact absurd rfl hn

end Sys2Proof

namespace Sys2Proof.Machine

/-! ## The errors of the sound commands (60_exceptions.md R150, R151) -/

section
variable {s : State}

theorem execInterp_empty (hl : s.frameLimit = 0) : execInterp s = .next (s.cmdError .empty) := if_pos hl

theorem execOsc_sineNotReady (hr : s.status.sineReady = false) : execOsc s = .next (s.cmdError .sineNotReady) := if_pos hr

theorem execSynth_sineNotReady (hr : s.status.sineReady = false) : execSynth s = .next (s.cmdError .sineNotReady) :=
  if_pos hr

theorem execSynth_empty (hr : s.status.sineReady = true) (hl : s.frameLimit = 0) :
    execSynth s = .next (s.cmdError .empty) := by
  rw [execSynth, if_neg (ne_false_of_eq_true hr), if_pos hl]

theorem execOsc_nonfinite (hr : s.status.sineReady = true) (h : s.voiceStep = .nonfinite) :
    execOsc s = .next (s.cmdError .nonfinite) := by
  unfold State.voiceStep at h
  rw [execOsc, if_neg (ne_false_of_eq_true hr), h]

theorem execSynth_nonfinite {o : InterpOut} (hr : s.status.sineReady = true) (hl : s.frameLimit ≠ 0)
    (hi : s.interpolate = .ok o) (h : s.oscStep o.freq o.amp s.activePhases = .nonfinite) :
    execSynth s = .next (s.cmdError .nonfinite) := by
  simp only [execSynth, if_neg (ne_false_of_eq_true hr), if_neg hl, hi, h]

/-- The increments are checked before any lookup (46_oscillator.md R141). -/
theorem oscStep_nonfinite {freq : List F64} (h : ∃ f ∈ freq, (f.div (F64.ofWord s.params.engineSr)).isFinite = false)
    (amp phase : List F64) : s.oscStep freq amp phase = .nonfinite := by
  obtain ⟨f, hf, hinc⟩ := h
  refine if_pos (List.any_eq_true.2 ⟨_, List.mem_map_of_mem hf, ?_⟩)
  rw [hinc]
  rfl

end

/-! ## The voices after a commit -/

/-- What every update of a voice keeps is as it was. -/
theorem updateVoices_getD_keeps {α : Type} {g : Voice → α} {fs : List (Voice → Voice)} (h : ∀ f ∈ fs, ∀ v, g (f v) = g v)
    (vs : List Voice) (n : Nat) : g ((updateVoices fs vs).getD n Voice.zero) = g (vs.getD n Voice.zero) := by
  rw [List.getD, List.getD, updateVoices_getElem?]
  cases vs[n]? with
  | none => rfl
  | some v =>
    cases hf : fs[n]? with
    | none => rfl
    | some f => exact h f (List.mem_of_getElem? hf) v

/-- A voice beyond the updated ones is as it was (10_state.md R41). -/
theorem updateVoices_getD_of_le {fs : List (Voice → Voice)} {n : Nat} (h : fs.length ≤ n) (vs : List Voice) :
    (updateVoices fs vs).getD n Voice.zero = vs.getD n Voice.zero := by
  rw [List.getD, List.getD, updateVoices_getElem?, List.getElem?_eq_none h, Option.getD_none, Option.map_id_fun, id]

section
variable (s : State)

theorem commitInterp_keeps_phase_inc (o : InterpOut) (n : Nat) :
    ((s.commitInterp o).voices.getD n Voice.zero).phase = (s.voices.getD n Voice.zero).phase
      ∧ ((s.commitInterp o).voices.getD n Voice.zero).inc = (s.voices.getD n Voice.zero).inc := by
  refine Prod.mk.inj (updateVoices_getD_keeps (g := fun v => (v.phase, v.inc)) (fun f hf v => ?_) s.voices n)
  obtain ⟨x, -, y, -, rfl⟩ := mem_zipWith hf
  rfl

theorem commitOsc_keeps_freq_amp (o : OscOut) (n : Nat) :
    ((s.commitOsc o).voices.getD n Voice.zero).freq = (s.voices.getD n Voice.zero).freq
      ∧ ((s.commitOsc o).voices.getD n Voice.zero).amp = (s.voices.getD n Voice.zero).amp := by
  refine Prod.mk.inj (updateVoices_getD_keeps (g := fun v => (v.freq, v.amp)) (fun f hf v => ?_) s.voices n)
  obtain ⟨x, -, y, -, rfl⟩ := mem_zipWith hf
  rfl

theorem length_zipWith_sealAll_le (g : Word → Word → Voice → Voice) (k k' : Nat) (as bs : List F64) :
    (List.zipWith g (sealAll k as) (sealAll k' bs)).length ≤ as.length := by
  rw [List.length_zipWith, sealAll_length]
  exact Nat.min_le_left _ _

theorem commitInterp_voices_rest {o : InterpOut} {n : Nat} (h : o.freq.length ≤ n) :
    (s.commitInterp o).voices.getD n Voice.zero = s.voices.getD n Voice.zero :=
  updateVoices_getD_of_le ((length_zipWith_sealAll_le ..).trans h) s.voices

theorem commitOsc_voices_rest {o : OscOut} {n : Nat} (h : o.inc.length ≤ n) :
    (s.commitOsc o).voices.getD n Voice.zero = s.voices.getD n Voice.zero :=
  updateVoices_getD_of_le ((length_zipWith_sealAll_le ..).trans h) s.voices

theorem commitSynth_voices_rest {o : InterpOut} {r : OscOut} {n : Nat} (ho : o.freq.length ≤ n) (hr : r.inc.length ≤ n) :
    (s.commitSynth o r).voices.getD n Voice.zero = s.voices.getD n Voice.zero :=
  (commitOsc_voices_rest (s.commitInterp o) hr).trans (commitInterp_voices_rest s ho)

/-- A voice n < N takes patterns of its interpolated values (45_resynthesis.md R132). -/
theorem commitInterp_voice (w : Weights) (freq amp : Nat → F64) {m n : Nat} (hn : n < m) (hv : n < s.voices.length) :
    ∃ b b', (s.commitInterp ⟨w, (List.range m).map freq, (List.range m).map amp⟩).voices.getD n Voice.zero
      = Voice.setFreqAmp ((freq n).toWord b) ((amp n).toWord b') (s.voices.getD n Voice.zero) :=
  ⟨_, _, updateVoices_sealed Voice.setFreqAmp freq amp _ _ hn hv⟩

/-- A voice n < N takes patterns of its increment and its advanced phase (46_oscillator.md R141). -/
theorem commitOsc_voice (inc phase : Nat → F64) (out : F64) {m n : Nat} (hn : n < m) (hv : n < s.voices.length) :
    ∃ b b', (s.commitOsc ⟨(List.range m).map inc, (List.range m).map phase, out⟩).voices.getD n Voice.zero
      = Voice.setIncPhase ((inc n).toWord b) ((phase n).toWord b') (s.voices.getD n Voice.zero) :=
  ⟨_, _, updateVoices_sealed Voice.setIncPhase inc phase _ _ hn hv⟩

end

/-! ## What the sound commands leave unchanged (R132, R133, 46_oscillator.md R142) -/

/-- A STATUS with BUSY cleared and the error record of another. -/
def Status.endedAs (st st' : Status) : Status :=
  { st with busy := false, err := st'.err, errMulti := st'.errMulti, errcode := st'.errcode }

theorem recordError_endedAs (st : Status) (c : ErrCode) : st.endedAs (st.recordError c) = st.recordError c := by
  unfold Status.recordError
  split <;> rfl

theorem cmdError_eq (s : State) (c : ErrCode) :
    s.cmdError c = { s with status := s.status.endedAs (s.cmdError c).status } :=
  congrArg (fun st => { s with status := st }) (recordError_endedAs s.status c).symm

theorem interpolate_freq_length {s : State} {o : InterpOut} (h : s.interpolate = .ok o) :
    o.freq.length = s.nvoices.toNat := by
  obtain ⟨-, hf, -⟩ := interpolate_ok h
  rw [allOk_length hf, List.length_map, List.length_range]
  rfl

theorem oscStep_inc_length {s : State} {freq amp phase : List F64} {r : OscOut} (h : s.oscStep freq amp phase = .ok r) :
    r.inc.length = freq.length := by
  obtain ⟨-, ys, -, rfl⟩ := oscStep_ok h
  exact List.length_map _

theorem voiceStep_inc_length_le {s : State} {r : OscOut} (h : s.voiceStep = .ok r) : r.inc.length ≤ s.nvoices.toNat := by
  rw [oscStep_inc_length h, List.length_map]
  exact List.length_take_le _ _

section
variable {s u : State}

/-- No voice n >= N is changed (10_state.md R41). -/
def KeepsInactiveVoices (s u : State) : Prop :=
  ∀ n, s.nvoices.toNat ≤ n → u.voices.getD n Voice.zero = s.voices.getD n Voice.zero

theorem execInterp_frame (h : execInterp s = .next u) :
    u = { s with
        voices := u.voices, intT := u.intT, intLow := u.intLow, intHigh := u.intHigh, intUw := u.intUw
        intLw := u.intLw, draws := u.draws, status := s.status.endedAs u.status }
      ∧ KeepsInactiveVoices s u
      ∧ ∀ n, (u.voices.getD n Voice.zero).phase = (s.voices.getD n Voice.zero).phase
        ∧ (u.voices.getD n Voice.zero).inc = (s.voices.getD n Voice.zero).inc := by
  obtain ⟨-, rfl⟩ | ⟨-, o, ho, rfl⟩ := execInterp_next h
  · exact ⟨cmdError_eq s _, fun _ _ => rfl, fun _ => ⟨rfl, rfl⟩⟩
  · exact ⟨commitInterp_frame s o, fun n hn => commitInterp_voices_rest s ((interpolate_freq_length ho).trans_le hn),
      commitInterp_keeps_phase_inc s o⟩

theorem execOsc_frame (h : execOsc s = .next u) :
    u = { s with
        voices := u.voices, outL := u.outL, outR := u.outR, draws := u.draws, status := s.status.endedAs u.status }
      ∧ KeepsInactiveVoices s u
      ∧ ∀ n, (u.voices.getD n Voice.zero).freq = (s.voices.getD n Voice.zero).freq
        ∧ (u.voices.getD n Voice.zero).amp = (s.voices.getD n Voice.zero).amp := by
  obtain ⟨-, rfl⟩ | ⟨-, -, rfl⟩ | ⟨-, r, hr, rfl⟩ := execOsc_next h
  · exact ⟨cmdError_eq s _, fun _ _ => rfl, fun _ => ⟨rfl, rfl⟩⟩
  · exact ⟨cmdError_eq s _, fun _ _ => rfl, fun _ => ⟨rfl, rfl⟩⟩
  · exact ⟨commitOsc_frame s r, fun n hn => commitOsc_voices_rest s ((voiceStep_inc_length_le hr).trans hn),
      commitOsc_keeps_freq_amp s r⟩

theorem execSynth_frame (h : execSynth s = .next u) :
    u = { s with
        voices := u.voices, outL := u.outL, outR := u.outR, intT := u.intT, intLow := u.intLow
        intHigh := u.intHigh, intUw := u.intUw, intLw := u.intLw, s := u.s, draws := u.draws
        status := s.status.endedAs u.status }
      ∧ KeepsInactiveVoices s u := by
  obtain ⟨-, rfl⟩ | ⟨-, -, rfl⟩ | ⟨-, -, o, ho, ⟨-, rfl⟩ | ⟨r, hr, rfl⟩⟩ := execSynth_next h
  · exact ⟨cmdError_eq s _, fun _ _ => rfl⟩
  · exact ⟨cmdError_eq s _, fun _ _ => rfl⟩
  · exact ⟨cmdError_eq s _, fun _ _ => rfl⟩
  · have hfreq := interpolate_freq_length ho
    have hinc := (oscStep_inc_length hr).trans hfreq
    exact ⟨commitSynth_frame s o r, fun n hn => commitSynth_voices_rest s (hfreq.trans_le hn) (hinc.trans_le hn)⟩

end

/-! ## The values of a commit read back -/

theorem commitInterp_weights (s : State) {o : InterpOut} (h : o.weights = weightsAt s.s.toNat s.sLimit s.frameLimit) :
    F64.ofWord (s.commitInterp o).intT = o.weights.t ∧ F64.ofWord (s.commitInterp o).intUw = o.weights.uw
      ∧ F64.ofWord (s.commitInterp o).intLw = o.weights.lw := by
  obtain ⟨ht, huw, hlw⟩ := weightsAt_valid s.s.toNat s.sLimit s.frameLimit
  rw [← h] at ht huw hlw
  exact ⟨ofWord_toWord ht _, ofWord_toWord huw _, ofWord_toWord hlw _⟩

theorem ofWord_commitOsc_outL (s : State) {o : OscOut} (h : o.out.valid) : F64.ofWord (s.commitOsc o).outL = o.out :=
  ofWord_toWord h _

/-- The interpolated values of a voice n < N. -/
theorem commitInterp_voice_values (s : State) (w : Weights) {freq amp : Nat → F64} {m n : Nat} (hn : n < m)
    (hv : n < s.voices.length) (hf : (freq n).valid) (ha : (amp n).valid) :
    let v := (s.commitInterp ⟨w, (List.range m).map freq, (List.range m).map amp⟩).voices.getD n Voice.zero
    F64.ofWord v.freq = freq n ∧ F64.ofWord v.amp = amp n := by
  obtain ⟨b, b', hvoice⟩ := commitInterp_voice s w freq amp hn hv
  rw [hvoice]
  exact ⟨ofWord_toWord hf b, ofWord_toWord ha b'⟩

/-- The four values of a voice n < N after SYNTH (R133). -/
theorem commitSynth_voice_values (s : State) (w : Weights) {freq amp inc phase : Nat → F64} (out : F64) {m n : Nat}
    (hn : n < m) (hv : n < s.voices.length) (hf : (freq n).valid) (ha : (amp n).valid) (hi : (inc n).valid)
    (hp : (phase n).valid) :
    let v := (s.commitSynth ⟨w, (List.range m).map freq, (List.range m).map amp⟩
      ⟨(List.range m).map inc, (List.range m).map phase, out⟩).voices.getD n Voice.zero
    F64.ofWord v.freq = freq n ∧ F64.ofWord v.amp = amp n ∧ F64.ofWord v.inc = inc n ∧ F64.ofWord v.phase = phase n := by
  obtain ⟨hfreq, hamp⟩ := commitInterp_voice_values s w hn hv hf ha
  obtain ⟨b, b', hvoice⟩ := commitOsc_voice (s.commitInterp ⟨w, (List.range m).map freq, (List.range m).map amp⟩) inc phase out
    hn (hv.trans_eq (updateVoices_length _ _).symm)
  simp only [State.commitSynth, complete_voices, hvoice]
  exact ⟨hfreq, hamp, ofWord_toWord hi b, ofWord_toWord hp b'⟩

theorem blend_valid (w : Weights) (x y : F64) : (blend w x y).valid := add_valid _ _

/-! ## The lookup at a legal phase (46_oscillator.md R138) -/

theorem sineLookup_eq_tableLookup {s : State} {tab : Nat → F64} (hb : Bounds s.params)
    (ht : ∀ i, i < s.params.sine → s.readSine i = .ok (tab i)) {w : Word} (hw : legalPhase w = true) :
    s.sineLookup (F64.ofWord w) = .ok (tableLookup tab s.params.sine (F64.ofWord w)) := by
  have h0 := ht _ (floor_phase_lt hw hb)
  have h1 := ht _ (Nat.mod_lt (((F64.ofWord w).mul (F64.ofNat s.params.sine)).floor.toNat + 1) hb.sine_pos)
  simp only [State.sineLookup, h0, h1]
  rfl

/-! ## What INTERP and SYNTH read (R134) -/

section
variable {pos sl fl : Nat} (h : fl ≠ 0)
include h

theorem weightsAt_low_lt : (weightsAt pos sl fl).low < fl := by
  rw [weightsAt_low]
  omega

theorem weightsAt_high_lt : (weightsAt pos sl fl).high < fl := by
  rw [weightsAt_high]
  omega

end

theorem interpolate_of_allOk {s : State} {o : InterpOut} (hw : o.weights = weightsAt s.s.toNat s.sLimit s.frameLimit)
    (hf : allOk ((List.range s.voiceCount).map (s.interpFreq o.weights)) = .ok o.freq)
    (ha : allOk ((List.range s.voiceCount).map (s.interpAmp o.weights)) = .ok o.amp) : s.interpolate = .ok o := by
  simp only [State.interpolate, ← hw, hf, ha]

/-- The entries of table A lie below table B (20_memory.md R62). -/
theorem atabAddr_a_le {p : Params} (hb : Bounds p) {f n : Nat} (hf : f < p.fmax) (hn : n < p.nmax) :
    atabAddr p .a f n + 16 ≤ 0x02000000 := by
  have := entry_lt hb hf hn
  simp only [atabAddr, Tab.toNat]
  omega

/-- The elements of SINETAB lie below the analysis tables. -/
theorem sinetabAddr_le {p : Params} (hb : Bounds p) {i : Nat} (hi : i < p.sine) : sinetabAddr i + 8 ≤ 0x01000000 := by
  have := hb.sine_le
  simp only [sinetabAddr]
  omega

section
variable {s : State} {m : Mem} (hm : ∀ a, a < 0x02000000 → m.get a = s.mem.get a)
include hm

/-- Memories that agree below table B give the same elements there. -/
theorem readF64_of_below {a : Nat} (ha : a + 8 ≤ 0x02000000) (sp : Space) :
    { s with mem := m }.readF64 sp a = s.readF64 sp a :=
  readF64_congr fun x _ hx => hm x (by omega)

variable (hc : s.configLegal)
include hc

theorem readFreq_readAmp_of_below {f n : Nat} (hf : f < s.frameLimit) (hn : n < s.voiceCount) :
    { s with mem := m }.readFreq .a f n = s.readFreq .a f n ∧ { s with mem := m }.readAmp .a f n = s.readAmp .a f n := by
  have hfmax : f < s.params.fmax := (hf.trans_le (Nat.min_le_left _ _)).trans_le (frames_le hc)
  have ha := atabAddr_a_le (bounds_of_legal hc.1) hfmax (hn.trans_le (configLegal_iff.1 hc).nvoices.2)
  exact ⟨readF64_of_below hm ((Nat.le_add_right _ 8).trans ha) _, readF64_of_below hm ha _⟩

theorem interpolate_of_below (hl : s.frameLimit ≠ 0) {o : InterpOut} (h : s.interpolate = .ok o) :
    { s with mem := m }.interpolate = .ok o := by
  obtain ⟨hw, hf, ha⟩ := interpolate_ok h
  have hlow : o.weights.low < s.frameLimit := hw ▸ weightsAt_low_lt hl
  have hhigh : o.weights.high < s.frameLimit := hw ▸ weightsAt_high_lt hl
  have hread : ∀ n ∈ List.range s.voiceCount, { s with mem := m }.interpFreq o.weights n = s.interpFreq o.weights n
      ∧ { s with mem := m }.interpAmp o.weights n = s.interpAmp o.weights n := fun n hn => by
    obtain ⟨hlf, hla⟩ := readFreq_readAmp_of_below hm hc hlow (List.mem_range.1 hn)
    obtain ⟨hhf, hha⟩ := readFreq_readAmp_of_below hm hc hhigh (List.mem_range.1 hn)
    simp only [State.interpFreq, State.interpAmp, hlf, hla, hhf, hha, and_self]
  refine interpolate_of_allOk hw (Eq.trans ?_ hf) (Eq.trans ?_ ha)
  · exact congrArg allOk (List.map_congr_left fun n hn => (hread n hn).1)
  · exact congrArg allOk (List.map_congr_left fun n hn => (hread n hn).2)

theorem sineLookup_of_below {w : Word} (hw : legalPhase w = true) :
    { s with mem := m }.sineLookup (F64.ofWord w) = s.sineLookup (F64.ofWord w) := by
  have hb := bounds_of_legal hc.1
  have hread : ∀ i, i < s.params.sine → { s with mem := m }.readSine i = s.readSine i := fun i hi =>
    readF64_of_below hm ((sinetabAddr_le hb hi).trans (by decide)) _
  simp only [State.sineLookup, hread _ (floor_phase_lt hw hb), hread _ (Nat.mod_lt _ hb.sine_pos)]

/-- Legal phases are looked up inside SINETAB. -/
theorem oscStep_of_below (hv : s.voicesSound) (freq amp : List F64) :
    { s with mem := m }.oscStep freq amp s.activePhases = s.oscStep freq amp s.activePhases := by
  have hlook : s.activePhases.map { s with mem := m }.sineLookup = s.activePhases.map s.sineLookup :=
    List.map_congr_left fun p hp => by
      obtain ⟨v, hmem, rfl⟩ := List.mem_map.1 hp
      exact sineLookup_of_below hm hc (hv.2 v (List.mem_of_mem_take hmem))
  simp only [State.oscStep, hlook]
  rfl

theorem execInterp_of_below {u : State} (h : execInterp s = .next u) :
    execInterp { s with mem := m } = .next { u with mem := m } := by
  obtain ⟨hl, rfl⟩ | ⟨hl, o, ho, rfl⟩ := execInterp_next h
  · exact execInterp_empty hl
  · exact exec_interp_ok hl (interpolate_of_below hm hc hl ho)

theorem execSynth_of_below (hv : s.voicesSound) {u : State} (h : execSynth s = .next u) :
    execSynth { s with mem := m } = .next { u with mem := m } := by
  obtain ⟨hr, rfl⟩ | ⟨hr, hl, rfl⟩ | ⟨hr, hl, o, ho, hosc⟩ := execSynth_next h
  · exact execSynth_sineNotReady hr
  · exact execSynth_empty hr hl
  · have ho' := interpolate_of_below hm hc hl ho
    obtain ⟨hn, rfl⟩ | ⟨r, hok, rfl⟩ := hosc
    · exact execSynth_nonfinite hr hl ho' ((oscStep_of_below hm hc hv _ _).trans hn)
    · exact exec_synth_ok hr hl ho' ((oscStep_of_below hm hc hv _ _).trans hok)

end

end Sys2Proof.Machine

section
open Sys2Proof Sys2Proof.Machine

/-- Settles O26: every field of the restart is written out in R130, and the row leaves every field but OP zero. -/
theorem synthResetRestartsTheSession : Obligations.SynthResetRestartsTheSession :=
  ⟨fun _ => rfl, fun w hw => decode_of_plain_op (i := .synthReset) rfl ((opField_eq w).trans hw)⟩

/-- Settles O35: SYNTH checks the table before the frames (R151). -/
theorem unreadyCommandsAreErrors : Obligations.UnreadyCommandsAreErrors :=
  fun _ => ⟨execInterp_empty, fun hr => ⟨execOsc_sineNotReady hr, execSynth_sineNotReady hr⟩, execSynth_empty⟩

/-- Settles O37: the increments are checked before the lookups. -/
theorem aNonfiniteIncrementIsAnError : Obligations.ANonfiniteIncrementIsAnError := by
  intro s hr
  refine ⟨fun ⟨v, hv, hinc⟩ => execOsc_nonfinite hr (oscStep_nonfinite ⟨_, List.mem_map_of_mem hv, hinc⟩ _ _), ?_⟩
  intro fl fh al ah hl w hread ⟨n, hn, hinc⟩
  have hw : weightsAt s.s.toNat s.sLimit s.frameLimit = w := rfl
  clear_value w -- no step below turns on how the weights are computed
  exact execSynth_nonfinite hr hl (interpolate_eq hw hread)
    (oscStep_nonfinite ⟨_, List.mem_map_of_mem (List.mem_range.2 hn), hinc⟩ _ _)

/-- Settles O34: an error changes the record only, and the commits write the first N voices and their registers. -/
theorem soundCommandsChangeNoMemory : Obligations.SoundCommandsChangeNoMemory := by
  intro s u
  refine ⟨fun i hi h => ?_, fun h => ?_, fun h => ?_, fun h => (execSynth_frame h).1⟩
  · have hlen := exec_voices_length h
    obtain rfl | rfl | rfl := hi
    · obtain ⟨hu, hrest, -⟩ := execInterp_frame h
      exact ⟨(congrArg State.mem hu).trans rfl, hlen, hrest⟩
    · obtain ⟨hu, hrest, -⟩ := execOsc_frame h
      exact ⟨(congrArg State.mem hu).trans rfl, hlen, hrest⟩
    · obtain ⟨hu, hrest⟩ := execSynth_frame h
      exact ⟨(congrArg State.mem hu).trans rfl, hlen, hrest⟩
  · obtain ⟨hu, -, hv⟩ := execInterp_frame h
    exact ⟨hu, hv⟩
  · obtain ⟨hu, -, hv⟩ := execOsc_frame h
    exact ⟨hu, hv⟩

/-- Settles O31: every element that INTERP and SYNTH read lies below table B. -/
theorem tableBHasNoAudibleEffect : Obligations.TableBHasNoAudibleEffect := by
  intro s s' hc hv hs hm i hi u h
  obtain ⟨m, rfl⟩ : ∃ m, s' = { s with mem := m } := ⟨_, hs⟩
  have hbelow : ∀ a, a < 0x02000000 → m.get a = s.mem.get a := fun a ha => hm a (.inl ha)
  obtain rfl | rfl := hi
  · exact execInterp_of_below hbelow hc h
  · exact execSynth_of_below hbelow hc hv h

/-- Settles O27: the interpolated values are binary64 values, which read back as written. -/
theorem interpInterpolatesTheVoices : Obligations.InterpInterpolatesTheVoices := by
  intro s fl fh al ah hc hv hl t low high uw lw hread
  have hw : weightsAt s.s.toNat s.sLimit s.frameLimit = ⟨t, low, high, uw, lw⟩ := rfl
  clear_value lw uw high low t
  have hi := interpolate_eq hw hread
  obtain ⟨ht, huw, hlw⟩ := commitInterp_weights s (interpolate_ok hi).1
  have hrest : KeepsInactiveVoices s _ := (execInterp_frame (exec_interp_ok hl hi)).2.1
  refine ⟨_, exec_interp_ok hl hi, fun n hn => ?_, fun n => ?_, ht, rfl, rfl, huw, hlw, commitInterp_frame s _⟩
  · exact commitInterp_voice_values s _ hn (hv ▸ hn.trans_le (configLegal_iff.1 hc).nvoices.2) (blend_valid _ _ _)
      (blend_valid _ _ _)
  · obtain ⟨hphase, hinc⟩ := commitInterp_keeps_phase_inc s _ n
    exact ⟨hphase, hinc, hrest n⟩

/-- Settles O30: the interpolation and the oscillator step answer, and the values they commit read back as written. -/
theorem synthProducesOneSample : Obligations.SynthProducesOneSample := by
  intro s tab fl fh al ah hc hv hr hl htab w hread freq amp inc hinc
  have hw : weightsAt s.s.toNat s.sLimit s.frameLimit = w := rfl
  clear_value w
  have hlen : s.nvoices.toNat ≤ s.voices.length := (configLegal_iff.1 hc).nvoices.2.trans_eq hv.1.symm
  have hlook := fun n (hn : n < s.nvoices.toNat) =>
    sineLookup_eq_tableLookup (bounds_of_legal hc.1) htab (activePhase_legal hc hv hn)
  have hi := interpolate_eq hw hread
  have hosc := oscStep_eq (amp := amp) hinc hlook
  rw [← activeVoices_map (fun v => F64.ofWord v.phase) s hlen] at hosc
  have hexec := exec_synth_ok hr hl hi hosc
  obtain ⟨ht, huw, hlw⟩ := commitInterp_weights s (interpolate_ok hi).1
  refine ⟨_, hexec, fun n hn => ?_, (execSynth_frame hexec).2, ofWord_commitOsc_outL _ (div_valid _ _), rfl, ht, rfl, rfl,
    huw, hlw, rfl, commitSynth_frame s _ _⟩
  exact commitSynth_voice_values s w _ hn (hn.trans_le hlen) (blend_valid _ _ _) (blend_valid _ _ _) (div_valid _ _)
    (wrapPhase_valid _)

end

/-! PROOFS. The oscillator family (46_oscillator.md): the sine table, its lookup, and one sample of the voices as they stand. -/

namespace Sys2Proof.Machine

/-- The increment and the phase of a voice n < N after a commit of the oscillator (46_oscillator.md R141). -/
theorem commitOsc_voice_values (s : State) {inc phase : Nat → F64} (out : F64) {m n : Nat} (hn : n < m)
    (hv : n < s.voices.length) (hi : (inc n).valid) (hp : (phase n).valid) :
    let v := (s.commitOsc ⟨(List.range m).map inc, (List.range m).map phase, out⟩).voices.getD n Voice.zero
    F64.ofWord v.inc = inc n ∧ F64.ofWord v.phase = phase n := by
  obtain ⟨b, b', hvoice⟩ := commitOsc_voice s inc phase out hn hv
  rw [hvoice]
  exact ⟨ofWord_toWord hi b, ofWord_toWord hp b'⟩

/-- The step of OSC is the oscillator step of the first N voices by number (46_oscillator.md R142). -/
theorem voiceStep_eq_oscStep {s : State} (h : s.nvoices.toNat ≤ s.voices.length) :
    s.voiceStep = s.oscStep
      ((List.range s.nvoices.toNat).map fun n => F64.ofWord (s.voices.getD n Voice.zero).freq)
      ((List.range s.nvoices.toNat).map fun n => F64.ofWord (s.voices.getD n Voice.zero).amp)
      ((List.range s.nvoices.toNat).map fun n => F64.ofWord (s.voices.getD n Voice.zero).phase) := by
  simp only [State.voiceStep, State.activePhases, activeVoices_map _ s h]

end Sys2Proof.Machine

section
open Sys2Proof Sys2Proof.Machine

/-- Settles O13: the entries are binary64 values, which read back as written, and they fill SINETAB. -/
theorem buildSineBuildsTheSineTable : Obligations.BuildSineBuildsTheSineTable :=
  fun _ => ⟨_, rfl, fun _ hi => readSine_writeSinetab hi, rfl, fun _ ha => get_writeSinetab ha⟩

/-- Settles O28: a legal phase is below 1, so its product with the table's length, a power of two, is exact and below it. -/
theorem sineLookupInterpolatesTheTable : Obligations.SineLookupInterpolatesTheTable := by
  intro s tab ph hp hph htab
  have hb := bounds_of_legal hp
  exact ⟨floor_phase_lt hph hb, sineLookup_eq_tableLookup hb htab hph⟩

/-- Settles O29: the oscillator step answers, and the values it commits read back as written. -/
theorem oscSoundsTheBank : Obligations.OscSoundsTheBank := by
  intro s tab hc hv hr htab v inc hinc
  have hlen : s.nvoices.toNat ≤ s.voices.length := (configLegal_iff.1 hc).nvoices.2.trans_eq hv.1.symm
  have hlook := fun n (hn : n < s.nvoices.toNat) =>
    sineLookup_eq_tableLookup (bounds_of_legal hc.1) htab (activePhase_legal hc hv hn)
  have hexec := exec_osc_ok hr ((voiceStep_eq_oscStep hlen).trans (oscStep_eq hinc hlook))
  obtain ⟨-, hrest, hkeep⟩ := execOsc_frame hexec
  refine ⟨_, hexec, fun n hn => ?_, fun n => ?_, ofWord_commitOsc_outL _ (div_valid _ _), rfl, commitOsc_frame s _⟩
  · exact commitOsc_voice_values s _ hn (hn.trans_le hlen) (div_valid _ _) (wrapPhase_valid _)
  · obtain ⟨hfreq, hamp⟩ := hkeep n
    exact ⟨hfreq, hamp, hrest n⟩

end

/-! PROOFS. The exceptions and reset families (60_exceptions.md, 70_reset_and_hazards.md): what the recording of a command error
leaves in STATUS, and what reset makes of the registers and of a transaction. -/

namespace Sys2Proof.Machine

/-! ## The first and the later errors (60_exceptions.md R153) -/

theorem recordError_first {st : Status} (h : st.err = false) (c : ErrCode) :
    st.recordError c = { st with err := true, errcode := c, busy := false } := by
  rw [Status.recordError, if_neg (by simp [h])]

theorem recordError_later {st : Status} (h : st.err = true) (c : ErrCode) :
    st.recordError c = { st with errMulti := true, busy := false } := by
  rw [Status.recordError, if_pos h]

/-! ## While reset is asserted (70_reset_and_hazards.md R162) -/

theorem bus_inReset {s : State} (h : s.inReset = true) (addr : BitVec 32) (w : Word) :
    s.busRead addr = s.reply (readRejected .inReset) ∧ s.busWrite addr w = s.reply (.writeErr .inReset) :=
  ⟨by rw [State.busRead, if_pos h], by rw [State.busWrite, if_pos h]⟩

theorem status_zero_toWord : Status.zero.toWord = 0 := by decide

end Sys2Proof.Machine

section
open Sys2Proof Sys2Proof.Machine

/-- Settles O8: an error before this one decides between the two records. -/
theorem commandErrorIsRecorded : Obligations.CommandErrorIsRecorded := by
  intro s c
  rw [State.cmdError]
  split
  · rw [recordError_first ‹_›]
  · rw [recordError_later (Bool.eq_true_of_not_eq_false ‹_›)]

/-- Settles O48: the step takes the input, whose state is that of reset but for the host's side and the asserted input. -/
theorem resetGivesTheResetState : Obligations.ResetGivesTheResetState := by
  refine ⟨fun s rest o hl hin ht => step_takes hl ht hin, fun s addr w => ?_⟩
  obtain ⟨hread, hwrite⟩ := bus_inReset (s := s.assertReset) rfl addr w
  exact ⟨rfl, rfl, status_zero_toWord, rfl, rfl, rfl, rfl, rfl, rfl, rfl, rfl, rfl, rfl, rfl, rfl, rfl, rfl, get_nil, rfl, rfl,
    hread, hwrite⟩

end
